-- ==== Sys2Proof/Word.lean ====
section
/-! DEFINITION. The two word types of the block (00_scope.md rules R5, R6): a byte (field element,
matrix row, table entry, operand) and the 32-bit word of the host interface and of a command. -/

namespace Sys2Proof

/-- A byte; bit 0 is the least significant bit (R6). -/
abbrev Byte := BitVec 8

/-- A word of the host interface, and a command word (R61, R90). -/
abbrev Word := BitVec 32

/-- A byte offset in the 4 KiB host window (R60). -/
abbrev Offset := BitVec 12

end Sys2Proof
end

