-- ==== Sys2Proof/Config.lean ====
section
/-! DEFINITION. What the spec leaves OPEN (00_scope.md R5, 92_eei_decisions.md "Open parameters") and the
free values of the model: constants WITHOUT a body, so that no proof can know what they are and every
claim holds whatever they are. -/

namespace Sys2Proof

/-- `K44_MAT[0..7]` (R140, D22): the rows of the K44 variant, given nowhere in the spec (log entry 3). -/
opaque Config.k44Mat : Vector Byte 8

/-- `K44_CONST` (R140, D22): the constant of the K44 variant, given nowhere in the spec (log entry 3). -/
opaque Config.k44Const : Byte

/-- `BLOCK_BASE` (R60, R75): where the platform places the 4 KiB window in the host's address map (log entry 12). -/
opaque Config.blockBase : Nat

/-- The free draws of R68 and R72: draw number n is any 32-bit value (log entry 4). -/
opaque Config.freeWord : Nat → Word

/-- The value of host variable n before the host program has written it: R101 states none (log entry 9). -/
opaque Config.freeHostVar : Nat → Word

end Sys2Proof
end

