-- ==== Sys2Proof/Syntax.lean ====
section
/-! DEFINITION. The command set: one constructor for each row of the opcode map (30_encoding.md R95;
spec/opcode_table.json). A constructor's arguments are the operand bytes OPA and then OPB the row lists; every
other operand is the implicit register or array the command's rule names (R91). -/

namespace Sys2Proof

/-- The 23 commands of R95, in the order of the opcode map. -/
inductive Instr where
  /-- NOP (R124). -/
  | nop
  /-- GFMUL a, b (R125): OPA = a, OPB = b. -/
  | gfmul (a b : Byte)
  /-- GFINV a (R126). -/
  | gfinv (a : Byte)
  /-- AFFINE y (R127). -/
  | affine (y : Byte)
  /-- MSEL v (R141): variant number. -/
  | msel (v : Byte)
  /-- MRANK (R143). -/
  | mrank
  /-- SBUILD (R146). -/
  | sbuild
  /-- SVERIFY (R148). -/
  | sverify
  /-- WHT b (R172): output mask. -/
  | wht (b : Byte)
  /-- NL (R176). -/
  | nl
  /-- LAP (R178). -/
  | lap
  /-- DDTROW dx (R182): input difference. -/
  | ddtrow (dx : Byte)
  /-- DU (R184). -/
  | du
  /-- KEXP (R212). -/
  | kexp
  /-- ENC (R213). -/
  | enc
  /-- DEC (R214). -/
  | dec
  /-- SUBB (R215). -/
  | subb
  /-- ISUBB (R216). -/
  | isubb
  /-- SHR (R217). -/
  | shr
  /-- ISHR (R218). -/
  | ishr
  /-- MIXC (R219). -/
  | mixc
  /-- IMIXC (R220). -/
  | imixc
  /-- ARK r (R221): round number. -/
  | ark (r : Byte)
  deriving DecidableEq, Repr, Inhabited

end Sys2Proof
end

