-- ==== Sys2Proof/WellFormed.lean ====
section
/-! DEFINITION. Which commands name something that exists. Every operand is a byte by its type (R91), so the
only checks left are the two operand ranges of 60_exceptions.md R241: a variant number of MSEL and a round
number of ARK. A command that fails its check is still a legal ENCODING: the block accepts it and completes it
with BAD_OPERAND (R141, R221), and `exec` says so; `WellFormed` is not a premise of decoding or of a step. -/

namespace Sys2Proof

/-- Variant numbers of R140: 0 (AES) and 1 (K44). -/
def variantExists (v : Byte) : Bool := decide (v.toNat ≤ 1)

/-- Round numbers of R38: 0 to 10. -/
def roundExists (r : Byte) : Bool := decide (r.toNat ≤ 10)

/-- The operand-range checks of R241 (code 3), one command at a time. -/
def WellFormed (i : Instr) : Bool :=
  match i with
  | .msel v => variantExists v
  | .ark r => roundExists r
  | .nop => true
  | .gfmul _ _ => true
  | .gfinv _ => true
  | .affine _ => true
  | .mrank => true
  | .sbuild => true
  | .sverify => true
  | .wht _ => true
  | .nl => true
  | .lap => true
  | .ddtrow _ => true
  | .du => true
  | .kexp => true
  | .enc => true
  | .dec => true
  | .subb => true
  | .isubb => true
  | .shr => true
  | .ishr => true
  | .mixc => true
  | .imixc => true

end Sys2Proof
end

