-- ==== Sys2Proof/Decode.lean ====
section
/-! DEFINITION. Decoding a command word (30_encoding.md R90-R97), total on all 2^32 words and rejecting by
name, the encoder written from the same map, the opcode table as rows, and the assembler text of a command. -/

namespace Sys2Proof

/-- Why a word is no command: the two decoding errors of R97, in the order R244 checks them. -/
inductive DecodeError where
  /-- The opcode is unassigned (R96): error code 1. -/
  | illegalOpcode
  /-- RSV, or an operand field the command does not use, is not 0 (R92): error code 2. -/
  | reservedField
  deriving DecidableEq, Repr

/-- OPC, bits 31:24 (R90). -/
def opcField (w : Word) : Byte := w.extractLsb' 24 8

/-- OPB, bits 23:16 (R90). -/
def opbField (w : Word) : Byte := w.extractLsb' 16 8

/-- OPA, bits 15:8 (R90). -/
def opaField (w : Word) : Byte := w.extractLsb' 8 8

/-- RSV, bits 7:0 (R90). -/
def rsvField (w : Word) : Byte := w.extractLsb' 0 8

/-- A command with no operand: OPA, OPB and RSV must be 0 (R92). -/
def noOperand (w : Word) (i : Instr) : Except DecodeError Instr :=
  if opaField w = 0 ∧ opbField w = 0 ∧ rsvField w = 0 then .ok i else .error .reservedField

/-- A command with the operand OPA: OPB and RSV must be 0 (R92). -/
def oneOperand (w : Word) (mk : Byte → Instr) : Except DecodeError Instr :=
  if opbField w = 0 ∧ rsvField w = 0 then .ok (mk (opaField w)) else .error .reservedField

/-- A command with the operands OPA and OPB: RSV must be 0 (R92). -/
def twoOperands (w : Word) (mk : Byte → Byte → Instr) : Except DecodeError Instr :=
  if rsvField w = 0 then .ok (mk (opaField w) (opbField w)) else .error .reservedField

/-- Decoding is by OPC alone, then the reserved fields are checked (R94, R92); an OPC outside the map of R95
is unassigned (R96). -/
def decode (w : Word) : Except DecodeError Instr :=
  match (opcField w).toNat with
  | 0x00 => noOperand w .nop
  | 0x01 => twoOperands w .gfmul
  | 0x02 => oneOperand w .gfinv
  | 0x03 => oneOperand w .affine
  | 0x10 => oneOperand w .msel
  | 0x11 => noOperand w .mrank
  | 0x12 => noOperand w .sbuild
  | 0x13 => noOperand w .sverify
  | 0x20 => oneOperand w .wht
  | 0x21 => noOperand w .nl
  | 0x22 => noOperand w .lap
  | 0x23 => oneOperand w .ddtrow
  | 0x24 => noOperand w .du
  | 0x30 => noOperand w .kexp
  | 0x31 => noOperand w .enc
  | 0x32 => noOperand w .dec
  | 0x33 => noOperand w .subb
  | 0x34 => noOperand w .isubb
  | 0x35 => noOperand w .shr
  | 0x36 => noOperand w .ishr
  | 0x37 => noOperand w .mixc
  | 0x38 => noOperand w .imixc
  | 0x39 => oneOperand w .ark
  | _ => .error .illegalOpcode

/-- The opcode of a command (R95). -/
def Instr.opcode (i : Instr) : Byte :=
  match i with
  | .nop => 0x00
  | .gfmul _ _ => 0x01
  | .gfinv _ => 0x02
  | .affine _ => 0x03
  | .msel _ => 0x10
  | .mrank => 0x11
  | .sbuild => 0x12
  | .sverify => 0x13
  | .wht _ => 0x20
  | .nl => 0x21
  | .lap => 0x22
  | .ddtrow _ => 0x23
  | .du => 0x24
  | .kexp => 0x30
  | .enc => 0x31
  | .dec => 0x32
  | .subb => 0x33
  | .isubb => 0x34
  | .shr => 0x35
  | .ishr => 0x36
  | .mixc => 0x37
  | .imixc => 0x38
  | .ark _ => 0x39

/-- The OPA field of a command, 0 where the map of R95 lists none (R92). -/
def Instr.opa (i : Instr) : Byte :=
  match i with
  | .gfmul a _ => a
  | .gfinv a => a
  | .affine y => y
  | .msel v => v
  | .wht b => b
  | .ddtrow dx => dx
  | .ark r => r
  | .nop => 0
  | .mrank => 0
  | .sbuild => 0
  | .sverify => 0
  | .nl => 0
  | .lap => 0
  | .du => 0
  | .kexp => 0
  | .enc => 0
  | .dec => 0
  | .subb => 0
  | .isubb => 0
  | .shr => 0
  | .ishr => 0
  | .mixc => 0
  | .imixc => 0

/-- The OPB field of a command: GFMUL alone uses it (R95). -/
def Instr.opb (i : Instr) : Byte :=
  match i with
  | .gfmul _ b => b
  | .nop => 0
  | .gfinv _ => 0
  | .affine _ => 0
  | .msel _ => 0
  | .mrank => 0
  | .sbuild => 0
  | .sverify => 0
  | .wht _ => 0
  | .nl => 0
  | .lap => 0
  | .ddtrow _ => 0
  | .du => 0
  | .kexp => 0
  | .enc => 0
  | .dec => 0
  | .subb => 0
  | .isubb => 0
  | .shr => 0
  | .ishr => 0
  | .mixc => 0
  | .imixc => 0
  | .ark _ => 0

/-- "The word for opcode o with operands a and b is (o << 24) | (b << 16) | (a << 8)" (R90). -/
def commandWord (o a b : Byte) : Word :=
  (o.setWidth 32 <<< 24) ||| (b.setWidth 32 <<< 16) ||| (a.setWidth 32 <<< 8)

/-- The one word of a command (R90, R93). -/
def encode (i : Instr) : Word := commandWord i.opcode i.opa i.opb

/-- The instruction the decoder reads from a word of `nbits` bits given as the opcode table numbers them: a
command is one 32-bit word whose bit 0 is its least significant bit (R6, R90), so the number is the word. -/
def decodeTableWord (nbits w : Nat) : Option Instr :=
  if w % 2 ^ nbits < 2 ^ 32 then
    match decode (BitVec.ofNat 32 (w % 2 ^ nbits)) with
    | .ok i => some i
    | .error _ => none
  else none

/-- The name of a command in R95. -/
def Instr.mnemonic (i : Instr) : String :=
  match i with
  | .nop => "NOP"
  | .gfmul _ _ => "GFMUL"
  | .gfinv _ => "GFINV"
  | .affine _ => "AFFINE"
  | .msel _ => "MSEL"
  | .mrank => "MRANK"
  | .sbuild => "SBUILD"
  | .sverify => "SVERIFY"
  | .wht _ => "WHT"
  | .nl => "NL"
  | .lap => "LAP"
  | .ddtrow _ => "DDTROW"
  | .du => "DU"
  | .kexp => "KEXP"
  | .enc => "ENC"
  | .dec => "DEC"
  | .subb => "SUBB"
  | .isubb => "ISUBB"
  | .shr => "SHR"
  | .ishr => "ISHR"
  | .mixc => "MIXC"
  | .imixc => "IMIXC"
  | .ark _ => "ARK"

/-- How many operands a command's row of R95 lists. -/
def Instr.operandCount (i : Instr) : Nat :=
  match i with
  | .gfmul _ _ => 2
  | .gfinv _ => 1
  | .affine _ => 1
  | .msel _ => 1
  | .wht _ => 1
  | .ddtrow _ => 1
  | .ark _ => 1
  | .nop => 0
  | .mrank => 0
  | .sbuild => 0
  | .sverify => 0
  | .nl => 0
  | .lap => 0
  | .du => 0
  | .kexp => 0
  | .enc => 0
  | .dec => 0
  | .subb => 0
  | .isubb => 0
  | .shr => 0
  | .ishr => 0
  | .mixc => 0
  | .imixc => 0

/-- The assembler text of a command (R100), operands in decimal. -/
def Instr.text (i : Instr) : String :=
  match i.operandCount with
  | 0 => i.mnemonic
  | 1 => i.mnemonic ++ " " ++ toString i.opa.toNat
  | _ => i.mnemonic ++ " " ++ toString i.opa.toNat ++ ", " ++ toString i.opb.toNat

/-- One row of the opcode table as match and mask (R94). -/
structure OpcodeRow where
  mnemonic : String
  value : Word
  mask : Word
  deriving DecidableEq, Repr

/-- A word fits a row: its fixed bits are the row's (R94). -/
def OpcodeRow.fits (r : OpcodeRow) (w : Word) : Bool := w &&& r.mask == r.value

/-- The 23 rows of spec/opcode_table.json with their match and mask (R94, R95). -/
def opcodeRows : List OpcodeRow := [
  ⟨"NOP", 0x00000000, 0xFFFFFFFF⟩, ⟨"GFMUL", 0x01000000, 0xFF0000FF⟩, ⟨"GFINV", 0x02000000, 0xFFFF00FF⟩,
  ⟨"AFFINE", 0x03000000, 0xFFFF00FF⟩, ⟨"MSEL", 0x10000000, 0xFFFF00FF⟩, ⟨"MRANK", 0x11000000, 0xFFFFFFFF⟩,
  ⟨"SBUILD", 0x12000000, 0xFFFFFFFF⟩, ⟨"SVERIFY", 0x13000000, 0xFFFFFFFF⟩, ⟨"WHT", 0x20000000, 0xFFFF00FF⟩,
  ⟨"NL", 0x21000000, 0xFFFFFFFF⟩, ⟨"LAP", 0x22000000, 0xFFFFFFFF⟩, ⟨"DDTROW", 0x23000000, 0xFFFF00FF⟩,
  ⟨"DU", 0x24000000, 0xFFFFFFFF⟩, ⟨"KEXP", 0x30000000, 0xFFFFFFFF⟩, ⟨"ENC", 0x31000000, 0xFFFFFFFF⟩,
  ⟨"DEC", 0x32000000, 0xFFFFFFFF⟩, ⟨"SUBB", 0x33000000, 0xFFFFFFFF⟩, ⟨"ISUBB", 0x34000000, 0xFFFFFFFF⟩,
  ⟨"SHR", 0x35000000, 0xFFFFFFFF⟩, ⟨"ISHR", 0x36000000, 0xFFFFFFFF⟩, ⟨"MIXC", 0x37000000, 0xFFFFFFFF⟩,
  ⟨"IMIXC", 0x38000000, 0xFFFFFFFF⟩, ⟨"ARK", 0x39000000, 0xFFFF00FF⟩]

end Sys2Proof
end

