-- ==== Sys2Proof/Machine/State.lean ====
section
/-! DEFINITION. The whole state: every register, array, flag and latch the spec gives one block (10_state.md
R22), the host agent with its program (00_scope.md R10, 30_encoding.md R101), and the model's own two fields
that place the agents' steps and number the free draws. Plain data only. -/

namespace Sys2Proof.Machine

/-- The command error codes of 60_exceptions.md R241; codes 7 to 15 are never produced, so they do not exist here. -/
inductive ErrCode where
  /-- 0 NONE. -/
  | noError
  /-- 1 ILLEGAL_OPCODE. -/
  | illegalOpcode
  /-- 2 RESERVED_FIELD. -/
  | reservedField
  /-- 3 BAD_OPERAND. -/
  | badOperand
  /-- 4 NOT_READY. -/
  | notReady
  /-- 5 NON_INVERTIBLE_MATRIX. -/
  | nonInvertibleMatrix
  /-- 6 NON_BIJECTIVE_SBOX. -/
  | nonBijectiveSbox
  deriving DecidableEq, Repr, Inhabited

/-- Who moves next: one of the two agents of R10, or the platform's reset input (R270). -/
inductive Turn where
  /-- The host runs the next line of its program. -/
  | host
  /-- The engine runs the pending command (R280). -/
  | engine
  /-- The platform asserts the power-on reset input (R270). -/
  | reset
  deriving DecidableEq, Repr

/-- One line of a host program (30_encoding.md R101). Variables and labels are numbered, and a label is a line of
its own (log entry 9). -/
inductive HostLine where
  /-- `W off, v`. -/
  | write (off : Offset) (v : Word)
  /-- `R off -> name`. -/
  | read (off : Offset) (name : Nat)
  /-- `CMD mnemonic operands`: `W 0x00C, <word>`. -/
  | cmd (i : Instr)
  /-- `label:` marks the line that follows it. A line of its own here, with no access (log entry 9). -/
  | label (l : Nat)
  /-- `BNZ name, mask, label`: go to label if (name AND mask) is not 0. -/
  | bnz (name : Nat) (mask : Word) (l : Nat)
  /-- `HALT` ends the program. -/
  | halt
  deriving DecidableEq, Repr

/-- The host agent: its program, the position of its next line, its variables (rising by name, no repeats), and
whether its `HALT` has run (R289). These are the host's, not the block's (R101). -/
structure HostAgent where
  prog : List HostLine
  pos : Nat
  vars : List (Nat × Word)
  halted : Bool
  deriving DecidableEq, Repr

/-- One block, its host, and the model's own fields `turns` and `draws`. BUSY and PCMD, and ERR and ERRCODE, are each two
pieces of state, as R22 and R26 list them; R53's invariant ties them. An entry of an array is `none` while its
written mark is 0 and `some v` while it is 1 (R52). -/
structure State where
  /-- PCMD, the pending-command latch (R51). -/
  pcmd : Option Word
  /-- STATUS[0] BUSY. -/
  busy : Bool
  /-- STATUS[1] DONE. -/
  done : Bool
  /-- STATUS[2] ERR. -/
  err : Bool
  /-- STATUS[3] ESTICKY. -/
  esticky : Bool
  /-- STATUS[7:4] ERRCODE. -/
  errCode : ErrCode
  /-- STATUS[8] MAT_OK (R42). -/
  matOk : Bool
  /-- STATUS[9] SBOX_VALID (R43). -/
  sboxValid : Bool
  /-- STATUS[10] SBOX_BIJ (R44). -/
  sboxBij : Bool
  /-- STATUS[11] ISBOX_VALID (R45). -/
  isboxValid : Bool
  /-- STATUS[12] BAL_OK (R46). -/
  balOk : Bool
  /-- STATUS[13] KEY_READY (R47). -/
  keyReady : Bool
  /-- STATUS[14] WSPEC_VALID (R48). -/
  wspecValid : Bool
  /-- STATUS[15] DDTR_VALID (R49). -/
  ddtrValid : Bool
  /-- STATUS[16] BUSYVIOL (R71). -/
  busyViol : Bool
  /-- RESULT0 (R28). -/
  result0 : Word
  /-- RESULT1 (R28). -/
  result1 : Word
  /-- ERRINFO (R29). -/
  errInfo : Word
  /-- ERRADDR[11:0]; bits 31:12 read 0 (R29). -/
  errAddr : Offset
  /-- IRQEN[0] DONE_IE (R33). -/
  doneIe : Bool
  /-- IRQEN[1] ERR_IE (R33). -/
  errIe : Bool
  /-- BALTOL[7:0] (R32). -/
  balTol : Byte
  /-- CONST[7:0] (R31). -/
  const : Byte
  /-- MROW[0..7], the rows MAT0 and MAT1 hold (R30). -/
  mrow : Vector Byte 8
  /-- KEY[0..15], the bytes KEY0-KEY3 hold (R34). -/
  key : Vector Byte 16
  /-- BLK[0..15], the bytes BLK0-BLK3 hold (R35). -/
  blk : Vector Byte 16
  /-- BALW0-BALW7[8:0] (R41). -/
  balw : Vector (BitVec 9) 8
  /-- SBOX[0..255] with the written marks (R36, R52). -/
  sbox : Vector (Option Byte) 256
  /-- ISBOX[0..255] with the written marks (R37, R52). -/
  isbox : Vector (Option Byte) 256
  /-- RK as round-key bytes 0..175, byte 16r + j being RK[r][j], with the written marks (R38, R52). -/
  rk : Vector (Option Byte) 176
  /-- WSPEC[0..255] in 10-bit two's complement with the written marks (R39, R52). -/
  wspec : Vector (Option (BitVec 10)) 256
  /-- DDTR[0..255] in 9 bits with the written marks (R40, R52). -/
  ddtr : Vector (Option (BitVec 9)) 256
  /-- The host agent (R10). -/
  host : HostAgent
  /-- The model's own: who moves in the next steps, oldest first; finite, so that some endless orders R78 allows have no
  value here (DESIGN CHOICE, log entry 5). -/
  turns : List Turn
  /-- The model's own: how many host reads have drawn a free value (log entry 4). -/
  draws : Nat
  deriving DecidableEq, Repr

/-- Why the machine stops with a fault. -/
inductive Fault where
  /-- `UnwrittenTableEntry` (41_matrix_sbox.md R149, 10_state.md R52): the engine would read a table entry whose written
  mark is 0. Raised by SVERIFY on an incomplete S-box; every other command that reads a table raises it only in states no
  run reaches, where the flag it checks is 1 and the table is incomplete (log entries 6, 7). Safe: the
  hardware goes on with whatever its memory holds. -/
  | unwrittenTableEntry
  deriving DecidableEq, Repr

/-- Why the machine has no meaning for a step. -/
inductive Refusal where
  /-- An instruction with no meaning yet. No arm of `exec` raises it. Safe. -/
  | notModelled (mnemonic : String)
  /-- A host program's BNZ goes to a label that marks no line of it (R101 gives no meaning). Raised by a host turn, never by
  a command. Safe. -/
  | undefinedLabel (l : Nat)
  deriving DecidableEq, Repr

/-- The outcome of a step or of a command. -/
abbrev Result := Host.Outcome State Fault Refusal

/-- No host program: nothing is loaded (log entry 8). -/
def HostAgent.idle : HostAgent := { prog := [], pos := 0, vars := [], halted := false }

/-- The state after reset (70_reset_and_hazards.md R271): every register and flag 0, PCMD empty, every written mark 0.
The three last fields are not block state: no host program, no scheduled turn, no draw made (log entries 4, 5, 8). -/
def State.reset : State where
  pcmd := none
  busy := false
  done := false
  err := false
  esticky := false
  errCode := .noError
  matOk := false
  sboxValid := false
  sboxBij := false
  isboxValid := false
  balOk := false
  keyReady := false
  wspecValid := false
  ddtrValid := false
  busyViol := false
  result0 := 0
  result1 := 0
  errInfo := 0
  errAddr := 0
  doneIe := false
  errIe := false
  balTol := 0
  const := 0
  mrow := Vector.replicate 8 0
  key := Vector.replicate 16 0
  blk := Vector.replicate 16 0
  balw := Vector.replicate 8 0
  sbox := Vector.replicate 256 none
  isbox := Vector.replicate 256 none
  rk := Vector.replicate 176 none
  wspec := Vector.replicate 256 none
  ddtr := Vector.replicate 256 none
  host := HostAgent.idle
  turns := []
  draws := 0

end Sys2Proof.Machine
end

