-- ==== Sys2Proof/Machine/Operands.lean ====
section
/-! DEFINITION. The operand forms of the commands and of the host window: bits of a byte, bytes of a word, words of a byte
array, tables with written marks, the 4 by 4 block, and scans over all bytes. The spec has no register-number
operands and no addressing modes (30_encoding.md R91); every implicit operand is read through this file. -/

namespace Sys2Proof.Machine

/-- The vector whose entry i is `f i`. -/
def tabulate {α : Type} {n : Nat} (f : Fin n → α) : Vector α n :=
  ⟨⟨(List.finRange n).map f⟩, by simp⟩

/-- All 256 bytes in ascending order: the range `0..255` of the spec's loops. -/
def allBytes : List Byte := (List.range 256).map (BitVec.ofNat 8)

/-- The bytes `1..255` in ascending order. -/
def nonzeroBytes : List Byte := allBytes.filter (fun b => b != 0)

/-- `parity(v)`: the exclusive or of all bits of v (R7). -/
def parity (v : Byte) : Bool :=
  v.getLsbD 0 ^^ v.getLsbD 1 ^^ v.getLsbD 2 ^^ v.getLsbD 3 ^^
    v.getLsbD 4 ^^ v.getLsbD 5 ^^ v.getLsbD 6 ^^ v.getLsbD 7

/-- `dot(a, x) = parity(a & x)` (R7). -/
def dot (a x : Byte) : Bool := parity (a &&& x)

/-- The byte whose bit i is `f i`. -/
def byteOfBits (f : Nat → Bool) : Byte :=
  (BitVec.ofBool (f 0)).setWidth 8 ||| ((BitVec.ofBool (f 1)).setWidth 8 <<< 1) |||
  ((BitVec.ofBool (f 2)).setWidth 8 <<< 2) ||| ((BitVec.ofBool (f 3)).setWidth 8 <<< 3) |||
  ((BitVec.ofBool (f 4)).setWidth 8 <<< 4) ||| ((BitVec.ofBool (f 5)).setWidth 8 <<< 5) |||
  ((BitVec.ofBool (f 6)).setWidth 8 <<< 6) ||| ((BitVec.ofBool (f 7)).setWidth 8 <<< 7)

/-- Byte m of a word: bits [8m+7:8m] (R63). -/
def byteAt (w : Word) (m : Nat) : Byte := w.extractLsb' (8 * m) 8

/-- The word with the bytes b0 (lowest) to b3 (R63). -/
def packWord (b0 b1 b2 b3 : Byte) : Word := b3 ++ b2 ++ b1 ++ b0

/-- Word k of a byte array: array byte 4k+m is its byte m (R63). -/
def wordOf (f : Nat → Byte) (k : Nat) : Word :=
  packWord (f (4 * k)) (f (4 * k + 1)) (f (4 * k + 2)) (f (4 * k + 3))

/-- Entry i of a byte array, 0 outside it. -/
def entry {n : Nat} (a : Vector Byte n) (i : Nat) : Byte := (a[i]?).getD 0

/-- A byte array with word k replaced by v (R61: all 32 bits are written). -/
def putWord {n : Nat} (a : Vector Byte n) (k : Nat) (v : Word) : Vector Byte n :=
  tabulate fun j => if j.val / 4 = k then byteAt v (j.val % 4) else a[j]

/-! ### Tables with written marks (10_state.md R52) -/

/-- A full table of bytes: what a command works on once every mark is known to be 1. -/
abbrev Table := Vector Byte 256

/-- Entry x of a table. -/
def Table.look (t : Table) (x : Byte) : Byte := t[x.toNat]'x.isLt

/-- Every entry's written mark is 1. -/
def allWritten {α : Type} {n : Nat} (t : Vector (Option α) n) : Bool := t.toList.all Option.isSome

/-- The entries of a table of bytes; used only where `allWritten` holds. -/
def entriesOf {n : Nat} (t : Vector (Option Byte) n) : Vector Byte n := tabulate fun i => t[i].getD 0

/-- The table whose entries are all written, with these values (marks set, R52). -/
def written {α : Type} {n : Nat} (t : Vector α n) : Vector (Option α) n := tabulate fun i => some t[i]

/-- The array with every written mark 0 (R52, R177, R185). -/
def unwritten {α : Type} {n : Nat} : Vector (Option α) n := Vector.replicate n none

/-- The S-box window word k written with v: four entries and their marks (R67). -/
def putTableWord {n : Nat} (t : Vector (Option Byte) n) (k : Nat) (v : Word) : Vector (Option Byte) n :=
  tabulate fun j => if j.val / 4 = k then some (byteAt v (j.val % 4)) else t[j]

/-! ### The 16-byte block as a 4 by 4 state (43_aes.md R203) -/

/-- A data block or a round key. -/
abbrev Block := Vector Byte 16

/-- `s[r][c] = BLK[r + 4c]`, indices modulo 4 (R203). -/
def cell (s : Block) (r c : Nat) : Byte := s[r % 4 + 4 * (c % 4)]'(by omega)

/-- The block with `f r c` in row r and column c (R203). -/
def blockOf (f : Nat → Nat → Byte) : Block := tabulate fun j => f (j.val % 4) (j.val / 4)

/-! ### Scans that keep the first best item (30_encoding.md R99: "First means first in ascending order") -/

/-- One step of a scan: the new item replaces the best so far only when it is strictly better. -/
def keepBetter {α : Type} (better : Nat → Nat → Bool) (f : α → Nat) (best : Option (Nat × α)) (x : α) :
    Option (Nat × α) :=
  match best with
  | none => some (f x, x)
  | some (m, y) => if better (f x) m then some (f x, x) else some (m, y)

/-- The greatest value of f over the list and the first item attaining it. -/
def firstMax {α : Type} (f : α → Nat) (l : List α) : Option (Nat × α) :=
  l.foldl (keepBetter (fun a b => decide (b < a)) f) none

/-- The least value of f over the list and the first item attaining it. -/
def firstMin {α : Type} (f : α → Nat) (l : List α) : Option (Nat × α) :=
  l.foldl (keepBetter (fun a b => decide (a < b)) f) none

/-- All pairs (outer, inner), the outer index first (R178, R184). -/
def bytePairs (outer inner : List Byte) : List (Byte × Byte) :=
  outer.flatMap fun o => inner.map fun i => (o, i)

/-- `(hi << 8) | lo` as a result word (R99). -/
def pairWord (hi lo : Byte) : Word := (hi.setWidth 32 <<< 8) ||| lo.setWidth 32

end Sys2Proof.Machine
end

