-- ==== Sys2Proof/Machine/Flags.lean ====
section
/-! DEFINITION. STATUS and the interrupt line computed from the flags State holds: the error code's number (R241), the
STATUS word idle (R26) and while busy (R72), the validity flags and `irq` (R250). -/

namespace Sys2Proof.Machine

/-- The number of an error code (R241). -/
def ErrCode.number (k : ErrCode) : BitVec 4 :=
  match k with
  | .noError => 0
  | .illegalOpcode => 1
  | .reservedField => 2
  | .badOperand => 3
  | .notReady => 4
  | .nonInvertibleMatrix => 5
  | .nonBijectiveSbox => 6

/-- ERR: the code is not 0 (R50). -/
def ErrCode.isError (k : ErrCode) : Bool := decide (k ≠ .noError)

/-- A flag at bit n of a word. -/
def flagBit (b : Bool) (n : Nat) : Word := (BitVec.ofBool b).setWidth 32 <<< n

/-- STATUS[7:0] (R26). -/
def commandStatusBits (s : State) : Word :=
  flagBit s.busy 0 ||| flagBit s.done 1 ||| flagBit s.err 2 ||| flagBit s.esticky 3 |||
    (s.errCode.number.setWidth 32 <<< 4)

/-- STATUS[15:8], the validity flags (R26, R42-R49). -/
def validityBits (s : State) : Word :=
  flagBit s.matOk 8 ||| flagBit s.sboxValid 9 ||| flagBit s.sboxBij 10 ||| flagBit s.isboxValid 11 |||
    flagBit s.balOk 12 ||| flagBit s.keyReady 13 ||| flagBit s.wspecValid 14 ||| flagBit s.ddtrValid 15

/-- The STATUS word (R26); bits 31:17 read 0. -/
def statusWord (s : State) : Word := commandStatusBits s ||| validityBits s ||| flagBit s.busyViol 16

/-- What STATUS reads while BUSY = 1 (R72): 1 in BUSY, 0 in DONE, ERR and ERRCODE, ESTICKY and BUSYVIOL as they are, and a
draw in bits 8-15. -/
def statusWhileBusy (draw : Word) (s : State) : Word :=
  flagBit true 0 ||| flagBit s.esticky 3 ||| (draw &&& 0x0000FF00) ||| flagBit s.busyViol 16

/-- The IRQEN word (R33). -/
def irqenWord (s : State) : Word := flagBit s.doneIe 0 ||| flagBit s.errIe 1

/-- `irq` = (DONE_IE & DONE) | (ERR_IE & ESTICKY) (R250): a function of the state that holds none of its own. -/
def irq (s : State) : Bool := (s.doneIe && s.done) || (s.errIe && s.esticky)

/-- `abs(BALW[i] - 128) <= T` (R151). -/
def columnBalanced (tol : Byte) (weight : Nat) : Bool :=
  decide (((weight : Int) - 128).natAbs ≤ tol.toNat)

end Sys2Proof.Machine
end

