-- ==== Sys2Proof/Machine/Ops.lean ====
section
/-! DEFINITION. The shared operations over the state: acceptance of a command (R70), its completion with or without an error
(R50, R245, R246: this block's only analogue of taking an exception), what undoes an error (R25, R247: its
only analogue of a return), the busy refusal (R71), reset (R270, R271), and the engine's reads of tables (R52). -/

namespace Sys2Proof.Machine

/-- Acceptance of the command word w (R70, R50). -/
def State.accept (w : Word) (s : State) : State :=
  { s with pcmd := some w, busy := true, done := false, err := false, errCode := .noError }

/-- Completion with code k of the command word w (R50, R280): the latch is emptied, DONE, ERR and ERRCODE are written, and on
an error ESTICKY is set and ERRINFO takes the word. -/
def State.complete (k : ErrCode) (w : Word) (s : State) : State :=
  { s with
    pcmd := none
    busy := false
    done := true
    errCode := k
    err := k.isError
    esticky := s.esticky || k.isError
    errInfo := if k.isError then w else s.errInfo }

/-- The command i ends with success. -/
def succeed (i : Instr) (s : State) : Result := .next (s.complete .noError (encode i))

/-- `raise Error(k)` in the command i (R8, R245): the command ends with code k; nothing its rule has not written changes. -/
def raiseError (k : ErrCode) (i : Instr) (s : State) : Result := .next (s.complete k (encode i))

/-- `RESULT0 <- r0; RESULT1 <- r1` (R99). -/
def State.withResults (r0 r1 : Word) (s : State) : State := { s with result0 := r0, result1 := r1 }

/-- A new data block in place in BLK (R35, D38). -/
def State.withBlk (b : Vector Byte 16) (s : State) : State := { s with blk := b }

/-- `CTRL.CLR_DONE` (R25). -/
def State.clearDone (s : State) : State := { s with done := false }

/-- `CTRL.CLR_ERR` (R25, R247): ESTICKY and BUSYVIOL; ERR, ERRCODE, ERRINFO and ERRADDR keep their values. -/
def State.clearErrors (s : State) : State := { s with esticky := false, busyViol := false }

/-- A write to the word at `off` refused because BUSY = 1 (R71). -/
def State.refuseWrite (off : Offset) (s : State) : State :=
  { s with busyViol := true, esticky := true, errAddr := off &&& 0xFFC }

/-- Every piece of block state takes its reset value (R270, R271); the host agent, the schedule and the draw count are not
block state. -/
def State.resetBlock (s : State) : State :=
  { State.reset with host := s.host, turns := s.turns, draws := s.draws }

/-- The engine works on a table of bytes: the model fault `UnwrittenTableEntry` where some entry's written mark is 0 (R52,
R149; log entries 6, 7). -/
def withTable {n : Nat} (t : Vector (Option Byte) n) (run : Vector Byte n → Result) : Result :=
  if allWritten t then run (entriesOf t) else .fault .unwrittenTableEntry

end Sys2Proof.Machine
end

