-- ==== Sys2Proof/Machine/Analysis.lean ====
section
/-! DEFINITION. Walsh-Hadamard and differential analysis (42_analysis.md): the spectrum, NL, LAP, the difference
distribution table, and the commands WHT, NL, LAP, DDTROW, DU. All counts are exact integers (R7). -/

namespace Sys2Proof.Machine

/-! ### Spectrum (R170, R171) -/

/-- The component function `f_b(x) = dot(b, SBOX[x])` (R170). -/
def component (t : Table) (b x : Byte) : Bool := dot b (t.look x)

/-- `W_b(a)`, the sum over x of (-1)^(f_b(x) + dot(a, x)) (R171), an exact integer. -/
def walsh (t : Table) (b a : Byte) : Int :=
  (allBytes.map fun x => if component t b x ^^ dot a x then (-1 : Int) else 1).sum

/-- `abs(W_b(a))`. -/
def walshAbs (t : Table) (b a : Byte) : Nat := (walsh t b a).natAbs

/-- The spectrum of mask b as WSPEC holds it (R39, R172). -/
def spectrum (t : Table) (b : Byte) : Vector (BitVec 10) 256 :=
  tabulate fun a => BitVec.ofInt 10 (walsh t b (BitVec.ofFin a))

/-- The greatest abs(W_b(a)) over a in 0..255 and the smallest a attaining it (R172). -/
def spectrumPeak (t : Table) (b : Byte) : Nat × Byte := (firstMax (walshAbs t b) allBytes).getD (0, 0)

/-- The in-place butterfly of R173: one pass with stride h pairs (j, j + h) into (u + v, u - v). -/
def butterflyPass (w : List Int) (h : Nat) : List Int :=
  (List.range 256).map fun j =>
    if (j / h) % 2 = 0 then w.getD j 0 + w.getD (j + h) 0 else w.getD (j - h) 0 - w.getD j 0

/-- R173's other method: the passes h = 1, 2, 4, ..., 128 over the sequence (-1)^f_b(x). No command uses it; that it gives the
same 256 integers is a statement. -/
def butterfly (t : Table) (b : Byte) : List Int :=
  [1, 2, 4, 8, 16, 32, 64, 128].foldl butterflyPass
    (allBytes.map fun x => if component t b x then (-1 : Int) else 1)

/-! ### Metrics -/

/-- `128 - M_b / 2` (R175), M_b the greatest abs(W_b(a)), a = 0 included. -/
def componentNl (t : Table) (b : Byte) : Nat := 128 - (spectrumPeak t b).1 / 2

/-- `nl(S)` (R175): the least value over b in 1..255 and the smallest b attaining it. -/
def nonlinearity (t : Table) : Nat × Byte := (firstMin (componentNl t) nonzeroBytes).getD (0, 0)

/-- The LAP numerator (R178, R179): the greatest abs(W_b(a))/2 over b, a in 1..255 and the first (b, a) attaining it. -/
def lapPeak (t : Table) : Nat × (Byte × Byte) :=
  (firstMax (fun p => walshAbs t p.1 p.2 / 2) (bytePairs nonzeroBytes nonzeroBytes)).getD (0, (0, 0))

/-- `ddt(S, dx, dy)`: the number of x with S[x + dx] + S[x] = dy (R180). -/
def ddt (t : Table) (dx dy : Byte) : Nat := allBytes.countP (fun x => t.look (x ^^^ dx) ^^^ t.look x == dy)

/-- The row dx of the table as DDTR holds it (R40, R182). -/
def ddtRow (t : Table) (dx : Byte) : Vector (BitVec 9) 256 :=
  tabulate fun dy => BitVec.ofNat 9 (ddt t dx (BitVec.ofFin dy))

/-- The greatest entry of the row dx and the smallest dy attaining it (R182). -/
def rowPeak (t : Table) (dx : Byte) : Nat × Byte := (firstMax (ddt t dx) allBytes).getD (0, 0)

/-- DU (R184, R186): the greatest entry with dx in 1..255 and the first (dx, dy) attaining it. -/
def duPeak (t : Table) : Nat × (Byte × Byte) :=
  (firstMax (fun p => ddt t p.1 p.2) (bytePairs nonzeroBytes allBytes)).getD (0, (0, 0))

/-! ### Scratch storage (R177, R185) -/

/-- `scratch_wspec()` (R177): WSPEC_VALID cleared, every mark of WSPEC cleared. -/
def State.scratchWspec (s : State) : State := { s with wspecValid := false, wspec := unwritten }

/-- `scratch_ddtr()` (R185): DDTR_VALID cleared, every mark of DDTR cleared. -/
def State.scratchDdtr (s : State) : State := { s with ddtrValid := false, ddtr := unwritten }

/-! ### Commands: every one needs SBOX_VALID and works on the whole S-box -/

/-- The check the five commands share: NOT_READY unless SBOX_VALID = 1 (R172, R176, R178, R182, R184). -/
def withValidSbox (i : Instr) (s : State) (run : Table → Result) : Result :=
  if s.sboxValid then withTable s.sbox run else raiseError .notReady i s

/-- WHT b (R172). -/
def execWht (b : Byte) (s : State) : Result :=
  withValidSbox (.wht b) s fun t =>
    succeed (.wht b)
      { s.withResults (BitVec.ofNat 32 (spectrumPeak t b).1) ((spectrumPeak t b).2.setWidth 32) with
        wspec := written (spectrum t b), wspecValid := true }

/-- NL (R176). -/
def execNl (s : State) : Result :=
  withValidSbox .nl s fun t =>
    succeed .nl
      ((s.withResults (BitVec.ofNat 32 (nonlinearity t).1) ((nonlinearity t).2.setWidth 32)).scratchWspec)

/-- LAP (R178). -/
def execLap (s : State) : Result :=
  withValidSbox .lap s fun t =>
    succeed .lap
      ((s.withResults (BitVec.ofNat 32 (lapPeak t).1) (pairWord (lapPeak t).2.1 (lapPeak t).2.2)).scratchWspec)

/-- DDTROW dx (R182). -/
def execDdtrow (dx : Byte) (s : State) : Result :=
  withValidSbox (.ddtrow dx) s fun t =>
    succeed (.ddtrow dx)
      { s.withResults (BitVec.ofNat 32 (rowPeak t dx).1) ((rowPeak t dx).2.setWidth 32) with
        ddtr := written (ddtRow t dx), ddtrValid := true }

/-- DU (R184). -/
def execDu (s : State) : Result :=
  withValidSbox .du s fun t =>
    succeed .du
      ((s.withResults (BitVec.ofNat 32 (duPeak t).1) (pairWord (duPeak t).2.1 (duPeak t).2.2)).scratchDdtr)

end Sys2Proof.Machine
end

