-- ==== Sys2Proof/Machine/Gf256.lean ====
section
/-! DEFINITION. GF(2^8) arithmetic (40_gf256.md): the three field functions every other command uses (R9, R120-R122) and the
commands NOP, GFMUL, GFINV, AFFINE. -/

namespace Sys2Proof.Machine

/-- The loop of R120: n more iterations on a, b and the product p so far. -/
def gfmulLoop (n : Nat) (a b p : Byte) : Byte :=
  match n with
  | 0 => p
  | n + 1 =>
    gfmulLoop n (if a.getLsbD 7 then (a <<< 1) ^^^ 0x1B else a <<< 1) (b >>> 1)
      (if b.getLsbD 0 then p ^^^ a else p)

/-- `gfmul(a, b)` (R120): 8 iterations of shift and reduce. -/
def gfmul (a b : Byte) : Byte := gfmulLoop 8 a b 0

/-- The loop of R121: r multiplied by a, n times. -/
def gfpowLoop (n : Nat) (a r : Byte) : Byte :=
  match n with
  | 0 => r
  | n + 1 => gfpowLoop n a (gfmul r a)

/-- `gfinv(a)` (R121): 0 for 0, else a^254. -/
def gfinv (a : Byte) : Byte := if a = 0 then 0 else gfpowLoop 254 a 1

/-- `affine(M, c, y)` (R122): output bit i is the parity of row i AND y. -/
def affine (m : Vector Byte 8) (c y : Byte) : Byte :=
  byteOfBits (fun i => parity (entry m i &&& y)) ^^^ c

/-- NOP (R124): no effect but completion. -/
def execNop (s : State) : Result := succeed .nop s

/-- GFMUL a, b (R125). -/
def execGfmul (a b : Byte) (s : State) : Result :=
  succeed (.gfmul a b) (s.withResults ((gfmul a b).setWidth 32) 0)

/-- GFINV a (R126). -/
def execGfinv (a : Byte) (s : State) : Result :=
  succeed (.gfinv a) (s.withResults ((gfinv a).setWidth 32) 0)

/-- AFFINE y (R127): reads MROW and CONST, neither reads nor writes MAT_OK. -/
def execAffine (y : Byte) (s : State) : Result :=
  succeed (.affine y) (s.withResults ((affine s.mrow s.const y).setWidth 32) 0)

end Sys2Proof.Machine
end

