-- ==== Sys2Proof/Machine/Aes.lean ====
section
/-! DEFINITION. AES-128 key schedule and round function (43_aes.md) through the active S-box, and the commands KEXP, ENC, DEC,
SUBB, ISUBB, SHR, ISHR, MIXC, IMIXC, ARK. -/

namespace Sys2Proof.Machine

/-! ### Key schedule (R200-R202) -/

/-- A word w[i] of the recurrence: its bytes w[i].0 to w[i].3 (R200). -/
structure Quad where
  b0 : Byte
  b1 : Byte
  b2 : Byte
  b3 : Byte
  deriving DecidableEq, Repr, Inhabited

/-- Byte k of a word of the recurrence. -/
def Quad.byte (q : Quad) (k : Nat) : Byte :=
  match k with
  | 0 => q.b0
  | 1 => q.b1
  | 2 => q.b2
  | _ => q.b3

/-- Bytewise exclusive or. -/
def Quad.add (p q : Quad) : Quad := ⟨p.b0 ^^^ q.b0, p.b1 ^^^ q.b1, p.b2 ^^^ q.b2, p.b3 ^^^ q.b3⟩

/-- `RCON[1..10]` (R201). -/
def rcon (j : Nat) : Byte :=
  [0x00, 0x01, 0x02, 0x04, 0x08, 0x10, 0x20, 0x40, 0x80, 0x1B, 0x36].getD j 0

/-- SubWord(RotWord(t)) (R202). -/
def subRot (t : Table) (q : Quad) : Quad := ⟨t.look q.b1, t.look q.b2, t.look q.b3, t.look q.b0⟩

/-- The word w[i] from the words before it, newest first (R200). -/
def nextKeyWord (t : Table) (i : Nat) (ws : List Quad) : Quad :=
  (ws.getD 3 default).add
    (if i % 4 = 0 then (subRot t (ws.getD 0 default)).add ⟨rcon (i / 4), 0, 0, 0⟩ else ws.getD 0 default)

/-- n more words from index i on, newest first (R200). -/
def keyWordsLoop (t : Table) (n i : Nat) (ws : List Quad) : List Quad :=
  match n with
  | 0 => ws
  | n + 1 => keyWordsLoop t n (i + 1) (nextKeyWord t i ws :: ws)

/-- Word i of the key, i in 0..3 (R200). -/
def keyWord (k : Block) (i : Nat) : Quad := ⟨cell k 0 i, cell k 1 i, cell k 2 i, cell k 3 i⟩

/-- The words w[0..43], oldest first (R200). -/
def keyWords (k : Block) (t : Table) : List Quad :=
  (keyWordsLoop t 40 4 [keyWord k 3, keyWord k 2, keyWord k 1, keyWord k 0]).reverse

/-- `kexp(K, S)` (R200): round-key byte 16r + 4c + j is w[4r + c].j. -/
def kexp (k : Block) (t : Table) : Vector Byte 176 :=
  tabulate fun n => ((keyWords k t).getD (n.val / 4) default).byte (n.val % 4)

/-- Round key r (R38). -/
def roundKey (rk : Vector Byte 176) (r : Nat) : Block := tabulate fun j => entry rk (16 * r + j.val)

/-! ### Round steps (R204-R210) -/

/-- SubBytes (R204), and InvSubBytes over the inverse table (R205). -/
def subBytes (t : Table) (s : Block) : Block := tabulate fun j => t.look s[j]

/-- ShiftRows: row r rotated left by r (R206). -/
def shiftRows (s : Block) : Block := blockOf fun r c => cell s r (c + r)

/-- InvShiftRows: row r rotated right by r (R207). -/
def invShiftRows (s : Block) : Block := blockOf fun r c => cell s r (c + 4 - r)

/-- Row r of the MixColumns product of one column (R208). -/
def mixRow (r : Nat) (s0 s1 s2 s3 : Byte) : Byte :=
  match r with
  | 0 => gfmul 2 s0 ^^^ gfmul 3 s1 ^^^ s2 ^^^ s3
  | 1 => s0 ^^^ gfmul 2 s1 ^^^ gfmul 3 s2 ^^^ s3
  | 2 => s0 ^^^ s1 ^^^ gfmul 2 s2 ^^^ gfmul 3 s3
  | _ => gfmul 3 s0 ^^^ s1 ^^^ s2 ^^^ gfmul 2 s3

/-- Row r of the InvMixColumns product of one column (R209). -/
def invMixRow (r : Nat) (s0 s1 s2 s3 : Byte) : Byte :=
  match r with
  | 0 => gfmul 0x0E s0 ^^^ gfmul 0x0B s1 ^^^ gfmul 0x0D s2 ^^^ gfmul 0x09 s3
  | 1 => gfmul 0x09 s0 ^^^ gfmul 0x0E s1 ^^^ gfmul 0x0B s2 ^^^ gfmul 0x0D s3
  | 2 => gfmul 0x0D s0 ^^^ gfmul 0x09 s1 ^^^ gfmul 0x0E s2 ^^^ gfmul 0x0B s3
  | _ => gfmul 0x0B s0 ^^^ gfmul 0x0D s1 ^^^ gfmul 0x09 s2 ^^^ gfmul 0x0E s3

/-- MixColumns (R208). -/
def mixColumns (s : Block) : Block := blockOf fun r c => mixRow r (cell s 0 c) (cell s 1 c) (cell s 2 c) (cell s 3 c)

/-- InvMixColumns (R209). -/
def invMixColumns (s : Block) : Block :=
  blockOf fun r c => invMixRow r (cell s 0 c) (cell s 1 c) (cell s 2 c) (cell s 3 c)

/-- AddRoundKey with the round key k (R210). -/
def addRoundKey (s k : Block) : Block := tabulate fun j => s[j] ^^^ k[j]

/-! ### Cipher and inverse cipher (R211) -/

/-- One of the rounds 1 to 9 of `cipher`. -/
def cipherRound (rk : Vector Byte 176) (t : Table) (s : Block) (r : Nat) : Block :=
  addRoundKey (mixColumns (shiftRows (subBytes t s))) (roundKey rk r)

/-- `cipher(p, RK, S)` (R211). -/
def cipher (p : Block) (rk : Vector Byte 176) (t : Table) : Block :=
  addRoundKey
    (shiftRows (subBytes t
      ([1, 2, 3, 4, 5, 6, 7, 8, 9].foldl (cipherRound rk t) (addRoundKey p (roundKey rk 0)))))
    (roundKey rk 10)

/-- One of the rounds 9 to 1 of `inv_cipher`. -/
def invCipherRound (rk : Vector Byte 176) (it : Table) (s : Block) (r : Nat) : Block :=
  invMixColumns (addRoundKey (subBytes it (invShiftRows s)) (roundKey rk r))

/-- `inv_cipher(c, RK, IS)` (R211). -/
def invCipher (c : Block) (rk : Vector Byte 176) (it : Table) : Block :=
  addRoundKey
    (subBytes it (invShiftRows
      ([9, 8, 7, 6, 5, 4, 3, 2, 1].foldl (invCipherRound rk it) (addRoundKey c (roundKey rk 10)))))
    (roundKey rk 0)

/-! ### Commands -/

/-- The new block of a round command in BLK, and success. -/
def putBlock (i : Instr) (b : Block) (s : State) : Result := succeed i (s.withBlk b)

/-- KEXP (R212). -/
def execKexp (s : State) : Result :=
  withValidSbox .kexp s fun t => succeed .kexp { s with rk := written (kexp s.key t), keyReady := true }

/-- ENC (R213). -/
def execEnc (s : State) : Result :=
  if s.sboxValid && s.keyReady then
    withTable s.sbox fun t => withTable s.rk fun rk => putBlock .enc (cipher s.blk rk t) s
  else raiseError .notReady .enc s

/-- DEC (R214). -/
def execDec (s : State) : Result :=
  if s.isboxValid && s.keyReady then
    withTable s.isbox fun it => withTable s.rk fun rk => putBlock .dec (invCipher s.blk rk it) s
  else raiseError .notReady .dec s

/-- SUBB (R215). -/
def execSubb (s : State) : Result :=
  withValidSbox .subb s fun t => putBlock .subb (subBytes t s.blk) s

/-- ISUBB (R216). -/
def execIsubb (s : State) : Result :=
  if s.isboxValid then withTable s.isbox fun it => putBlock .isubb (subBytes it s.blk) s
  else raiseError .notReady .isubb s

/-- SHR (R217). -/
def execShr (s : State) : Result := putBlock .shr (shiftRows s.blk) s

/-- ISHR (R218). -/
def execIshr (s : State) : Result := putBlock .ishr (invShiftRows s.blk) s

/-- MIXC (R219). -/
def execMixc (s : State) : Result := putBlock .mixc (mixColumns s.blk) s

/-- IMIXC (R220). -/
def execImixc (s : State) : Result := putBlock .imixc (invMixColumns s.blk) s

/-- ARK r (R221): the operand range is checked before the readiness (R244). -/
def execArk (r : Byte) (s : State) : Result :=
  if roundExists r then
    if s.keyReady then
      withTable s.rk fun rk => putBlock (.ark r) (addRoundKey s.blk (roundKey rk r.toNat)) s
    else raiseError .notReady (.ark r) s
  else raiseError .badOperand (.ark r) s

end Sys2Proof.Machine
end

