-- ==== Sys2Proof/Machine/MatrixSbox.lean ====
section
/-! DEFINITION. Affine matrix and S-box (41_matrix_sbox.md): the named variants, the rank checker, the S-box builder, the table
check, and the commands MSEL, MRANK, SBUILD, SVERIFY. -/

namespace Sys2Proof.Machine

/-! ### Variants (R140) -/

/-- The AES rows of R140. -/
def aesMatrix : Vector Byte 8 := ⟨#[0xF1, 0xE3, 0xC7, 0x8F, 0x1F, 0x3E, 0x7C, 0xF8], rfl⟩

/-- The AES constant of R140. -/
def aesConst : Byte := 0x63

/-- The matrix of variant v (R140): 0 is AES, 1 is K44. -/
def variantMatrix (v : Byte) : Vector Byte 8 := if v = 0 then aesMatrix else Config.k44Mat

/-- The constant of variant v (R140). -/
def variantConst (v : Byte) : Byte := if v = 0 then aesConst else Config.k44Const

/-! ### Rank (R142) -/

/-- The elimination's working state: the copied rows, the next pivot row r, and the first (failrow, failcol). -/
structure Elimination where
  rows : Vector Byte 8
  r : Nat
  fail : Option (Nat × Nat)
  deriving DecidableEq, Repr

/-- The smallest i with r <= i <= 7 whose row has bit c (R142). -/
def pivotRow (rows : Vector Byte 8) (r c : Nat) : Option Nat :=
  (List.range 8).find? (fun i => decide (r ≤ i) && (entry rows i).getLsbD c)

/-- Rows r and p swapped (R142). -/
def swapRows (rows : Vector Byte 8) (r p : Nat) : Vector Byte 8 :=
  tabulate fun i => if i.val = r then entry rows p else if i.val = p then entry rows r else rows[i]

/-- Row r added to every other row that has bit c (R142). -/
def clearColumn (rows : Vector Byte 8) (r c : Nat) : Vector Byte 8 :=
  tabulate fun i => if i.val ≠ r ∧ rows[i].getLsbD c then rows[i] ^^^ entry rows r else rows[i]

/-- The body of R142's loop for column c. -/
def eliminateColumn (e : Elimination) (c : Nat) : Elimination :=
  match pivotRow e.rows e.r c with
  | none => { e with fail := match e.fail with | none => some (e.r, c) | some f => some f }
  | some p => { e with rows := clearColumn (swapRows e.rows e.r p) e.r c, r := e.r + 1 }

/-- `rank_check(M)` (R142): columns from bit 0 up. -/
def rankCheck (m : Vector Byte 8) : Elimination :=
  (List.range 8).foldl eliminateColumn { rows := m, r := 0, fail := none }

/-- The rank of M over GF(2) (R142). -/
def rankOf (m : Vector Byte 8) : Nat := (rankCheck m).r

/-- `(failcol << 8) | failrow`, both 0xFF where no column failed (R142, R143). -/
def failWord (e : Elimination) : Word :=
  match e.fail with
  | none => 0xFFFF
  | some (row, col) => (BitVec.ofNat 32 col <<< 8) ||| BitVec.ofNat 32 row

/-! ### The S-box and its check (R144, R147) -/

/-- `sbox_of(M, c)` (R144). -/
def sboxOf (m : Vector Byte 8) (c : Byte) : Table :=
  tabulate fun x => affine m c (gfinv (BitVec.ofFin x))

/-- The value v stands in the table. -/
def occurs (t : Table) (v : Byte) : Bool := t.toList.contains v

/-- The number of distinct values in the table (R147). -/
def distinctCount (t : Table) : Nat := (allBytes.filter (occurs t)).length

/-- The smallest byte value absent from the table, 0x100 when none is (R147). -/
def firstMissing (t : Table) : Word :=
  match allBytes.find? (fun v => !occurs t v) with
  | none => 0x100
  | some v => v.setWidth 32

/-- The table is bijective: 256 distinct values (R150). -/
def bijective (t : Table) : Bool := distinctCount t == 256

/-- The number of x with bit i of the entry x set (R151). -/
def columnWeight (t : Table) (i : Nat) : Nat := t.toList.countP (fun v => v.getLsbD i)

/-- BALW[0..7] (R147, R151). -/
def columnWeights (t : Table) : Vector (BitVec 9) 8 := tabulate fun i => BitVec.ofNat 9 (columnWeight t i.val)

/-- BAL_OK (R151). -/
def balanced (tol : Byte) (t : Table) : Bool :=
  (List.range 8).all (fun i => columnBalanced tol (columnWeight t i))

/-- `for x in 0..255: ISBOX[SBOX[x]] <- x` (R152) over a bijective table: the entry y is the x with SBOX[x] = y. -/
def inverseTable (t : Table) : Table :=
  tabulate fun y => (allBytes.find? (fun x => t.look x == BitVec.ofFin y)).getD 0

/-- `check_table()` (R147) over the present table t: results, column weights, BAL_OK, SBOX_BIJ, and the inverse
table with ISBOX_VALID where t is bijective (R152); where it is not, ISBOX keeps its entries and marks. -/
def State.checkTable (t : Table) (s : State) : State :=
  { s with
    result0 := BitVec.ofNat 32 (distinctCount t)
    result1 := firstMissing t
    balw := columnWeights t
    balOk := balanced s.balTol t
    sboxBij := bijective t
    isbox := if bijective t then written (inverseTable t) else s.isbox
    isboxValid := bijective t }

/-- The end of SBUILD and SVERIFY: code 6 after the writes where the table is not bijective (R146, R148). -/
def finishCheck (t : Table) (i : Instr) (s : State) : Result :=
  if bijective t then succeed i (s.checkTable t) else raiseError .nonBijectiveSbox i (s.checkTable t)

/-! ### Commands -/

/-- MSEL v (R141). -/
def execMsel (v : Byte) (s : State) : Result :=
  if variantExists v then
    succeed (.msel v) { s with mrow := variantMatrix v, const := variantConst v, matOk := false }
  else raiseError .badOperand (.msel v) s

/-- MRANK (R143). -/
def execMrank (s : State) : Result :=
  succeed .mrank
    { s.withResults (BitVec.ofNat 32 (rankOf s.mrow)) (failWord (rankCheck s.mrow)) with
      matOk := rankOf s.mrow == 8 }

/-- SBUILD (R146). -/
def execSbuild (s : State) : Result :=
  if s.matOk then
    finishCheck (sboxOf s.mrow s.const) .sbuild
      { s with sbox := written (sboxOf s.mrow s.const), sboxValid := true, keyReady := false }
  else raiseError .nonInvertibleMatrix .sbuild s

/-- SVERIFY (R148), with the model fault of R149. -/
def execSverify (s : State) : Result :=
  withTable s.sbox fun t => finishCheck t .sverify { s with sboxValid := true }

end Sys2Proof.Machine
end

