-- ==== Sys2Proof/Machine/Dispatch.lean ====
section
/-! DEFINITION. Dispatch: one arm for each command (30_encoding.md R95). -/

namespace Sys2Proof.Machine

def exec (i : Instr) (s : State) : Host.Outcome State Fault Refusal :=
  match i with
  | .nop => Sys2Proof.Machine.execNop s
  | .gfmul a b => Sys2Proof.Machine.execGfmul a b s
  | .gfinv a => Sys2Proof.Machine.execGfinv a s
  | .affine y => Sys2Proof.Machine.execAffine y s
  | .msel v => Sys2Proof.Machine.execMsel v s
  | .mrank => Sys2Proof.Machine.execMrank s
  | .sbuild => Sys2Proof.Machine.execSbuild s
  | .sverify => Sys2Proof.Machine.execSverify s
  | .wht b => Sys2Proof.Machine.execWht b s
  | .nl => Sys2Proof.Machine.execNl s
  | .lap => Sys2Proof.Machine.execLap s
  | .ddtrow dx => Sys2Proof.Machine.execDdtrow dx s
  | .du => Sys2Proof.Machine.execDu s
  | .kexp => Sys2Proof.Machine.execKexp s
  | .enc => Sys2Proof.Machine.execEnc s
  | .dec => Sys2Proof.Machine.execDec s
  | .subb => Sys2Proof.Machine.execSubb s
  | .isubb => Sys2Proof.Machine.execIsubb s
  | .shr => Sys2Proof.Machine.execShr s
  | .ishr => Sys2Proof.Machine.execIshr s
  | .mixc => Sys2Proof.Machine.execMixc s
  | .imixc => Sys2Proof.Machine.execImixc s
  | .ark r => Sys2Proof.Machine.execArk r s

end Sys2Proof.Machine
end

