-- ==== Sys2Proof/Machine/HostWindow.lean ====
section
/-! DEFINITION. The host window (20_memory.md): which register or table word an offset addresses (10_state.md R23), the
host's 32-bit write and read with their side effects, busy refusals and free draws, and the same accesses by
bus address. -/

namespace Sys2Proof.Machine

/-- What a word of the window is (R23). -/
inductive Target where
  | id
  | ctrl
  | status
  | cmd
  | result0
  | result1
  | errInfo
  | errAddr
  | irqen
  | balTol
  | const
  | mat (k : Fin 2)
  | key (k : Fin 4)
  | blk (k : Fin 4)
  | balw (k : Fin 8)
  | sbox (k : Fin 64)
  | isbox (k : Fin 64)
  | rk (k : Fin 44)
  | wspec (k : Fin 256)
  | ddtr (k : Fin 256)
  /-- Every offset R23 does not list (R66). -/
  | reserved
  deriving DecidableEq, Repr

/-- Word k of the window, at offset 4k (R23). -/
def targetOfWord (k : Nat) : Target :=
  if k = 0 then .id
  else if k = 1 then .ctrl
  else if k = 2 then .status
  else if k = 3 then .cmd
  else if k = 4 then .result0
  else if k = 5 then .result1
  else if k = 6 then .errInfo
  else if k = 7 then .errAddr
  else if k = 8 then .irqen
  else if k = 9 then .balTol
  else if k = 10 then .const
  else if h : 12 ≤ k ∧ k < 14 then .mat ⟨k - 12, by omega⟩
  else if h : 16 ≤ k ∧ k < 20 then .key ⟨k - 16, by omega⟩
  else if h : 20 ≤ k ∧ k < 24 then .blk ⟨k - 20, by omega⟩
  else if h : 24 ≤ k ∧ k < 32 then .balw ⟨k - 24, by omega⟩
  else if h : 256 ≤ k ∧ k < 320 then .sbox ⟨k - 256, by omega⟩
  else if h : 320 ≤ k ∧ k < 384 then .isbox ⟨k - 320, by omega⟩
  else if h : 384 ≤ k ∧ k < 428 then .rk ⟨k - 384, by omega⟩
  else if h : 512 ≤ k ∧ k < 768 then .wspec ⟨k - 512, by omega⟩
  else if h : 768 ≤ k ∧ k < 1024 then .ddtr ⟨k - 768, by omega⟩
  else .reserved

/-- The word offset an access acts on: bits 1:0 are ignored (R62). -/
def wordOffset (off : Offset) : Offset := off &&& 0xFFC

/-- What an access to `off` addresses (R23, R62). -/
def locate (off : Offset) : Target := targetOfWord ((wordOffset off).toNat / 4)

/-! ### Writes -/

/-- A write that is refused while BUSY = 1 (R71). -/
def whenIdle (off : Offset) (s : State) (act : State → State) : State :=
  if s.busy then s.refuseWrite off else act s

/-- A write to CTRL (R25): each field acts only when written as 1, busy or not; a soft reset makes the others irrelevant. -/
def writeCtrl (v : Word) (s : State) : State :=
  if v.getLsbD 0 then s.resetBlock
  else if v.getLsbD 1 then (if v.getLsbD 2 then s.clearDone.clearErrors else s.clearDone)
  else if v.getLsbD 2 then s.clearErrors
  else s

/-- A write to MAT0 or MAT1 (R30, R42). -/
def writeMat (k : Nat) (v : Word) (s : State) : State := { s with mrow := putWord s.mrow k v, matOk := false }

/-- A write to KEY0-KEY3 (R34, R47). -/
def writeKey (k : Nat) (v : Word) (s : State) : State := { s with key := putWord s.key k v, keyReady := false }

/-- A write to BLK0-BLK3 (R35). -/
def writeBlk (k : Nat) (v : Word) (s : State) : State := { s with blk := putWord s.blk k v }

/-- A write to CONST: bits 7:0 (R31). -/
def writeConst (v : Word) (s : State) : State := { s with const := byteAt v 0 }

/-- A write to BALTOL: bits 7:0 (R32). -/
def writeBalTol (v : Word) (s : State) : State := { s with balTol := byteAt v 0 }

/-- A write to IRQEN: bits 1:0 (R33). -/
def writeIrqen (v : Word) (s : State) : State := { s with doneIe := v.getLsbD 0, errIe := v.getLsbD 1 }

/-- A write to an S-box window word (R67). -/
def writeSbox (k : Nat) (v : Word) (s : State) : State :=
  { s with
    sbox := putTableWord s.sbox k v
    sboxValid := false
    sboxBij := false
    isboxValid := false
    balOk := false
    keyReady := false }

/-- A host write of v at `off` (R61, R66, R67, R69-R71; 10_state.md R25, R27, R30-R35). -/
def hostWrite (off : Offset) (v : Word) (s : State) : State :=
  match locate off with
  | .ctrl => writeCtrl v s
  | .cmd => whenIdle off s (State.accept v)
  | .irqen => writeIrqen v s
  | .balTol => whenIdle off s (writeBalTol v)
  | .const => whenIdle off s (writeConst v)
  | .mat k => whenIdle off s (writeMat k.val v)
  | .key k => whenIdle off s (writeKey k.val v)
  | .blk k => whenIdle off s (writeBlk k.val v)
  | .sbox k => whenIdle off s (writeSbox k.val v)
  | .id => s
  | .status => s
  | .result0 => s
  | .result1 => s
  | .errInfo => s
  | .errAddr => s
  | .balw _ => s
  | .isbox _ => s
  | .rk _ => s
  | .wspec _ => s
  | .ddtr _ => s
  | .reserved => s

/-! ### Reads -/

/-- The ID constant (R24). -/
def idWord : Word := 0x53425831

/-- Word k of a byte table: an entry whose mark is 0 reads as its lane of the draw (R64, R68). -/
def tableWord {n : Nat} (draw : Word) (t : Vector (Option Byte) n) (k : Nat) : Word :=
  packWord (((t[4 * k]?).join).getD (byteAt draw 0)) (((t[4 * k + 1]?).join).getD (byteAt draw 1))
    (((t[4 * k + 2]?).join).getD (byteAt draw 2)) (((t[4 * k + 3]?).join).getD (byteAt draw 3))

/-- A value that a command may be changing: a draw while BUSY = 1 (R72). -/
def settled (s : State) (draw v : Word) : Word := if s.busy then draw else v

/-- The word a host read at `off` returns, `draw` being its free draw (R24-R35, R41, R64-R68, R72). -/
def readWord (off : Offset) (draw : Word) (s : State) : Word :=
  match locate off with
  | .id => idWord
  | .ctrl => 0
  | .cmd => 0
  | .reserved => 0
  | .status => if s.busy then statusWhileBusy draw s else statusWord s
  | .result0 => settled s draw s.result0
  | .result1 => settled s draw s.result1
  | .errInfo => settled s draw s.errInfo
  | .errAddr => s.errAddr.setWidth 32
  | .irqen => irqenWord s
  | .balTol => s.balTol.setWidth 32
  | .const => settled s (draw &&& 0xFF) (s.const.setWidth 32)
  | .mat k => settled s draw (wordOf (entry s.mrow) k.val)
  | .key k => wordOf (entry s.key) k.val
  | .blk k => settled s draw (wordOf (entry s.blk) k.val)
  | .balw k => settled s (draw &&& 0x1FF) (s.balw[k].setWidth 32)
  | .sbox k => settled s draw (tableWord draw s.sbox k.val)
  | .isbox k => settled s draw (tableWord draw s.isbox k.val)
  | .rk k => settled s draw (tableWord draw s.rk k.val)
  | .wspec k => settled s draw ((s.wspec[k].getD (draw.extractLsb' 0 10)).signExtend 32)
  | .ddtr k => settled s draw ((s.ddtr[k].getD (draw.extractLsb' 0 9)).setWidth 32)

/-- A host read: the word, and the state with one more draw made. No block state changes (R73). -/
def hostRead (off : Offset) (s : State) : Word × State :=
  (readWord off (Config.freeWord s.draws) s, { s with draws := s.draws + 1 })

/-! ### The same accesses by bus address (00_scope.md R8, R60, R75) -/

/-- The offset of a bus address inside the window that the platform places at BLOCK_BASE (R60). -/
def windowOffset (addr : Nat) : Option Offset :=
  if Config.blockBase ≤ addr ∧ addr < Config.blockBase + 4096 then
    some (BitVec.ofNat 12 (addr - Config.blockBase))
  else none

/-- `MemWrite(addr, 4, v)` (R8): nothing where the address is outside the window, whose bus response is the platform's (R75). -/
def memWrite (addr : Nat) (v : Word) (s : State) : Option State := (windowOffset addr).map fun off => hostWrite off v s

/-- `MemRead(addr, 4)` (R8): the word read, or nothing where the address is outside the window. -/
def memRead (addr : Nat) (s : State) : Option (Word × State) := (windowOffset addr).map fun off => hostRead off s

end Sys2Proof.Machine
end

