-- ==== Sys2Proof/Machine/HostProgram.lean ====
section
/-! DEFINITION. The host agent (00_scope.md R10): its variables, one line of its program (30_encoding.md R101), and the
pseudo-instructions with their exact expansions (R102). -/

namespace Sys2Proof.Machine

/-! ### Host variables: a list rising by name, no repeats -/

/-- The value of variable n: a free value before the program has written it (log entry 9). -/
def getVar (vars : List (Nat × Word)) (n : Nat) : Word :=
  match vars with
  | [] => Config.freeHostVar n
  | (m, v) :: rest => if m = n then v else getVar rest n

/-- Variable n set to v, the list kept rising by name. -/
def setVar (vars : List (Nat × Word)) (n : Nat) (v : Word) : List (Nat × Word) :=
  match vars with
  | [] => [(n, v)]
  | (m, u) :: rest =>
    if n < m then (n, v) :: (m, u) :: rest
    else if n = m then (n, v) :: rest
    else (m, u) :: setVar rest n v

/-- The names rise strictly: the one form a set of variables has. -/
def varsRise (vars : List (Nat × Word)) : Bool :=
  match vars with
  | [] => true
  | [_] => true
  | (m, _) :: (n, w) :: rest => decide (m < n) && varsRise ((n, w) :: rest)

/-! ### Lines -/

/-- The position of the line a label marks: the first one. -/
def findLabel (prog : List HostLine) (l : Nat) : Option Nat :=
  prog.findIdx? (fun line => decide (line = .label l))

/-- The host goes on with its next line. -/
def State.nextLine (s : State) : State := { s with host := { s.host with pos := s.host.pos + 1 } }

/-- A value read into a host variable. -/
def State.setHostVar (n : Nat) (v : Word) (s : State) : State :=
  { s with host := { s.host with vars := setVar s.host.vars n v } }

/-- `R off -> name` (R101). -/
def runRead (off : Offset) (n : Nat) (s : State) : State :=
  ((hostRead off s).2.setHostVar n (hostRead off s).1).nextLine

/-- `BNZ name, mask, label` (R101). -/
def runBnz (n : Nat) (mask : Word) (l : Nat) (s : State) : Result :=
  if getVar s.host.vars n &&& mask = 0 then .next s.nextLine
  else
    match findLabel s.host.prog l with
    | some p => .next { s with host := { s.host with pos := p } }
    | none => .refused (.undefinedLabel l)

/-- One line of a host program (R101): every access is one indivisible event (R74). A label is a line of its own, which uses up one turn of
the host with no access (DESIGN CHOICE, log entry 9). -/
def runLine (line : HostLine) (s : State) : Result :=
  match line with
  | .write off v => .next (hostWrite off v s).nextLine
  | .read off n => .next (runRead off n s)
  | .cmd i => .next (hostWrite 0x00C (encode i) s).nextLine
  | .label _ => .next s.nextLine
  | .bnz n mask l => runBnz n mask l s
  | .halt => .next { s with host := { s.host with halted := true } }

/-- A turn of the host: its next line, or nothing where it has halted or its program has no further line (log entry 9). -/
def hostTurn (s : State) : Result :=
  if s.host.halted then .next s
  else
    match s.host.prog[s.host.pos]? with
    | some line => runLine line s
    | none => .next s

/-! ### Pseudo-instructions (R102): l is a fresh label, st the variable polled -/

/-- `WAIT`: `L: R STATUS -> st` / `BNZ st, 0x1, L`. -/
def waitLines (l st : Nat) : List HostLine := [.label l, .read 0x008 st, .bnz st 1 l]

/-- `RUN mnemonic operands`: `CMD` then `WAIT`. -/
def runLines (l st : Nat) (i : Instr) : List HostLine := .cmd i :: waitLines l st

/-- The four writes of `LOADKEY`. -/
def loadKeyLines (k : Block) : List HostLine :=
  [.write 0x040 (wordOf (entry k) 0), .write 0x044 (wordOf (entry k) 1), .write 0x048 (wordOf (entry k) 2),
    .write 0x04C (wordOf (entry k) 3)]

/-- The four writes of `LOADBLK`. -/
def loadBlkLines (b : Block) : List HostLine :=
  [.write 0x050 (wordOf (entry b) 0), .write 0x054 (wordOf (entry b) 1), .write 0x058 (wordOf (entry b) 2),
    .write 0x05C (wordOf (entry b) 3)]

/-- `READBLK -> q`: q0 to q3 are the variables q to q + 3. -/
def readBlkLines (q : Nat) : List HostLine :=
  [.read 0x050 q, .read 0x054 (q + 1), .read 0x058 (q + 2), .read 0x05C (q + 3)]

/-- The two writes of `LOADMAT`. -/
def loadMatLines (m : Vector Byte 8) : List HostLine :=
  [.write 0x030 (wordOf (entry m) 0), .write 0x034 (wordOf (entry m) 1)]

/-- `LOADSBOX`: the 64 window words in order, then `RUN SVERIFY`. -/
def loadSboxLines (l st : Nat) (t : Table) : List HostLine :=
  ((List.range 64).map fun k => HostLine.write (BitVec.ofNat 12 (0x400 + 4 * k)) (wordOf (entry t) k)) ++
    runLines l st .sverify

/-- `BUILD v`: `RUN MSEL v` / `RUN MRANK` / `RUN SBUILD`, with the labels l, l + 1, l + 2. -/
def buildLines (l st : Nat) (v : Byte) : List HostLine :=
  runLines l st (.msel v) ++ runLines (l + 1) st .mrank ++ runLines (l + 2) st .sbuild

end Sys2Proof.Machine
end

