-- ==== Sys2Proof/Machine/Engine.lean ====
section
/-! DEFINITION. The engine's step (70_reset_and_hazards.md R280), the placement of the agents' steps (20_memory.md R78), and
how the host of this pipeline places one command word for the next step. -/

namespace Sys2Proof.Machine

/-- The completion code of a word that is no command (R97, R244). -/
def decodeErrorCode (e : DecodeError) : ErrCode :=
  match e with
  | .illegalOpcode => .illegalOpcode
  | .reservedField => .reservedField

/-- The engine performs the command word w: decode, then the command's rule, or completion with the decoding error (R280,
R244, R245). -/
def runWord (w : Word) (s : State) : Result :=
  match decode w with
  | .ok i => exec i s
  | .error e => .next (s.complete (decodeErrorCode e) w)

/-- A turn of the engine: the command in PCMD; with PCMD empty the engine has no step (R280). -/
def engineTurn (s : State) : Result :=
  match s.pcmd with
  | some w => runWord w s
  | none => .next s

/-- Who moves next: the head of `turns`; where none is scheduled, the engine if a command is pending, else the host.
DESIGN CHOICE (log entry 5, unsafe): `turns` is finite, so from its end on every pending command is performed at once. R78
and R281 also allow endless orders in which the engine comes late for ever (CMD, a read of STATUS, the engine's step, and so
on); no value of `turns` gives one whole, though each finite beginning of one is the run of some `turns`. -/
def nextTurn (s : State) : Turn :=
  match s.turns with
  | t :: _ => t
  | [] => if s.pcmd.isSome then .engine else .host

/-- The state with the scheduled turn used up. -/
def State.popTurn (s : State) : State := { s with turns := s.turns.tail }

/-- One turn (R10, R78, R270). -/
def takeTurn (t : Turn) (s : State) : Result :=
  match t with
  | .host => hostTurn s
  | .engine => engineTurn s
  | .reset => .next s.resetBlock

/-- The command word w accepted (R70) and the engine scheduled to move next. -/
def State.offerCommand (w : Word) (s : State) : State :=
  { s.accept w with turns := .engine :: s.turns }

end Sys2Proof.Machine
end

