-- ==== Sys2Proof/Machine/Step.lean ====
section
/-! DEFINITION. One step of the whole machine: the next turn is taken (10_state.md R22, 20_memory.md R78), and the placement of
one command word for the next step. -/

namespace Sys2Proof.Machine

/-- One step: the agent whose turn it is moves. -/
def step (s : State) : Host.Outcome State Fault Refusal := takeTurn (nextTurn s) s.popTurn

/-- The state in which the very next step runs the command word w: w stands in PCMD as an acceptance puts it there (R70,
R27), and the engine moves next. The block fetches nothing (R21); log entry 8 says how a program comes to run. -/
def State.withFetchWord (s : State) (nbits w : Nat) : State := s.offerCommand (BitVec.ofNat 32 (w % 2 ^ nbits))

end Sys2Proof.Machine
end

