-- ==== Sys2Proof/Safety.lean ====
section
/-! DEFINITION. What counts as a good run, in the terms the statements use: the model fault set and the good end state (60_exceptions.md
R248, 70_reset_and_hazards.md R289), the canonical form of the stored data, the whole-state invariant of 10_state.md R53, and
the hypothesis a reader may put on the K44 parameters. -/

namespace Sys2Proof.Machine

/-- The model fault set of a run's outcome (R248): a faulted run takes no further step, so no step clears it, a reset included
(log entry 6). -/
def faultSet (r : Result) : List Fault :=
  match r with
  | .next _ => []
  | .fault f => [f]
  | .refused _ => []

/-- A good end state (R289): the host has halted, BUSY = 0 and the model fault set is empty. R289 says nothing of a run whose host halts
with BUSY = 1: here it is no good end yet, and becomes one once the pending command has completed, or a reset turn has abandoned it,
after HALT (DESIGN CHOICE, log entry 18). -/
def goodEnd (r : Result) : Bool :=
  match r with
  | .next s => s.host.halted && !s.busy && (faultSet r).isEmpty
  | .fault _ => false
  | .refused _ => false

/-- The canonical form of what the arrays hold: every written WSPEC entry is in [-256, 256] (R39), every written DDTR entry
and every BALW is at most 256 (R40, R41), and the host variables rise by name. (A byte array has one form only: its entries
are bytes or unwritten.) -/
def Memory.wf (s : State) : Bool :=
  s.wspec.toList.all (fun e => e.all fun v => decide (v.toInt.natAbs ≤ 256)) &&
  s.ddtr.toList.all (fun e => e.all fun v => decide (v.toNat ≤ 256)) &&
  s.balw.toList.all (fun v => decide (v.toNat ≤ 256)) &&
  varsRise s.host.vars

/-- The invariants of R53 (with R45), and what the command rules rest on in a reachable state: while a command is pending DONE, ERR
and ERRCODE are 0 (R70); a table whose validity flag is 1 is written in full (R43, R52). -/
structure Inv (s : State) : Prop where
  busy_iff_pending : s.busy = true ↔ s.pcmd.isSome = true
  err_iff_code : s.err = true ↔ s.errCode ≠ .noError
  busy_quiet : s.busy = true → s.done = false ∧ s.err = false
  matOk_rank : s.matOk = true → rankOf s.mrow = 8
  sbox_written : s.sboxValid = true → allWritten s.sbox = true
  sbox_bij : s.sboxBij = true → s.sboxValid = true ∧ bijective (entriesOf s.sbox) = true
  isbox_written : s.isboxValid = true → s.sboxValid = true ∧ s.sboxBij = true ∧ allWritten s.isbox = true
  isbox_inverse : s.isboxValid = true →
    ∀ x, Table.look (entriesOf s.isbox) (Table.look (entriesOf s.sbox) x) = x
  bal_checked : s.balOk = true → s.sboxValid = true
  key_fresh : s.keyReady = true → s.sboxValid = true ∧ s.rk = written (kexp s.key (entriesOf s.sbox))
  wspec_written : s.wspecValid = true → allWritten s.wspec = true
  ddtr_written : s.ddtrValid = true → allWritten s.ddtr = true
  errAddr_aligned : s.errAddr &&& 0x003 = 0
  stored_wf : Memory.wf s = true

/-- The one fact DOC0 states for K44 inside the block's scope (R140, D22): a hypothesis a claim about variant 1 may assume on the
two open parameters, never one the model derives. -/
def K44Regression : Prop := (nonlinearity (sboxOf Config.k44Mat Config.k44Const)).1 = 112

/-! ### How a command ends -/

/-- What the completion of the command word w with code k leaves in the command-status fields (R50, R280); s is the state the
command ran in. -/
structure Completed (k : ErrCode) (w : Word) (s t : State) : Prop where
  latch : t.pcmd = none
  busy : t.busy = false
  done : t.done = true
  code : t.errCode = k
  err : t.err = true ↔ k ≠ .noError
  sticky : t.esticky = true ↔ s.esticky = true ∨ k ≠ .noError
  info : t.errInfo = if k = .noError then s.errInfo else w

/-- The state e with the command-status fields of t: PCMD, BUSY, DONE, ERR, ERRCODE, ESTICKY, ERRINFO, those R245 names. -/
def State.withStatusOf (t e : State) : State :=
  { e with
    pcmd := t.pcmd
    busy := t.busy
    done := t.done
    err := t.err
    esticky := t.esticky
    errCode := t.errCode
    errInfo := t.errInfo }

/-- The command i run in s answers a next state: it ends with code k, and everything beside the command-status fields is as in
e. With e written as an update of s, this says a command's whole effect and its whole frame. -/
def CompletesWith (i : Instr) (s : State) (k : ErrCode) (e : State) : Prop :=
  ∃ t, exec i s = .next t ∧ Completed k (encode i) s t ∧ t = t.withStatusOf e

/-- The word w run in s is no command: it ends with code k and nothing beside the command-status fields changes (R97, R245). -/
def WordEndsWith (w : Word) (s : State) (k : ErrCode) : Prop :=
  ∃ t, runWord w s = .next t ∧ Completed k w s t ∧ t = t.withStatusOf s

/-- The validity flags R242 lists as needed by a command (code 4). -/
def flagsReady (i : Instr) (s : State) : Bool :=
  match i with
  | .wht _ => s.sboxValid
  | .nl => s.sboxValid
  | .lap => s.sboxValid
  | .ddtrow _ => s.sboxValid
  | .du => s.sboxValid
  | .kexp => s.sboxValid
  | .enc => s.sboxValid && s.keyReady
  | .dec => s.isboxValid && s.keyReady
  | .subb => s.sboxValid
  | .isubb => s.isboxValid
  | .ark _ => s.keyReady
  | .nop => true
  | .gfmul _ _ => true
  | .gfinv _ => true
  | .affine _ => true
  | .msel _ => true
  | .mrank => true
  | .sbuild => true
  | .sverify => true
  | .shr => true
  | .ishr => true
  | .mixc => true
  | .imixc => true

/-- The code R242 gives a well-encoded command, the checks in the order of R244. -/
def expectedCode (i : Instr) (s : State) : ErrCode :=
  if WellFormed i = false then .badOperand
  else if flagsReady i s = false then .notReady
  else if i = .sbuild ∧ s.matOk = false then .nonInvertibleMatrix
  else if i = .sverify ∧ bijective (entriesOf s.sbox) = false then .nonBijectiveSbox
  else .noError

/-- The unassigned opcodes, range by range as R96 lists them. -/
def unassignedOpcode (o : Nat) : Bool :=
  decide ((0x04 ≤ o ∧ o ≤ 0x0F) ∨ (0x14 ≤ o ∧ o ≤ 0x1F) ∨ (0x25 ≤ o ∧ o ≤ 0x2F) ∨ (0x3A ≤ o ∧ o ≤ 0x3F) ∨
    (0x40 ≤ o ∧ o ≤ 0xFF))

/-- The opcodes whose row of R95 lists OPA. -/
def listsOpa (o : Nat) : Bool :=
  decide (o = 0x01 ∨ o = 0x02 ∨ o = 0x03 ∨ o = 0x10 ∨ o = 0x20 ∨ o = 0x23 ∨ o = 0x39)

/-- A word that breaks R92: RSV is not 0, or an operand field its row does not list is not 0. -/
def breaksReserved (w : Word) : Bool :=
  decide (rsvField w ≠ 0 ∨ (listsOpa (opcField w).toNat = false ∧ opaField w ≠ 0) ∨
    ((opcField w).toNat ≠ 0x01 ∧ opbField w ≠ 0))

/-! ### Runs -/

/-- The steps of a run, at most n of them: it ends early at a fault or a refusal. -/
def runFor (n : Nat) (s : State) : Result :=
  match n with
  | 0 => .next s
  | n + 1 =>
    match step s with
    | .next t => runFor n t
    | .fault f => .fault f
    | .refused r => .refused r

/-- Commands run one after the other, each accepted (R70) and then performed. -/
def runCommands (is : List Instr) (s : State) : Result :=
  match is with
  | [] => .next s
  | i :: is =>
    match exec i (s.accept (encode i)) with
    | .next t => runCommands is t
    | .fault f => .fault f
    | .refused r => .refused r

end Sys2Proof.Machine
end

