-- ==== Sys2Proof/Certificates/Slice0/Obligations.lean ====
section
/-! DEFINITION. The statements for the provers: what the numbered rules of spec/ say the machine does. `CompletesWith i s k e`
says that exec answers a next state, with which code, and that everything beside the command-status fields is as in
e; e is written as an update of s, so each such statement says the command's frame too. -/

open Sys2Proof Sys2Proof.Machine

/-! ### Encoding -/

/-- R90, R95: the word of a command decodes to that command, whatever its operands, and the opcode table's number of that word
does too. -/
def Obligations.EncodedCommandDecodesToItself : Prop :=
  ∀ i : Instr, decode (encode i) = .ok i ∧ decodeTableWord 32 (encode i).toNat = some i

/-- R90, R93: a command has exactly one word, which lists OPC, OPB, OPA and a zero RSV from the top. -/
def Obligations.DecodedWordIsItsEncoding : Prop :=
  ∀ (w : Word) (i : Instr), decode w = .ok i →
    encode i = w ∧ opcField w = i.opcode ∧ opbField w = i.opb ∧ opaField w = i.opa ∧ rsvField w = 0

/-- R94: decoding agrees with the match and mask rows of the opcode table, and no word fits two rows. -/
def Obligations.DecodeFollowsTheOpcodeTable : Prop :=
  (∀ (w : Word) (i : Instr), decode w = .ok i →
    ∃ r ∈ opcodeRows, r.fits w = true ∧ r.mnemonic = i.mnemonic) ∧
  (∀ (w : Word), ∀ r ∈ opcodeRows, r.fits w = true → ∃ i, decode w = .ok i ∧ i.mnemonic = r.mnemonic) ∧
  (∀ (w : Word), ∀ r ∈ opcodeRows, ∀ q ∈ opcodeRows, r.fits w = true → q.fits w = true → r = q)

/-- R92, R96, R97: which words are no commands, and how each ends when the engine performs it. -/
def Obligations.WordsThatAreNoCommandsEndWithTheirCode : Prop :=
  ∀ (w : Word) (s : State),
    (unassignedOpcode (opcField w).toNat = true → WordEndsWith w s .illegalOpcode) ∧
    (unassignedOpcode (opcField w).toNat = false → breaksReserved w = true → WordEndsWith w s .reservedField) ∧
    (unassignedOpcode (opcField w).toNat = false → breaksReserved w = false → ∃ i, decode w = .ok i ∧ runWord w s = exec i s)

/-- R95, R100: a few words written out from the opcode map. -/
def Obligations.SampleWordsDecode : Prop :=
  decode 0x01835700 = .ok (.gfmul 0x57 0x83) ∧ decode 0x02005300 = .ok (.gfinv 0x53) ∧
  decode 0x39000A00 = .ok (.ark 10) ∧ decode 0x00000000 = .ok .nop ∧ decode 0x10000100 = .ok (.msel 1) ∧
  decode 0x20000100 = .ok (.wht 1) ∧ decode 0x31000000 = .ok .enc ∧ decode 0x04000000 = .error .illegalOpcode ∧
  decode 0x31000100 = .error .reservedField

/-! ### The step -/

/-- R280, R97: when the engine moves and PCMD holds w, the step is the performance of w, in the state with that turn used up: exec of
the command w decodes to, or the completion of a word that is no command. A word placed by `withFetchWord` (the model's choice, log
entry 8) is performed by the very next step as an accepted command. Which turn it is, that the turn is used up, and that an engine
turn with PCMD empty changes nothing else are the model's schedule (log entry 5). -/
def Obligations.StepRunsTheDecodedCommand : Prop :=
  (∀ (s : State) (w : Word), nextTurn s = .engine → s.pcmd = some w → step s = runWord w s.popTurn) ∧
  (∀ (s : State) (w : Word) (i : Instr), nextTurn s = .engine → s.pcmd = some w → decode w = .ok i →
    step s = exec i s.popTurn) ∧
  (∀ (s : State) (w : Word) (e : DecodeError), nextTurn s = .engine → s.pcmd = some w → decode w = .error e →
    ∃ t, step s = .next t ∧ t = t.withStatusOf s.popTurn ∧
      Completed (match e with | .illegalOpcode => .illegalOpcode | .reservedField => .reservedField) w s.popTurn t) ∧
  (∀ (s : State) (w : Word), step (s.withFetchWord 32 w.toNat) = runWord w (s.accept w)) ∧
  (∀ (s : State) (w : Word) (i : Instr), decode w = .ok i → step (s.withFetchWord 32 w.toNat) = exec i (s.accept w)) ∧
  (∀ (s : State), nextTurn s = .engine → s.pcmd = none → step s = .next s.popTurn)

/-- R101 under the model's choices (log entries 4, 5 and 9): a turn of the host is the next line of its program; a read takes the next
free draw (log entry 4); a host that has halted, or has no further line, changes nothing but the schedule (log entries 5, 9). -/
def Obligations.HostTurnRunsTheNextLine : Prop :=
  (∀ s : State, nextTurn s = .host → s.host.halted = true ∨ s.host.prog[s.host.pos]? = none →
    step s = .next s.popTurn) ∧
  ∀ (s : State) (line : HostLine), nextTurn s = .host → s.host.halted = false →
    s.host.prog[s.host.pos]? = some line →
    match line with
    | .write off v => step s = .next (hostWrite off v s.popTurn).nextLine
    | .read off n =>
      step s = .next (({ s.popTurn with draws := s.draws + 1 }.setHostVar n
        (readWord off (Config.freeWord s.draws) s)).nextLine)
    | .cmd i => step s = .next (hostWrite 0x00C (encode i) s.popTurn).nextLine
    | .label _ => step s = .next s.popTurn.nextLine
    | .bnz n mask l =>
      (getVar s.host.vars n &&& mask = 0 → step s = .next s.popTurn.nextLine) ∧
      (∀ p, getVar s.host.vars n &&& mask ≠ 0 → findLabel s.host.prog l = some p →
        step s = .next { s.popTurn with host := { s.host with pos := p } }) ∧
      (getVar s.host.vars n &&& mask ≠ 0 → findLabel s.host.prog l = none → step s = .refused (.undefinedLabel l))
    | .halt => step s = .next { s.popTurn with host := { s.host with halted := true } }

/-- R240, R242, R244 in every state of the invariant: every command completes, with the code of the table; only SVERIFY on an
incomplete S-box is left out, which R149 makes a model fault. -/
def Obligations.EveryCommandCompletesWithItsCode : Prop :=
  ∀ (i : Instr) (s : State), Inv s → (i = .sverify → allWritten s.sbox = true) →
    ∃ t, exec i s = .next t ∧ Completed (expectedCode i s) (encode i) s t

/-- R241, R244 in every state: an operand out of range, then a missing flag, then a matrix not checked, each ends the command with
its code and changes nothing beside the command-status fields. -/
def Obligations.FailedChecksEndWithTheirCode : Prop :=
  ∀ (i : Instr) (s : State),
    (WellFormed i = false → CompletesWith i s .badOperand s) ∧
    (WellFormed i = true → flagsReady i s = false → CompletesWith i s .notReady s) ∧
    (s.matOk = false → CompletesWith .sbuild s .nonInvertibleMatrix s)

/-- R245: a command that ends with a code 1 to 5 changes nothing but the command-status fields; one that ends with code 6 keeps
every write of its table check. -/
def Obligations.ErrorsChangeOnlyWhatTheRuleSays : Prop :=
  (∀ (w : Word) (s t : State), runWord w s = .next t → t.errCode ≠ .noError → t.errCode ≠ .nonBijectiveSbox →
    t = t.withStatusOf s) ∧
  (∀ (i : Instr) (s t : State), exec i s = .next t → t.errCode = .nonBijectiveSbox →
    (i = .sverify ∧ allWritten s.sbox = true ∧
      t = t.withStatusOf ({ s with sboxValid := true }.checkTable (entriesOf s.sbox))) ∨
    (i = .sbuild ∧ s.matOk = true ∧
      t = t.withStatusOf
        ({ s with sbox := written (sboxOf s.mrow s.const), sboxValid := true, keyReady := false }.checkTable
          (sboxOf s.mrow s.const))))

/-- R72 ("no command writes them"), R23: no command writes KEY, IRQEN, BALTOL, ERRADDR or BUSYVIOL, and MSEL alone writes the
matrix and the constant; the host agent, the schedule and the draws are no command's either. -/
def Obligations.CommandsLeaveTheHostsRegistersAlone : Prop :=
  ∀ (i : Instr) (s t : State), exec i s = .next t →
    t.key = s.key ∧ t.doneIe = s.doneIe ∧ t.errIe = s.errIe ∧ t.balTol = s.balTol ∧ t.errAddr = s.errAddr ∧
    t.busyViol = s.busyViol ∧ t.host = s.host ∧ t.turns = s.turns ∧ t.draws = s.draws ∧
    ((∀ v, i ≠ .msel v) → t.mrow = s.mrow ∧ t.const = s.const)

/-- R28, R36 to R41, R43 to R49, R99: which commands write each array, each validity flag and the results. -/
def Obligations.ArraysFlagsAndResultsHaveTheirWriters : Prop :=
  ∀ (i : Instr) (s t : State), exec i s = .next t →
    (i ≠ .sbuild → t.sbox = s.sbox) ∧
    (i ≠ .sbuild → i ≠ .sverify → t.isbox = s.isbox ∧ t.balw = s.balw ∧ t.sboxValid = s.sboxValid ∧
      t.sboxBij = s.sboxBij ∧ t.isboxValid = s.isboxValid ∧ t.balOk = s.balOk) ∧
    (i ≠ .kexp → t.rk = s.rk) ∧ (i ≠ .kexp → i ≠ .sbuild → t.keyReady = s.keyReady) ∧
    ((∀ b, i ≠ .wht b) → i ≠ .nl → i ≠ .lap → t.wspec = s.wspec ∧ t.wspecValid = s.wspecValid) ∧
    ((∀ dx, i ≠ .ddtrow dx) → i ≠ .du → t.ddtr = s.ddtr ∧ t.ddtrValid = s.ddtrValid) ∧
    ((∀ v, i ≠ .msel v) → i ≠ .mrank → t.matOk = s.matOk) ∧
    (i ∉ [.enc, .dec, .subb, .isubb, .shr, .ishr, .mixc, .imixc] → (∀ r, i ≠ .ark r) → t.blk = s.blk) ∧
    ((i ∈ [.nop, .kexp, .enc, .dec, .subb, .isubb, .shr, .ishr, .mixc, .imixc] ∨ (∃ v, i = .msel v) ∨
      ∃ r, i = .ark r) → t.result0 = s.result0 ∧ t.result1 = s.result1)

/-! ### Reset and the invariant -/

/-- The state after reset meets the invariant. -/
def Obligations.ResetMeetsTheInvariant : Prop := Inv State.reset

/-- R53, R45: every step of the machine, whoever moves, keeps the invariant. It also holds the model's own form of the host
variables (log entry 9) over the model's own schedule (log entry 5). -/
def Obligations.EveryStepKeepsTheInvariant : Prop :=
  ∀ s t : State, Inv s → step s = .next t → Inv t

/-- R271: what reset leaves, read through the window, and what it leaves inside. -/
def Obligations.ResetLeavesTheStatedValues : Prop :=
  (∀ (off : Offset) (draw : Word), off.toNat < 4 → readWord off draw State.reset = 0x53425831) ∧
  (∀ (off : Offset) (draw : Word), 4 ≤ off.toNat → off.toNat < 0x400 → readWord off draw State.reset = 0) ∧
  State.reset.pcmd = none ∧ irq State.reset = false ∧
  (∀ i : Fin 256, State.reset.sbox[i] = none ∧ State.reset.isbox[i] = none ∧ State.reset.wspec[i] = none ∧
    State.reset.ddtr[i] = none) ∧
  (∀ i : Fin 176, State.reset.rk[i] = none)

/-- R270: the two reset events have the same effect, at any moment: every piece of block state takes its reset value.
That the power-on reset comes as a turn named reset of the schedule, which that turn uses up, is the model's choice (log entry 5), and
so is that a reset leaves the host agent, the schedule and the draws (log entry 13). -/
def Obligations.BothResetsRestoreTheResetState : Prop :=
  (∀ (s : State) (v : Word), v.getLsbD 0 = true →
    hostWrite 0x004 v s = { State.reset with host := s.host, turns := s.turns, draws := s.draws }) ∧
  (∀ (s : State) (ts : List Turn), s.turns = .reset :: ts →
    step s = .next { State.reset with host := s.host, turns := ts, draws := s.draws }) ∧
  (∀ (s : State) (draw : Word), readWord 0x000 draw s = 0x53425831)

/-- R25: each CTRL field acts only when written as 1, busy or not; the reserved bits do nothing; CTRL reads 0. -/
def Obligations.ControlFieldsAct : Prop :=
  ∀ (s : State) (v draw : Word),
    (v.getLsbD 0 = true →
      hostWrite 0x004 v s = { State.reset with host := s.host, turns := s.turns, draws := s.draws }) ∧
    (v.getLsbD 0 = false →
      hostWrite 0x004 v s =
        { s with
          done := s.done && !v.getLsbD 1
          esticky := s.esticky && !v.getLsbD 2
          busyViol := s.busyViol && !v.getLsbD 2 }) ∧
    readWord 0x004 draw s = 0

/-! ### The host window -/

/-- R30 to R35, R61, R63: a register or S-box word written while idle reads back, in the bits the register has. -/
def Obligations.WrittenWordsReadBack : Prop :=
  ∀ (s : State) (off : Offset) (v draw : Word), s.busy = false →
    ((0x030 ≤ off.toNat ∧ off.toNat < 0x038) ∨ (0x040 ≤ off.toNat ∧ off.toNat < 0x060) ∨
      (0x400 ≤ off.toNat ∧ off.toNat < 0x500) → readWord off draw (hostWrite off v s) = v) ∧
    (0x024 ≤ off.toNat ∧ off.toNat < 0x02C → readWord off draw (hostWrite off v s) = v &&& 0x000000FF) ∧
    (0x020 ≤ off.toNat ∧ off.toNat < 0x024 → readWord off draw (hostWrite off v s) = v &&& 0x00000003)

/-- R61: a write while idle, CTRL and CMD apart, leaves every other word of the window but STATUS reading as before. -/
def Obligations.WritesLeaveOtherWordsAlone : Prop :=
  ∀ (s : State) (off other : Offset) (v draw : Word), s.busy = false →
    off &&& 0xFFC ≠ 0x004 → off &&& 0xFFC ≠ 0x00C → other &&& 0xFFC ≠ off &&& 0xFFC → other &&& 0xFFC ≠ 0x008 →
    readWord other draw (hostWrite off v s) = readWord other draw s

/-- R30 to R35, R42, R47: what a write to an operand register or IRQEN stores, and which flag alone it clears. -/
def Obligations.OperandWritesStoreAndClear : Prop :=
  ∀ (s : State) (v : Word), s.busy = false →
    (∀ k : Fin 2, ∃ rows : Vector Byte 8,
      (∀ j : Fin 8, rows[j] = if j.val / 4 = k.val then v.extractLsb' (8 * (j.val % 4)) 8 else s.mrow[j]) ∧
      hostWrite (BitVec.ofNat 12 (0x030 + 4 * k.val)) v s = { s with mrow := rows, matOk := false }) ∧
    (∀ k : Fin 4, ∃ key : Vector Byte 16,
      (∀ j : Fin 16, key[j] = if j.val / 4 = k.val then v.extractLsb' (8 * (j.val % 4)) 8 else s.key[j]) ∧
      hostWrite (BitVec.ofNat 12 (0x040 + 4 * k.val)) v s = { s with key := key, keyReady := false }) ∧
    (∀ k : Fin 4, ∃ blk : Vector Byte 16,
      (∀ j : Fin 16, blk[j] = if j.val / 4 = k.val then v.extractLsb' (8 * (j.val % 4)) 8 else s.blk[j]) ∧
      hostWrite (BitVec.ofNat 12 (0x050 + 4 * k.val)) v s = { s with blk := blk }) ∧
    hostWrite 0x028 v s = { s with const := v.extractLsb' 0 8 } ∧
    hostWrite 0x024 v s = { s with balTol := v.extractLsb' 0 8 } ∧
    hostWrite 0x020 v s = { s with doneIe := v.getLsbD 0, errIe := v.getLsbD 1 }

/-- R67: a write to S-box window word k while idle. -/
def Obligations.SboxWindowWrite : Prop :=
  ∀ (s : State) (k : Fin 64) (v : Word), s.busy = false →
    ∃ table : Vector (Option Byte) 256,
      (∀ j : Fin 256, table[j] =
        if j.val / 4 = k.val then some (v.extractLsb' (8 * (j.val % 4)) 8) else s.sbox[j]) ∧
      hostWrite (BitVec.ofNat 12 (0x400 + 4 * k.val)) v s =
        { s with
          sbox := table
          sboxValid := false
          sboxBij := false
          isboxValid := false
          balOk := false
          keyReady := false }

/-- R71: a write refused while busy leaves its target unchanged and records itself; CTRL and IRQEN act normally. -/
def Obligations.BusyWritesAreRefused : Prop :=
  ∀ (s : State) (off : Offset) (v : Word), s.busy = true →
    ((0x00C ≤ off.toNat ∧ off.toNat < 0x010) ∨ (0x024 ≤ off.toNat ∧ off.toNat < 0x02C) ∨
      (0x030 ≤ off.toNat ∧ off.toNat < 0x038) ∨ (0x040 ≤ off.toNat ∧ off.toNat < 0x060) ∨
      (0x400 ≤ off.toNat ∧ off.toNat < 0x500) →
      hostWrite off v s = { s with busyViol := true, esticky := true, errAddr := off &&& 0xFFC }) ∧
    (0x020 ≤ off.toNat ∧ off.toNat < 0x024 →
      hostWrite off v s = { s with doneIe := v.getLsbD 0, errIe := v.getLsbD 1 }) ∧
    (0x004 ≤ off.toNat ∧ off.toNat < 0x008 → v.getLsbD 0 = false →
      hostWrite off v s =
        { s with
          done := s.done && !v.getLsbD 1
          esticky := s.esticky && !v.getLsbD 2
          busyViol := s.busyViol && !v.getLsbD 2 }) ∧
    (0x004 ≤ off.toNat ∧ off.toNat < 0x008 → v.getLsbD 0 = true →
      hostWrite off v s = { State.reset with host := s.host, turns := s.turns, draws := s.draws })

/-- R66, R69: a write to a read-only or reserved offset changes nothing, busy or not, and a reserved offset reads 0. -/
def Obligations.ReadOnlyAndReservedWritesAreIgnored : Prop :=
  ∀ (s : State) (off : Offset) (v draw : Word),
    (off.toNat < 0x004 ∨ (0x008 ≤ off.toNat ∧ off.toNat < 0x00C) ∨ (0x010 ≤ off.toNat ∧ off.toNat < 0x020) ∨
      (0x060 ≤ off.toNat ∧ off.toNat < 0x080) ∨ (0x500 ≤ off.toNat ∧ off.toNat < 0x6B0) ∨ 0x800 ≤ off.toNat →
      hostWrite off v s = s) ∧
    ((0x02C ≤ off.toNat ∧ off.toNat < 0x030) ∨ (0x038 ≤ off.toNat ∧ off.toNat < 0x040) ∨
      (0x080 ≤ off.toNat ∧ off.toNat < 0x400) ∨ (0x6B0 ≤ off.toNat ∧ off.toNat < 0x800) →
      hostWrite off v s = s ∧ readWord off draw s = 0)

/-- R62: bits 1:0 of an offset are ignored; an access acts on the word at the offset AND 0xFFC. -/
def Obligations.AddressLowBitsAreIgnored : Prop :=
  ∀ (s : State) (off : Offset) (v : Word),
    hostWrite off v s = hostWrite (off &&& 0xFFC) v s ∧ hostRead off s = hostRead (off &&& 0xFFC) s

/-- R72, R25, R27, R66: what every word of the window reads while busy: the registers no command writes read their values, CTRL, CMD and
the reserved words 0, STATUS its reliable bits with the draw in bits 8 to 15, and the results, ERRINFO, the matrix, BLK, CONST, BALW and
the windows the draw, in the bits the register has. That the draw is one word for all the lanes of a read is log entry 4. -/
def Obligations.ReadsWhileBusy : Prop :=
  ∀ (s : State) (draw : Word), s.busy = true →
    readWord 0x000 draw s = 0x53425831 ∧
    readWord 0x020 draw s = flagBit s.doneIe 0 ||| flagBit s.errIe 1 ∧
    readWord 0x024 draw s = s.balTol.setWidth 32 ∧
    readWord 0x01C draw s = s.errAddr.setWidth 32 ∧
    (∀ (k m : Fin 4), (readWord (BitVec.ofNat 12 (0x040 + 4 * k.val)) draw s).extractLsb' (8 * m.val) 8 =
      s.key[4 * k.val + m.val]) ∧
    (∀ n : Nat, (readWord 0x008 draw s).getLsbD n =
      ((decide (n = 0)) || (decide (n = 3) && s.esticky) || (decide (n = 16) && s.busyViol) ||
        (decide (8 ≤ n ∧ n ≤ 15) && draw.getLsbD n))) ∧
    (∀ off : Offset, (0x010 ≤ off.toNat ∧ off.toNat < 0x01C) ∨ (0x030 ≤ off.toNat ∧ off.toNat < 0x038) ∨
      (0x050 ≤ off.toNat ∧ off.toNat < 0x060) ∨ (0x400 ≤ off.toNat ∧ off.toNat < 0x6B0) ∨ 0x800 ≤ off.toNat →
      readWord off draw s = draw) ∧
    readWord 0x028 draw s = draw &&& 0x000000FF ∧
    (∀ k : Fin 8, readWord (BitVec.ofNat 12 (0x060 + 4 * k.val)) draw s = draw &&& 0x000001FF) ∧
    (∀ off : Offset, (0x004 ≤ off.toNat ∧ off.toNat < 0x008) ∨ (0x00C ≤ off.toNat ∧ off.toNat < 0x010) ∨
      (0x02C ≤ off.toNat ∧ off.toNat < 0x030) ∨ (0x038 ≤ off.toNat ∧ off.toNat < 0x040) ∨
      (0x080 ≤ off.toNat ∧ off.toNat < 0x400) ∨ (0x6B0 ≤ off.toNat ∧ off.toNat < 0x800) →
      readWord off draw s = 0)

/-- R64, R65, R68: what the windows read while idle: the written entries they hold, and for an unwritten entry the draw in its
place (its byte lane, its low 10 bits sign-extended, its low 9 bits: log entry 4); the read sets no mark. -/
def Obligations.WindowsReadTheirEntries : Prop :=
  ∀ (s : State) (draw : Word), s.busy = false →
    (∀ (k : Fin 64) (m : Fin 4),
      (readWord (BitVec.ofNat 12 (0x400 + 4 * k.val)) draw s).extractLsb' (8 * m.val) 8 =
        (s.sbox[4 * k.val + m.val]).getD (draw.extractLsb' (8 * m.val) 8) ∧
      (readWord (BitVec.ofNat 12 (0x500 + 4 * k.val)) draw s).extractLsb' (8 * m.val) 8 =
        (s.isbox[4 * k.val + m.val]).getD (draw.extractLsb' (8 * m.val) 8)) ∧
    (∀ (k : Fin 44) (m : Fin 4),
      (readWord (BitVec.ofNat 12 (0x600 + 4 * k.val)) draw s).extractLsb' (8 * m.val) 8 =
        (s.rk[4 * k.val + m.val]).getD (draw.extractLsb' (8 * m.val) 8)) ∧
    (∀ a : Fin 256,
      readWord (BitVec.ofNat 12 (0x800 + 4 * a.val)) draw s =
        ((s.wspec[a]).getD (draw.extractLsb' 0 10)).signExtend 32 ∧
      readWord (BitVec.ofNat 12 (0xC00 + 4 * a.val)) draw s = ((s.ddtr[a]).getD (draw.extractLsb' 0 9)).setWidth 32) ∧
    (∀ off : Offset, (hostRead off s).2.sbox = s.sbox ∧ (hostRead off s).2.isbox = s.isbox ∧
      (hostRead off s).2.rk = s.rk ∧ (hostRead off s).2.wspec = s.wspec ∧ (hostRead off s).2.ddtr = s.ddtr)

/-- R26, R42 to R49: the STATUS word while idle, bit by bit. -/
def Obligations.StatusWordHoldsTheFlags : Prop :=
  ∀ (s : State) (draw : Word), s.busy = false → ∃ v : Word, readWord 0x008 draw s = v ∧
    v.getLsbD 0 = false ∧ v.getLsbD 1 = s.done ∧ v.getLsbD 2 = s.err ∧ v.getLsbD 3 = s.esticky ∧
    v.extractLsb' 4 4 = s.errCode.number ∧ v.getLsbD 8 = s.matOk ∧ v.getLsbD 9 = s.sboxValid ∧
    v.getLsbD 10 = s.sboxBij ∧ v.getLsbD 11 = s.isboxValid ∧ v.getLsbD 12 = s.balOk ∧ v.getLsbD 13 = s.keyReady ∧
    v.getLsbD 14 = s.wspecValid ∧ v.getLsbD 15 = s.ddtrValid ∧ v.getLsbD 16 = s.busyViol ∧ v.extractLsb' 17 15 = 0

/-- R23, R28 to R35, R41, R63: what the registers read while idle, each its own field; ERRADDR reads its value, zero-extended, busy or
not. -/
def Obligations.RegistersReadTheirFields : Prop :=
  ∀ (s : State) (draw : Word),
    readWord 0x01C draw s = s.errAddr.setWidth 32 ∧
    (s.busy = false →
      readWord 0x010 draw s = s.result0 ∧ readWord 0x014 draw s = s.result1 ∧ readWord 0x018 draw s = s.errInfo ∧
      readWord 0x020 draw s = flagBit s.doneIe 0 ||| flagBit s.errIe 1 ∧
      readWord 0x024 draw s = s.balTol.setWidth 32 ∧ readWord 0x028 draw s = s.const.setWidth 32 ∧
      (∀ (k : Fin 2) (m : Fin 4), (readWord (BitVec.ofNat 12 (0x030 + 4 * k.val)) draw s).extractLsb' (8 * m.val) 8 =
        s.mrow[4 * k.val + m.val]) ∧
      (∀ k m : Fin 4,
        (readWord (BitVec.ofNat 12 (0x040 + 4 * k.val)) draw s).extractLsb' (8 * m.val) 8 = s.key[4 * k.val + m.val] ∧
        (readWord (BitVec.ofNat 12 (0x050 + 4 * k.val)) draw s).extractLsb' (8 * m.val) 8 = s.blk[4 * k.val + m.val]) ∧
      ∀ k : Fin 8, readWord (BitVec.ofNat 12 (0x060 + 4 * k.val)) draw s = (s.balw[k]).setWidth 32)

/-- R73: a read changes no block state, so that every offset reads after it as before, though it uses up one free draw (log entry 4);
a write to a word other than CMD and CTRL done twice is the write done once. -/
def Obligations.ReadsChangeNothingAndWritesRepeat : Prop :=
  (∀ (s : State) (off other : Offset) (draw : Word),
    (hostRead off s).2 = { s with draws := s.draws + 1 } ∧
    readWord other draw (hostRead off s).2 = readWord other draw s) ∧
  (∀ (s : State) (off : Offset) (v : Word), off &&& 0xFFC ≠ 0x00C → off &&& 0xFFC ≠ 0x004 →
    hostWrite off v (hostWrite off v s) = hostWrite off v s)

/-- R70, R27: a write to CMD while idle accepts the word, whatever it is; CMD reads 0 in every state. -/
def Obligations.AcceptanceOfACommand : Prop :=
  (∀ (s : State) (v : Word), s.busy = false →
    hostWrite 0x00C v s =
      { s with pcmd := some v, busy := true, done := false, err := false, errCode := .noError }) ∧
  (∀ (s : State) (draw : Word), readWord 0x00C draw s = 0)

/-- R250: the interrupt line, 0 after reset; a completion with an error raises both its sources, a busy violation only the
ESTICKY source. -/
def Obligations.InterruptLine : Prop :=
  (∀ s : State, irq s = true ↔ (s.doneIe = true ∧ s.done = true) ∨ (s.errIe = true ∧ s.esticky = true)) ∧
  irq State.reset = false ∧
  (∀ (i : Instr) (s t : State), exec i s = .next t → t.errCode ≠ .noError → t.done = true ∧ t.esticky = true) ∧
  (∀ (s : State) (off : Offset), (s.refuseWrite off).esticky = true ∧ (s.refuseWrite off).done = s.done)

/-- R247: acceptance clears ERR and ERRCODE alone of the error state, CTRL.CLR_ERR the two sticky flags, CTRL.CLR_DONE DONE; ESTICKY
outlives every command, and a later error overwrites ERRCODE and ERRINFO. -/
def Obligations.ErrorsStayUntilCleared : Prop :=
  (∀ (s : State) (v : Word), s.busy = false →
    (hostWrite 0x00C v s).err = false ∧ (hostWrite 0x00C v s).errCode = .noError ∧
    (hostWrite 0x00C v s).esticky = s.esticky ∧ (hostWrite 0x00C v s).busyViol = s.busyViol ∧
    (hostWrite 0x00C v s).errInfo = s.errInfo ∧ (hostWrite 0x00C v s).errAddr = s.errAddr) ∧
  (∀ s : State, hostWrite 0x004 4 s = { s with esticky := false, busyViol := false } ∧
    hostWrite 0x004 2 s = { s with done := false }) ∧
  (∀ (w : Word) (s t : State), runWord w s = .next t →
    t.pcmd = none ∧ t.busy = false ∧ (s.esticky = true → t.esticky = true) ∧
    (t.errCode ≠ .noError → t.errInfo = w ∧ t.esticky = true) ∧ (t.errCode = .noError → t.errInfo = s.errInfo))

/-- R281 under the model's schedule (log entry 5): a pending command is no longer pending after at most one step more than there are
scheduled turns; only a fault or a refusal ends the run before. -/
def Obligations.PendingCommandLeavesTheLatch : Prop :=
  ∀ (s : State) (w : Word), s.pcmd = some w →
    ∃ n ≤ s.turns.length + 1,
      (∃ t, runFor n s = .next t ∧ t.pcmd = none) ∨ (∃ f, runFor n s = .fault f) ∨ ∃ r, runFor n s = .refused r

/-! ### GF(2^8) arithmetic -/

/-- R124: NOP completes and does nothing else. -/
def Obligations.NopOnlyCompletes : Prop := ∀ s : State, CompletesWith .nop s .noError s

/-- R120: GFMUL gives the product of its operands' polynomials over GF(2) modulo x^8 + x^4 + x^3 + x + 1, bit i being the
coefficient of x^i. -/
def Obligations.GfmulIsTheProductOfPolynomials : Prop :=
  let poly : Byte → Polynomial (ZMod 2) := fun v =>
    ∑ i ∈ Finset.range 8, if v.getLsbD i then Polynomial.X ^ i else 0
  let modulus : Polynomial (ZMod 2) := Polynomial.X ^ 8 + Polynomial.X ^ 4 + Polynomial.X ^ 3 + Polynomial.X + 1
  ∀ (a b : Byte) (s : State), ∃ p : Byte,
    modulus ∣ poly a * poly b - poly p ∧
    CompletesWith (.gfmul a b) s .noError { s with result0 := p.setWidth 32, result1 := 0 }

/-- R121: GFINV gives 0 for 0, else the unique byte whose product with its operand is 1, which is the operand to the power 254. -/
def Obligations.GfinvIsTheInverse : Prop :=
  ∀ (a : Byte) (s : State), ∃ b : Byte,
    (a = 0 → b = 0) ∧ (a ≠ 0 → ∀ c : Byte, gfmul a c = 1 ↔ c = b) ∧
    (a ≠ 0 → (fun r => gfmul r a)^[254] 1 = b) ∧
    CompletesWith (.gfinv a) s .noError { s with result0 := b.setWidth 32, result1 := 0 }

/-- R123: the laws of the field functions. -/
def Obligations.FieldLaws : Prop :=
  (∀ a b : Byte, gfmul a b = gfmul b a) ∧ (∀ a b c : Byte, gfmul (gfmul a b) c = gfmul a (gfmul b c)) ∧
  (∀ a b c : Byte, gfmul a (b ^^^ c) = gfmul a b ^^^ gfmul a c) ∧
  (∀ a : Byte, gfmul a 1 = a ∧ gfmul a 0 = 0 ∧ gfmul a 2 = (a <<< 1) ^^^ (if a.getLsbD 7 then 0x1B else 0)) ∧
  (∀ x : Byte, gfinv (gfinv x) = x) ∧ (∀ x : Byte, gfmul x (gfinv x) = if x = 0 then 0 else 1) ∧
  (∀ (m : Vector Byte 8) (y z : Byte), affine m 0 (y ^^^ z) = affine m 0 y ^^^ affine m 0 z) ∧
  (∀ (m : Vector Byte 8) (c : Byte), Function.Bijective (affine m c) ↔ rankOf m = 8)

/-- R122: output bit i of AFFINE is the exclusive or of the products of row i's bits with y's, and of bit i of the constant. -/
def Obligations.AffineMapsBitByBit : Prop :=
  ∀ (y : Byte) (s : State), ∃ o : Byte,
    (∀ i : Fin 8, o.getLsbD i.val =
      (decide (((List.range 8).countP fun j => (s.mrow[i]).getLsbD j && y.getLsbD j) % 2 = 1) ^^
        s.const.getLsbD i.val)) ∧
    CompletesWith (.affine y) s .noError { s with result0 := o.setWidth 32, result1 := 0 }

/-! ### Matrix and S-box -/

/-- R140, R141: MSEL loads a variant and clears MAT_OK; variant 0 is AES, variant 1 the two open parameters. -/
def Obligations.MselLoadsAVariant : Prop :=
  ∀ s : State,
    CompletesWith (.msel 0) s .noError
      { s with
        mrow := ⟨#[0xF1, 0xE3, 0xC7, 0x8F, 0x1F, 0x3E, 0x7C, 0xF8], rfl⟩
        const := 0x63
        matOk := false } ∧
    CompletesWith (.msel 1) s .noError
      { s with mrow := Config.k44Mat, const := Config.k44Const, matOk := false } ∧
    (∀ v : Byte, 2 ≤ v.toNat → CompletesWith (.msel v) s .badOperand s) ∧
    (∀ (t : State) (draw : Word), exec (.msel 0) s = .next t →
      readWord 0x030 draw t = 0x8FC7E3F1 ∧ readWord 0x034 draw t = 0xF87C3E1F ∧ readWord 0x028 draw t = 0x63)

/-- R142, R143: MRANK gives the rank r (the map y to M y has 2^(8-r) zeros), MAT_OK says r = 8, and RESULT1 is 0xFFFF at
rank 8, else twice the first column c that depends on the columns before it (a zero y of the map whose top bit is c, no
smaller one); nothing else changes. -/
def Obligations.MrankFindsTheRank : Prop :=
  ∀ s : State, ∃ (r : Nat) (report : Word),
    r ≤ 8 ∧ (allBytes.countP fun y => affine s.mrow 0 y == 0) = 2 ^ (8 - r) ∧
    (r = 8 → report = 0x0000FFFF) ∧
    (r < 8 → ∃ c : Fin 8, report = (BitVec.ofNat 32 c.val <<< 8) ||| BitVec.ofNat 32 c.val ∧
      (∃ y : Byte, affine s.mrow 0 y = 0 ∧ 2 ^ c.val ≤ y.toNat ∧ y.toNat < 2 ^ (c.val + 1)) ∧
      ∀ y : Byte, y ≠ 0 → affine s.mrow 0 y = 0 → 2 ^ c.val ≤ y.toNat) ∧
    CompletesWith .mrank s .noError
      { s with result0 := BitVec.ofNat 32 r, result1 := report, matOk := decide (r = 8) }

/-- R145, R146, R151, R152: SBUILD on a checked matrix of rank 8 builds a bijective table, entry x being the affine map of the
inverse of x, with its inverse table, every column weight 128, and all the flags; it clears KEY_READY and changes
nothing else. -/
def Obligations.SbuildBuildsABijectiveTable : Prop :=
  ∀ s : State, s.matOk = true → rankOf s.mrow = 8 → ∃ table inverse : Table,
    (∀ x : Byte, table.look x = affine s.mrow s.const (gfinv x)) ∧
    (∀ x : Byte, inverse.look (table.look x) = x ∧ table.look (inverse.look x) = x) ∧
    CompletesWith .sbuild s .noError
      { s with
        sbox := written table
        sboxValid := true
        sboxBij := true
        isbox := written inverse
        isboxValid := true
        balw := Vector.replicate 8 128
        balOk := true
        keyReady := false
        result0 := 256
        result1 := 0x100 }

/-- R147, R148: SVERIFY on a complete table: the number of distinct values, the smallest missing one, the column weights, the
balance, the flags, and the inverse table where there is one; code 6 where the table is no permutation. -/
def Obligations.SverifyChecksTheTable : Prop :=
  ∀ (s : State) (table : Table), s.sbox = written table → ∃ (n : Nat) (missing : Word) (weights : Vector (BitVec 9) 8)
      (isbox : Vector (Option Byte) 256),
    n = table.toList.toFinset.card ∧
    ((n = 256 ∧ missing = 0x100) ∨
      (n ≠ 256 ∧ ∃ v : Byte, missing = v.setWidth 32 ∧ v ∉ table.toList ∧ ∀ u : Byte, u.toNat < v.toNat → u ∈ table.toList)) ∧
    (∀ i : Fin 8, (weights[i]).toNat = allBytes.countP fun x => (table.look x).getLsbD i.val) ∧
    (n = 256 → ∃ inverse : Table, isbox = written inverse ∧ ∀ x : Byte, inverse.look (table.look x) = x) ∧
    (n ≠ 256 → isbox = s.isbox) ∧
    CompletesWith .sverify s (if n = 256 then .noError else .nonBijectiveSbox)
      { s with
        sboxValid := true
        sboxBij := decide (n = 256)
        isbox := isbox
        isboxValid := decide (n = 256)
        balw := weights
        balOk := decide (∀ i : Fin 8, (((weights[i]).toNat : Int) - 128).natAbs ≤ s.balTol.toNat)
        result0 := BitVec.ofNat 32 n
        result1 := missing }

/-- R149: SVERIFY with an unwritten S-box entry is the model fault. -/
def Obligations.SverifyFaultsOnAnUnwrittenEntry : Prop :=
  ∀ (s : State) (i : Fin 256), s.sbox[i] = none →
    exec .sverify s = .fault .unwrittenTableEntry ∧ faultSet (exec .sverify s) = [.unwrittenTableEntry] ∧
      goodEnd (exec .sverify s) = false

/-- R150, R151: 256 distinct values, every value exactly once, no value absent, no value twice are the same; a bijective table has
every column weight 128, passes at every tolerance, and every table passes from tolerance 128 on. -/
def Obligations.BijectiveTables : Prop :=
  ∀ table : Table,
    (bijective table = true ↔ table.toList.toFinset.card = 256) ∧
    (bijective table = true ↔ ∀ v : Byte, table.toList.count v = 1) ∧
    (bijective table = true ↔ ∀ v : Byte, v ∈ table.toList) ∧
    (bijective table = true ↔ Function.Injective table.look) ∧
    (bijective table = true → ∀ i : Fin 8, columnWeight table i.val = 128) ∧
    (∀ tol : Byte, bijective table = true ∨ 128 ≤ tol.toNat → balanced tol table = true)

/-! ### Analysis -/

/-- R171: a spectrum value counts agreements: it is twice their number less 256, an even integer in [-256, 256]. -/
def Obligations.SpectrumCountsAgreements : Prop :=
  ∀ (table : Table) (b a : Byte),
    walsh table b a = 2 * (allBytes.countP fun x => dot a x == dot b (table.look x)) - 256 ∧
    2 ∣ walsh table b a ∧ -256 ≤ walsh table b a ∧ walsh table b a ≤ 256

/-- R172: WHT stores the whole spectrum of mask b, and reports the greatest magnitude and the smallest a attaining it. -/
def Obligations.WhtStoresTheSpectrum : Prop :=
  ∀ (b : Byte) (s : State) (table : Table), s.sboxValid = true → s.sbox = written table →
    ∃ (spectrum : Vector (BitVec 10) 256) (m : Nat) (a : Byte),
      (∀ x : Fin 256, (spectrum[x]).toInt = walsh table b (BitVec.ofFin x)) ∧
      (walsh table b a).natAbs = m ∧ (∀ x : Byte, (walsh table b x).natAbs ≤ m) ∧
      (∀ x : Byte, (walsh table b x).natAbs = m → a.toNat ≤ x.toNat) ∧
      CompletesWith (.wht b) s .noError
        { s with
          wspec := written spectrum
          wspecValid := true
          result0 := BitVec.ofNat 32 m
          result1 := a.setWidth 32 }

/-- R173: the in-place butterfly gives the same 256 integers as the direct sum, for every table and mask. -/
def Obligations.ButterflyGivesTheSpectrum : Prop :=
  ∀ (table : Table) (b : Byte), butterfly table b = allBytes.map (walsh table b)

/-- R174: Parseval, the value at 0, the trivial spectrum of mask 0, the least peak 16, and NL at most 120. -/
def Obligations.SpectrumLaws : Prop :=
  ∀ table : Table,
    (∀ b : Byte, (allBytes.map fun a => walsh table b a ^ 2).sum = 65536) ∧
    (∀ b : Byte, walsh table b 0 = 256 - 2 * ((allBytes.countP fun x => dot b (table.look x) : Nat) : Int)) ∧
    (∀ b : Byte, walsh table b 0 = 0 ↔ (allBytes.countP fun x => dot b (table.look x)) = 128) ∧
    (∀ a : Byte, walsh table 0 a = if a = 0 then 256 else 0) ∧
    (∀ b : Byte, ∃ a : Byte, 16 ≤ (walsh table b a).natAbs) ∧
    (nonlinearity table).1 ≤ 120

/-- R175, R176: NL gives the least of 128 less half the greatest magnitude over the nonzero masks and the smallest mask attaining
it, and leaves WSPEC unspecified (R177). -/
def Obligations.NlGivesTheWorstComponent : Prop :=
  ∀ (s : State) (table : Table), s.sboxValid = true → s.sbox = written table →
    ∃ (value : Byte → Nat) (b : Byte),
      (∀ c : Byte, ∃ m : Nat, (∃ a, (walsh table c a).natAbs = m) ∧ (∀ a, (walsh table c a).natAbs ≤ m) ∧
        2 * value c + m = 256) ∧
      b ≠ 0 ∧ (∀ c : Byte, c ≠ 0 → value b ≤ value c) ∧
      (∀ c : Byte, c ≠ 0 → value c = value b → b.toNat ≤ c.toNat) ∧
      CompletesWith .nl s .noError
        { s with
          result0 := BitVec.ofNat 32 (value b)
          result1 := b.setWidth 32
          wspec := Vector.replicate 256 none
          wspecValid := false }

/-- R178, R179: LAP gives the greatest half magnitude over nonzero masks b and a and the first pair attaining it, b outer; it is the
greatest distance of an agreement count from 128, and it leaves WSPEC unspecified (R177). -/
def Obligations.LapGivesTheBestApproximation : Prop :=
  ∀ (s : State) (table : Table), s.sboxValid = true → s.sbox = written table →
    ∃ (value : Byte → Byte → Nat) (b a : Byte),
      (∀ c d : Byte, 2 * value c d = (walsh table c d).natAbs ∧
        value c d = (((allBytes.countP fun x => dot d x == dot c (table.look x) : Nat) : Int) - 128).natAbs) ∧
      b ≠ 0 ∧ a ≠ 0 ∧ (∀ c d : Byte, c ≠ 0 → d ≠ 0 → value c d ≤ value b a) ∧
      (∀ c d : Byte, c ≠ 0 → d ≠ 0 → value c d = value b a →
        b.toNat < c.toNat ∨ (b = c ∧ a.toNat ≤ d.toNat)) ∧
      CompletesWith .lap s .noError
        { s with
          result0 := BitVec.ofNat 32 (value b a)
          result1 := (b.setWidth 32 <<< 8) ||| a.setWidth 32
          wspec := Vector.replicate 256 none
          wspecValid := false }

/-- R180, R182: DDTROW stores the whole row of input difference dx, and reports its greatest entry and the smallest dy attaining
it. -/
def Obligations.DdtrowStoresTheRow : Prop :=
  ∀ (dx : Byte) (s : State) (table : Table), s.sboxValid = true → s.sbox = written table →
    ∃ (row : Vector (BitVec 9) 256) (dy : Byte),
      (∀ d : Fin 256, (row[d]).toNat =
        allBytes.countP fun x => table.look (x ^^^ dx) ^^^ table.look x == BitVec.ofFin d) ∧
      (∀ d : Fin 256, (row[d]).toNat ≤ (row[dy.toFin]).toNat) ∧
      (∀ d : Fin 256, row[d] = row[dy.toFin] → dy.toNat ≤ d.val) ∧
      CompletesWith (.ddtrow dx) s .noError
        { s with
          ddtr := written row
          ddtrValid := true
          result0 := (row[dy.toFin]).setWidth 32
          result1 := dy.setWidth 32 }

/-- R184, R186: DU gives the greatest entry of the difference table with dx not 0 and the first (dx, dy) attaining it, and leaves
DDTR unspecified (R185). -/
def Obligations.DuGivesTheDifferentialUniformity : Prop :=
  ∀ (s : State) (table : Table), s.sboxValid = true → s.sbox = written table →
    ∃ (entries : Byte → Byte → Nat) (dx dy : Byte),
      (∀ c d : Byte, entries c d = allBytes.countP fun x => table.look (x ^^^ c) ^^^ table.look x == d) ∧
      dx ≠ 0 ∧ (∀ c d : Byte, c ≠ 0 → entries c d ≤ entries dx dy) ∧
      (∀ c d : Byte, c ≠ 0 → entries c d = entries dx dy →
        dx.toNat < c.toNat ∨ (dx = c ∧ dy.toNat ≤ d.toNat)) ∧
      CompletesWith .du s .noError
        { s with
          result0 := BitVec.ofNat 32 (entries dx dy)
          result1 := (dx.setWidth 32 <<< 8) ||| dy.setWidth 32
          ddtr := Vector.replicate 256 none
          ddtrValid := false }

/-- R181: the laws of the difference table. -/
def Obligations.DifferenceTableLaws : Prop :=
  ∀ table : Table,
    (∀ dx : Byte, (allBytes.map (ddt table dx)).sum = 256) ∧
    (∀ dy : Byte, ddt table 0 dy = if dy = 0 then 256 else 0) ∧
    (∀ dx dy : Byte, dx ≠ 0 → 2 ∣ ddt table dx dy) ∧
    (Function.Injective table.look → ∀ dx : Byte, dx ≠ 0 → ddt table dx 0 = 0) ∧
    (∀ m : Nat, (∀ dx dy : Byte, dx ≠ 0 → ddt table dx dy ≤ m) ↔
      ∀ dx dy : Byte, (dx, dy) ≠ (0, 0) → ddt table dx dy ≤ m)

/-! ### AES-128 -/

/-- R200, R201, R202, R212: KEXP stores the recurrence's words as round keys, all of them written, and sets KEY_READY. -/
def Obligations.KexpFollowsTheRecurrence : Prop :=
  ∀ (s : State) (table : Table), s.sboxValid = true → s.sbox = written table →
    ∃ (w : Nat → Nat → Byte) (constant : Nat → Byte) (keys : Vector Byte 176),
      constant 1 = 0x01 ∧ (∀ j : Nat, 1 ≤ j → j < 10 → constant (j + 1) = gfmul (constant j) 0x02) ∧
      (∀ j : Fin 16, w (j.val / 4) (j.val % 4) = s.key[j]) ∧
      (∀ i k : Nat, 4 ≤ i → i < 44 → k < 4 →
        w i k = w (i - 4) k ^^^
          (if i % 4 = 0 then table.look (w (i - 1) ((k + 1) % 4)) ^^^ (if k = 0 then constant (i / 4) else 0)
            else w (i - 1) k)) ∧
      (∀ n : Fin 176, keys[n] = w (n.val / 4) (n.val % 4)) ∧
      CompletesWith .kexp s .noError { s with rk := written keys, keyReady := true }

/-- R203, R204, R205, R215, R216: SUBB replaces every byte of BLK by its S-box entry, ISUBB by its inverse S-box entry. -/
def Obligations.SubstituteBytes : Prop :=
  ∀ (s : State) (table : Table), ∃ b : Block, (∀ j : Fin 16, b[j] = table.look s.blk[j]) ∧
    (s.sboxValid = true → s.sbox = written table → CompletesWith .subb s .noError { s with blk := b }) ∧
    (s.isboxValid = true → s.isbox = written table → CompletesWith .isubb s .noError { s with blk := b })

/-- R206, R207, R217, R218: SHR moves the byte of row r, column (c + r) mod 4 to row r, column c; ISHR moves it back. -/
def Obligations.ShiftRowsMovesBytes : Prop :=
  ∀ s : State, ∃ b d : Block,
    (∀ r c : Fin 4, b[r.val + 4 * c.val] = s.blk[r.val + 4 * ((c.val + r.val) % 4)]) ∧
    (∀ r c : Fin 4, d[r.val + 4 * ((c.val + r.val) % 4)] = s.blk[r.val + 4 * c.val]) ∧
    CompletesWith .shr s .noError { s with blk := b } ∧ CompletesWith .ishr s .noError { s with blk := d } ∧
    CompletesWith .ishr { s with blk := b } .noError s ∧ CompletesWith .shr { s with blk := d } .noError s

/-- R208, R209, R219, R220: MIXC multiplies every column by the fixed matrix, IMIXC by the inverse matrix, and IMIXC after MIXC
restores the block. -/
def Obligations.MixColumnsMultipliesColumns : Prop :=
  (∀ s : State, ∃ b : Block,
    (∀ c : Fin 4,
      b[4 * c.val] = gfmul 2 s.blk[4 * c.val] ^^^ gfmul 3 s.blk[4 * c.val + 1] ^^^ s.blk[4 * c.val + 2] ^^^
        s.blk[4 * c.val + 3] ∧
      b[4 * c.val + 1] = s.blk[4 * c.val] ^^^ gfmul 2 s.blk[4 * c.val + 1] ^^^ gfmul 3 s.blk[4 * c.val + 2] ^^^
        s.blk[4 * c.val + 3] ∧
      b[4 * c.val + 2] = s.blk[4 * c.val] ^^^ s.blk[4 * c.val + 1] ^^^ gfmul 2 s.blk[4 * c.val + 2] ^^^
        gfmul 3 s.blk[4 * c.val + 3] ∧
      b[4 * c.val + 3] = gfmul 3 s.blk[4 * c.val] ^^^ s.blk[4 * c.val + 1] ^^^ s.blk[4 * c.val + 2] ^^^
        gfmul 2 s.blk[4 * c.val + 3]) ∧
    CompletesWith .mixc s .noError { s with blk := b } ∧
    CompletesWith .imixc { s with blk := b } .noError s) ∧
  (∀ s : State, ∃ b : Block,
    (∀ c : Fin 4,
      b[4 * c.val] = gfmul 0x0E s.blk[4 * c.val] ^^^ gfmul 0x0B s.blk[4 * c.val + 1] ^^^
        gfmul 0x0D s.blk[4 * c.val + 2] ^^^ gfmul 0x09 s.blk[4 * c.val + 3] ∧
      b[4 * c.val + 1] = gfmul 0x09 s.blk[4 * c.val] ^^^ gfmul 0x0E s.blk[4 * c.val + 1] ^^^
        gfmul 0x0B s.blk[4 * c.val + 2] ^^^ gfmul 0x0D s.blk[4 * c.val + 3] ∧
      b[4 * c.val + 2] = gfmul 0x0D s.blk[4 * c.val] ^^^ gfmul 0x09 s.blk[4 * c.val + 1] ^^^
        gfmul 0x0E s.blk[4 * c.val + 2] ^^^ gfmul 0x0B s.blk[4 * c.val + 3] ∧
      b[4 * c.val + 3] = gfmul 0x0B s.blk[4 * c.val] ^^^ gfmul 0x0D s.blk[4 * c.val + 1] ^^^
        gfmul 0x09 s.blk[4 * c.val + 2] ^^^ gfmul 0x0E s.blk[4 * c.val + 3]) ∧
    CompletesWith .imixc s .noError { s with blk := b })

/-- R210, R221: ARK r adds round key r bytewise; done twice it restores BLK; BAD_OPERAND is checked before NOT_READY. -/
def Obligations.AddRoundKeyAddsBytewise : Prop :=
  ∀ (r : Byte) (s : State) (keys : Vector Byte 176), s.rk = written keys →
    (∀ h : r.toNat ≤ 10, s.keyReady = true → ∃ b : Block,
      (∀ j : Fin 16, b[j] = s.blk[j] ^^^ keys[16 * r.toNat + j.val]) ∧
      CompletesWith (.ark r) s .noError { s with blk := b } ∧
      CompletesWith (.ark r) { s with blk := b } .noError s) ∧
    (11 ≤ r.toNat → CompletesWith (.ark r) s .badOperand s) ∧
    (r.toNat ≤ 10 → s.keyReady = false → CompletesWith (.ark r) s .notReady s)

/-- R222, R211, R213, R214: on a ready block ENC and DEC complete, change BLK alone, and leave in it what the sequence of round
commands leaves; SUBB and SHR commute. -/
def Obligations.CiphersAreTheirRoundCommands : Prop :=
  ∀ (s : State) (table : Table),
    (∀ keys : Vector Byte 176, s.sboxValid = true → s.keyReady = true → s.sbox = written table → s.rk = written keys →
      ∃ b : Block, CompletesWith .enc s .noError { s with blk := b } ∧
        ∃ t, runCommands
          ([.ark 0] ++ ([1, 2, 3, 4, 5, 6, 7, 8, 9] : List Byte).flatMap (fun r => [.subb, .shr, .mixc, .ark r]) ++
            [.subb, .shr, .ark 10]) s = .next t ∧ t = t.withStatusOf { s with blk := b }) ∧
    (∀ keys : Vector Byte 176, s.isboxValid = true → s.keyReady = true → s.isbox = written table → s.rk = written keys →
      ∃ b : Block, CompletesWith .dec s .noError { s with blk := b } ∧
        ∃ t, runCommands
          ([.ark 10] ++ ([9, 8, 7, 6, 5, 4, 3, 2, 1] : List Byte).flatMap (fun r => [.ishr, .isubb, .ark r, .imixc]) ++
            [.ishr, .isubb, .ark 0]) s = .next t ∧ t = t.withStatusOf { s with blk := b }) ∧
    (s.sboxValid = true → s.sbox = written table →
      ∃ t u, runCommands [.subb, .shr] s = .next t ∧ runCommands [.shr, .subb] s = .next u ∧ t.blk = u.blk)

/-- R211, R214, R45: with the flags ENC and DEC need, in a state of the invariant, DEC after ENC restores BLK and changes nothing
else. -/
def Obligations.DecUndoesEnc : Prop :=
  ∀ s : State, Inv s → s.isboxValid = true → s.keyReady = true →
    ∃ t u, exec .enc s = .next t ∧ exec .dec t = .next u ∧ u = u.withStatusOf s ∧ u.errCode = .noError
end

