-- ==== Sys2Proof/Laws/Encoding.lean ====
section
/-! SUPPORT. The fields of a command word and what the decoder makes of each field (30_encoding.md R90-R97). -/

namespace Sys2Proof

theorem opcField_commandWord (o a b : Byte) : opcField (commandWord o a b) = o := by
  apply BitVec.eq_of_getLsbD_eq
  intro i hi
  simp only [opcField, commandWord, BitVec.getLsbD_extractLsb', BitVec.getLsbD_or, BitVec.getLsbD_shiftLeft,
    BitVec.getLsbD_setWidth, hi, decide_true, Bool.true_and]
  rw [BitVec.getLsbD_of_ge b _ (by omega), BitVec.getLsbD_of_ge a _ (by omega), show 24 + i - 24 = i by omega]
  simp only [show 24 + i < 32 by omega, show i < 32 by omega, decide_true, Bool.true_and]
  simp [hi]

theorem opbField_commandWord (o a b : Byte) : opbField (commandWord o a b) = b := by
  apply BitVec.eq_of_getLsbD_eq
  intro i hi
  simp only [opbField, commandWord, BitVec.getLsbD_extractLsb', BitVec.getLsbD_or, BitVec.getLsbD_shiftLeft,
    BitVec.getLsbD_setWidth, hi, decide_true, Bool.true_and]
  rw [BitVec.getLsbD_of_ge a _ (by omega), show 16 + i - 16 = i by omega,
    show decide (16 + i < 24) = true by simp; omega]
  simp only [show 16 + i < 32 by omega, show i < 32 by omega, decide_true, Bool.true_and]
  simp

theorem opaField_commandWord (o a b : Byte) : opaField (commandWord o a b) = a := by
  apply BitVec.eq_of_getLsbD_eq
  intro i hi
  simp only [opaField, commandWord, BitVec.getLsbD_extractLsb', BitVec.getLsbD_or, BitVec.getLsbD_shiftLeft,
    BitVec.getLsbD_setWidth, hi, decide_true, Bool.true_and]
  rw [show 8 + i - 8 = i by omega, show decide (8 + i < 24) = true by simp; omega,
    show decide (8 + i < 16) = true by simp; omega]
  simp only [show 8 + i < 32 by omega, show i < 32 by omega, decide_true, Bool.true_and]
  simp

theorem rsvField_commandWord (o a b : Byte) : rsvField (commandWord o a b) = 0 := by
  apply BitVec.eq_of_getLsbD_eq
  intro i hi
  simp only [rsvField, commandWord, BitVec.getLsbD_extractLsb', BitVec.getLsbD_or, BitVec.getLsbD_shiftLeft,
    BitVec.getLsbD_setWidth, hi, decide_true, Bool.true_and]
  rw [show decide (0 + i < 24) = true by simp; omega, show decide (0 + i < 16) = true by simp; omega,
    show decide (0 + i < 8) = true by simp; omega]
  simp

/-- A word is its opcode, its operand bytes and its reserved byte. -/
theorem word_eq_of_fields (w w' : Word) (h1 : opcField w = opcField w') (h2 : opbField w = opbField w')
    (h3 : opaField w = opaField w') (h4 : rsvField w = rsvField w') : w = w' := by
  apply BitVec.eq_of_getLsbD_eq
  intro i hi
  have key : ∀ (f : Word → Byte) (s : Nat), (∀ u : Word, f u = u.extractLsb' s 8) → f w = f w' → s ≤ i → i < s + 8 →
      w.getLsbD i = w'.getLsbD i := by
    intro f s hf he h5 h6
    have := congrArg (fun v : Byte => v.getLsbD (i - s)) he
    simp only [hf, BitVec.getLsbD_extractLsb'] at this
    rw [show s + (i - s) = i by omega, show decide (i - s < 8) = true by simp; omega] at this
    simpa using this
  by_cases c1 : 24 ≤ i
  · exact key opcField 24 (fun _ => rfl) h1 c1 (by omega)
  · by_cases c2 : 16 ≤ i
    · exact key opbField 16 (fun _ => rfl) h2 c2 (by omega)
    · by_cases c3 : 8 ≤ i
      · exact key opaField 8 (fun _ => rfl) h3 c3 (by omega)
      · exact key rsvField 0 (fun _ => rfl) h4 (by omega) (by omega)

/-- A word with a zero reserved byte is the command word of its fields. -/
theorem commandWord_fields (w : Word) (h : rsvField w = 0) :
    commandWord (opcField w) (opaField w) (opbField w) = w :=
  word_eq_of_fields _ _ (opcField_commandWord _ _ _) (opbField_commandWord _ _ _) (opaField_commandWord _ _ _)
    (by rw [rsvField_commandWord, h])

@[simp] theorem noOperand_ok (w : Word) (i j : Instr) :
    noOperand w i = .ok j ↔ opaField w = 0 ∧ opbField w = 0 ∧ rsvField w = 0 ∧ i = j := by
  unfold noOperand
  split <;> simp_all

@[simp] theorem oneOperand_ok (w : Word) (mk : Byte → Instr) (j : Instr) :
    oneOperand w mk = .ok j ↔ opbField w = 0 ∧ rsvField w = 0 ∧ mk (opaField w) = j := by
  unfold oneOperand
  split <;> simp_all

@[simp] theorem twoOperands_ok (w : Word) (mk : Byte → Byte → Instr) (j : Instr) :
    twoOperands w mk = .ok j ↔ rsvField w = 0 ∧ mk (opaField w) (opbField w) = j := by
  unfold twoOperands
  split <;> simp_all

end Sys2Proof
end

