-- ==== Sys2Proof/Laws/State.lean ====
section
/-! SUPPORT. One lemma per field per update of the state: what each named update leaves in each field, so that no proof
unfolds a record update. The proofs stand in parentheses, so that simp rewrites with the lemmas instead of unfolding. -/

namespace Sys2Proof.Machine

@[simp] theorem accept_pcmd (s : State) (w : Word) : (s.accept w).pcmd = some w := (rfl)
@[simp] theorem accept_busy (s : State) (w : Word) : (s.accept w).busy = true := (rfl)
@[simp] theorem accept_done (s : State) (w : Word) : (s.accept w).done = false := (rfl)
@[simp] theorem accept_err (s : State) (w : Word) : (s.accept w).err = false := (rfl)
@[simp] theorem accept_esticky (s : State) (w : Word) : (s.accept w).esticky = s.esticky := (rfl)
@[simp] theorem accept_errCode (s : State) (w : Word) : (s.accept w).errCode = .noError := (rfl)
@[simp] theorem accept_matOk (s : State) (w : Word) : (s.accept w).matOk = s.matOk := (rfl)
@[simp] theorem accept_sboxValid (s : State) (w : Word) : (s.accept w).sboxValid = s.sboxValid := (rfl)
@[simp] theorem accept_sboxBij (s : State) (w : Word) : (s.accept w).sboxBij = s.sboxBij := (rfl)
@[simp] theorem accept_isboxValid (s : State) (w : Word) : (s.accept w).isboxValid = s.isboxValid := (rfl)
@[simp] theorem accept_balOk (s : State) (w : Word) : (s.accept w).balOk = s.balOk := (rfl)
@[simp] theorem accept_keyReady (s : State) (w : Word) : (s.accept w).keyReady = s.keyReady := (rfl)
@[simp] theorem accept_wspecValid (s : State) (w : Word) : (s.accept w).wspecValid = s.wspecValid := (rfl)
@[simp] theorem accept_ddtrValid (s : State) (w : Word) : (s.accept w).ddtrValid = s.ddtrValid := (rfl)
@[simp] theorem accept_busyViol (s : State) (w : Word) : (s.accept w).busyViol = s.busyViol := (rfl)
@[simp] theorem accept_result0 (s : State) (w : Word) : (s.accept w).result0 = s.result0 := (rfl)
@[simp] theorem accept_result1 (s : State) (w : Word) : (s.accept w).result1 = s.result1 := (rfl)
@[simp] theorem accept_errInfo (s : State) (w : Word) : (s.accept w).errInfo = s.errInfo := (rfl)
@[simp] theorem accept_errAddr (s : State) (w : Word) : (s.accept w).errAddr = s.errAddr := (rfl)
@[simp] theorem accept_doneIe (s : State) (w : Word) : (s.accept w).doneIe = s.doneIe := (rfl)
@[simp] theorem accept_errIe (s : State) (w : Word) : (s.accept w).errIe = s.errIe := (rfl)
@[simp] theorem accept_balTol (s : State) (w : Word) : (s.accept w).balTol = s.balTol := (rfl)
@[simp] theorem accept_const (s : State) (w : Word) : (s.accept w).const = s.const := (rfl)
@[simp] theorem accept_mrow (s : State) (w : Word) : (s.accept w).mrow = s.mrow := (rfl)
@[simp] theorem accept_key (s : State) (w : Word) : (s.accept w).key = s.key := (rfl)
@[simp] theorem accept_blk (s : State) (w : Word) : (s.accept w).blk = s.blk := (rfl)
@[simp] theorem accept_balw (s : State) (w : Word) : (s.accept w).balw = s.balw := (rfl)
@[simp] theorem accept_sbox (s : State) (w : Word) : (s.accept w).sbox = s.sbox := (rfl)
@[simp] theorem accept_isbox (s : State) (w : Word) : (s.accept w).isbox = s.isbox := (rfl)
@[simp] theorem accept_rk (s : State) (w : Word) : (s.accept w).rk = s.rk := (rfl)
@[simp] theorem accept_wspec (s : State) (w : Word) : (s.accept w).wspec = s.wspec := (rfl)
@[simp] theorem accept_ddtr (s : State) (w : Word) : (s.accept w).ddtr = s.ddtr := (rfl)
@[simp] theorem accept_host (s : State) (w : Word) : (s.accept w).host = s.host := (rfl)
@[simp] theorem accept_turns (s : State) (w : Word) : (s.accept w).turns = s.turns := (rfl)
@[simp] theorem accept_draws (s : State) (w : Word) : (s.accept w).draws = s.draws := (rfl)

@[simp] theorem complete_pcmd (s : State) (k : ErrCode) (w : Word) : (s.complete k w).pcmd = none := (rfl)
@[simp] theorem complete_busy (s : State) (k : ErrCode) (w : Word) : (s.complete k w).busy = false := (rfl)
@[simp] theorem complete_done (s : State) (k : ErrCode) (w : Word) : (s.complete k w).done = true := (rfl)
@[simp] theorem complete_err (s : State) (k : ErrCode) (w : Word) : (s.complete k w).err = k.isError := (rfl)
@[simp] theorem complete_esticky (s : State) (k : ErrCode) (w : Word) : (s.complete k w).esticky = (s.esticky || k.isError) := (rfl)
@[simp] theorem complete_errCode (s : State) (k : ErrCode) (w : Word) : (s.complete k w).errCode = k := (rfl)
@[simp] theorem complete_matOk (s : State) (k : ErrCode) (w : Word) : (s.complete k w).matOk = s.matOk := (rfl)
@[simp] theorem complete_sboxValid (s : State) (k : ErrCode) (w : Word) : (s.complete k w).sboxValid = s.sboxValid := (rfl)
@[simp] theorem complete_sboxBij (s : State) (k : ErrCode) (w : Word) : (s.complete k w).sboxBij = s.sboxBij := (rfl)
@[simp] theorem complete_isboxValid (s : State) (k : ErrCode) (w : Word) : (s.complete k w).isboxValid = s.isboxValid := (rfl)
@[simp] theorem complete_balOk (s : State) (k : ErrCode) (w : Word) : (s.complete k w).balOk = s.balOk := (rfl)
@[simp] theorem complete_keyReady (s : State) (k : ErrCode) (w : Word) : (s.complete k w).keyReady = s.keyReady := (rfl)
@[simp] theorem complete_wspecValid (s : State) (k : ErrCode) (w : Word) : (s.complete k w).wspecValid = s.wspecValid := (rfl)
@[simp] theorem complete_ddtrValid (s : State) (k : ErrCode) (w : Word) : (s.complete k w).ddtrValid = s.ddtrValid := (rfl)
@[simp] theorem complete_busyViol (s : State) (k : ErrCode) (w : Word) : (s.complete k w).busyViol = s.busyViol := (rfl)
@[simp] theorem complete_result0 (s : State) (k : ErrCode) (w : Word) : (s.complete k w).result0 = s.result0 := (rfl)
@[simp] theorem complete_result1 (s : State) (k : ErrCode) (w : Word) : (s.complete k w).result1 = s.result1 := (rfl)
@[simp] theorem complete_errInfo (s : State) (k : ErrCode) (w : Word) : (s.complete k w).errInfo = (if k.isError then w else s.errInfo) := (rfl)
@[simp] theorem complete_errAddr (s : State) (k : ErrCode) (w : Word) : (s.complete k w).errAddr = s.errAddr := (rfl)
@[simp] theorem complete_doneIe (s : State) (k : ErrCode) (w : Word) : (s.complete k w).doneIe = s.doneIe := (rfl)
@[simp] theorem complete_errIe (s : State) (k : ErrCode) (w : Word) : (s.complete k w).errIe = s.errIe := (rfl)
@[simp] theorem complete_balTol (s : State) (k : ErrCode) (w : Word) : (s.complete k w).balTol = s.balTol := (rfl)
@[simp] theorem complete_const (s : State) (k : ErrCode) (w : Word) : (s.complete k w).const = s.const := (rfl)
@[simp] theorem complete_mrow (s : State) (k : ErrCode) (w : Word) : (s.complete k w).mrow = s.mrow := (rfl)
@[simp] theorem complete_key (s : State) (k : ErrCode) (w : Word) : (s.complete k w).key = s.key := (rfl)
@[simp] theorem complete_blk (s : State) (k : ErrCode) (w : Word) : (s.complete k w).blk = s.blk := (rfl)
@[simp] theorem complete_balw (s : State) (k : ErrCode) (w : Word) : (s.complete k w).balw = s.balw := (rfl)
@[simp] theorem complete_sbox (s : State) (k : ErrCode) (w : Word) : (s.complete k w).sbox = s.sbox := (rfl)
@[simp] theorem complete_isbox (s : State) (k : ErrCode) (w : Word) : (s.complete k w).isbox = s.isbox := (rfl)
@[simp] theorem complete_rk (s : State) (k : ErrCode) (w : Word) : (s.complete k w).rk = s.rk := (rfl)
@[simp] theorem complete_wspec (s : State) (k : ErrCode) (w : Word) : (s.complete k w).wspec = s.wspec := (rfl)
@[simp] theorem complete_ddtr (s : State) (k : ErrCode) (w : Word) : (s.complete k w).ddtr = s.ddtr := (rfl)
@[simp] theorem complete_host (s : State) (k : ErrCode) (w : Word) : (s.complete k w).host = s.host := (rfl)
@[simp] theorem complete_turns (s : State) (k : ErrCode) (w : Word) : (s.complete k w).turns = s.turns := (rfl)
@[simp] theorem complete_draws (s : State) (k : ErrCode) (w : Word) : (s.complete k w).draws = s.draws := (rfl)

@[simp] theorem withResults_pcmd (s : State) (r0 r1 : Word) : (s.withResults r0 r1).pcmd = s.pcmd := (rfl)
@[simp] theorem withResults_busy (s : State) (r0 r1 : Word) : (s.withResults r0 r1).busy = s.busy := (rfl)
@[simp] theorem withResults_done (s : State) (r0 r1 : Word) : (s.withResults r0 r1).done = s.done := (rfl)
@[simp] theorem withResults_err (s : State) (r0 r1 : Word) : (s.withResults r0 r1).err = s.err := (rfl)
@[simp] theorem withResults_esticky (s : State) (r0 r1 : Word) : (s.withResults r0 r1).esticky = s.esticky := (rfl)
@[simp] theorem withResults_errCode (s : State) (r0 r1 : Word) : (s.withResults r0 r1).errCode = s.errCode := (rfl)
@[simp] theorem withResults_matOk (s : State) (r0 r1 : Word) : (s.withResults r0 r1).matOk = s.matOk := (rfl)
@[simp] theorem withResults_sboxValid (s : State) (r0 r1 : Word) : (s.withResults r0 r1).sboxValid = s.sboxValid := (rfl)
@[simp] theorem withResults_sboxBij (s : State) (r0 r1 : Word) : (s.withResults r0 r1).sboxBij = s.sboxBij := (rfl)
@[simp] theorem withResults_isboxValid (s : State) (r0 r1 : Word) : (s.withResults r0 r1).isboxValid = s.isboxValid := (rfl)
@[simp] theorem withResults_balOk (s : State) (r0 r1 : Word) : (s.withResults r0 r1).balOk = s.balOk := (rfl)
@[simp] theorem withResults_keyReady (s : State) (r0 r1 : Word) : (s.withResults r0 r1).keyReady = s.keyReady := (rfl)
@[simp] theorem withResults_wspecValid (s : State) (r0 r1 : Word) : (s.withResults r0 r1).wspecValid = s.wspecValid := (rfl)
@[simp] theorem withResults_ddtrValid (s : State) (r0 r1 : Word) : (s.withResults r0 r1).ddtrValid = s.ddtrValid := (rfl)
@[simp] theorem withResults_busyViol (s : State) (r0 r1 : Word) : (s.withResults r0 r1).busyViol = s.busyViol := (rfl)
@[simp] theorem withResults_result0 (s : State) (r0 r1 : Word) : (s.withResults r0 r1).result0 = r0 := (rfl)
@[simp] theorem withResults_result1 (s : State) (r0 r1 : Word) : (s.withResults r0 r1).result1 = r1 := (rfl)
@[simp] theorem withResults_errInfo (s : State) (r0 r1 : Word) : (s.withResults r0 r1).errInfo = s.errInfo := (rfl)
@[simp] theorem withResults_errAddr (s : State) (r0 r1 : Word) : (s.withResults r0 r1).errAddr = s.errAddr := (rfl)
@[simp] theorem withResults_doneIe (s : State) (r0 r1 : Word) : (s.withResults r0 r1).doneIe = s.doneIe := (rfl)
@[simp] theorem withResults_errIe (s : State) (r0 r1 : Word) : (s.withResults r0 r1).errIe = s.errIe := (rfl)
@[simp] theorem withResults_balTol (s : State) (r0 r1 : Word) : (s.withResults r0 r1).balTol = s.balTol := (rfl)
@[simp] theorem withResults_const (s : State) (r0 r1 : Word) : (s.withResults r0 r1).const = s.const := (rfl)
@[simp] theorem withResults_mrow (s : State) (r0 r1 : Word) : (s.withResults r0 r1).mrow = s.mrow := (rfl)
@[simp] theorem withResults_key (s : State) (r0 r1 : Word) : (s.withResults r0 r1).key = s.key := (rfl)
@[simp] theorem withResults_blk (s : State) (r0 r1 : Word) : (s.withResults r0 r1).blk = s.blk := (rfl)
@[simp] theorem withResults_balw (s : State) (r0 r1 : Word) : (s.withResults r0 r1).balw = s.balw := (rfl)
@[simp] theorem withResults_sbox (s : State) (r0 r1 : Word) : (s.withResults r0 r1).sbox = s.sbox := (rfl)
@[simp] theorem withResults_isbox (s : State) (r0 r1 : Word) : (s.withResults r0 r1).isbox = s.isbox := (rfl)
@[simp] theorem withResults_rk (s : State) (r0 r1 : Word) : (s.withResults r0 r1).rk = s.rk := (rfl)
@[simp] theorem withResults_wspec (s : State) (r0 r1 : Word) : (s.withResults r0 r1).wspec = s.wspec := (rfl)
@[simp] theorem withResults_ddtr (s : State) (r0 r1 : Word) : (s.withResults r0 r1).ddtr = s.ddtr := (rfl)
@[simp] theorem withResults_host (s : State) (r0 r1 : Word) : (s.withResults r0 r1).host = s.host := (rfl)
@[simp] theorem withResults_turns (s : State) (r0 r1 : Word) : (s.withResults r0 r1).turns = s.turns := (rfl)
@[simp] theorem withResults_draws (s : State) (r0 r1 : Word) : (s.withResults r0 r1).draws = s.draws := (rfl)

@[simp] theorem withBlk_pcmd (b : Block) (s : State) : (s.withBlk b).pcmd = s.pcmd := (rfl)
@[simp] theorem withBlk_busy (b : Block) (s : State) : (s.withBlk b).busy = s.busy := (rfl)
@[simp] theorem withBlk_done (b : Block) (s : State) : (s.withBlk b).done = s.done := (rfl)
@[simp] theorem withBlk_err (b : Block) (s : State) : (s.withBlk b).err = s.err := (rfl)
@[simp] theorem withBlk_esticky (b : Block) (s : State) : (s.withBlk b).esticky = s.esticky := (rfl)
@[simp] theorem withBlk_errCode (b : Block) (s : State) : (s.withBlk b).errCode = s.errCode := (rfl)
@[simp] theorem withBlk_matOk (b : Block) (s : State) : (s.withBlk b).matOk = s.matOk := (rfl)
@[simp] theorem withBlk_sboxValid (b : Block) (s : State) : (s.withBlk b).sboxValid = s.sboxValid := (rfl)
@[simp] theorem withBlk_sboxBij (b : Block) (s : State) : (s.withBlk b).sboxBij = s.sboxBij := (rfl)
@[simp] theorem withBlk_isboxValid (b : Block) (s : State) : (s.withBlk b).isboxValid = s.isboxValid := (rfl)
@[simp] theorem withBlk_balOk (b : Block) (s : State) : (s.withBlk b).balOk = s.balOk := (rfl)
@[simp] theorem withBlk_keyReady (b : Block) (s : State) : (s.withBlk b).keyReady = s.keyReady := (rfl)
@[simp] theorem withBlk_wspecValid (b : Block) (s : State) : (s.withBlk b).wspecValid = s.wspecValid := (rfl)
@[simp] theorem withBlk_ddtrValid (b : Block) (s : State) : (s.withBlk b).ddtrValid = s.ddtrValid := (rfl)
@[simp] theorem withBlk_busyViol (b : Block) (s : State) : (s.withBlk b).busyViol = s.busyViol := (rfl)
@[simp] theorem withBlk_result0 (b : Block) (s : State) : (s.withBlk b).result0 = s.result0 := (rfl)
@[simp] theorem withBlk_result1 (b : Block) (s : State) : (s.withBlk b).result1 = s.result1 := (rfl)
@[simp] theorem withBlk_errInfo (b : Block) (s : State) : (s.withBlk b).errInfo = s.errInfo := (rfl)
@[simp] theorem withBlk_errAddr (b : Block) (s : State) : (s.withBlk b).errAddr = s.errAddr := (rfl)
@[simp] theorem withBlk_doneIe (b : Block) (s : State) : (s.withBlk b).doneIe = s.doneIe := (rfl)
@[simp] theorem withBlk_errIe (b : Block) (s : State) : (s.withBlk b).errIe = s.errIe := (rfl)
@[simp] theorem withBlk_balTol (b : Block) (s : State) : (s.withBlk b).balTol = s.balTol := (rfl)
@[simp] theorem withBlk_const (b : Block) (s : State) : (s.withBlk b).const = s.const := (rfl)
@[simp] theorem withBlk_mrow (b : Block) (s : State) : (s.withBlk b).mrow = s.mrow := (rfl)
@[simp] theorem withBlk_key (b : Block) (s : State) : (s.withBlk b).key = s.key := (rfl)
@[simp] theorem withBlk_blk (b : Block) (s : State) : (s.withBlk b).blk = b := (rfl)
@[simp] theorem withBlk_balw (b : Block) (s : State) : (s.withBlk b).balw = s.balw := (rfl)
@[simp] theorem withBlk_sbox (b : Block) (s : State) : (s.withBlk b).sbox = s.sbox := (rfl)
@[simp] theorem withBlk_isbox (b : Block) (s : State) : (s.withBlk b).isbox = s.isbox := (rfl)
@[simp] theorem withBlk_rk (b : Block) (s : State) : (s.withBlk b).rk = s.rk := (rfl)
@[simp] theorem withBlk_wspec (b : Block) (s : State) : (s.withBlk b).wspec = s.wspec := (rfl)
@[simp] theorem withBlk_ddtr (b : Block) (s : State) : (s.withBlk b).ddtr = s.ddtr := (rfl)
@[simp] theorem withBlk_host (b : Block) (s : State) : (s.withBlk b).host = s.host := (rfl)
@[simp] theorem withBlk_turns (b : Block) (s : State) : (s.withBlk b).turns = s.turns := (rfl)
@[simp] theorem withBlk_draws (b : Block) (s : State) : (s.withBlk b).draws = s.draws := (rfl)
@[simp] theorem clearDone_pcmd (s : State) : (s.clearDone).pcmd = s.pcmd := (rfl)
@[simp] theorem clearDone_busy (s : State) : (s.clearDone).busy = s.busy := (rfl)
@[simp] theorem clearDone_done (s : State) : (s.clearDone).done = false := (rfl)
@[simp] theorem clearDone_err (s : State) : (s.clearDone).err = s.err := (rfl)
@[simp] theorem clearDone_esticky (s : State) : (s.clearDone).esticky = s.esticky := (rfl)
@[simp] theorem clearDone_errCode (s : State) : (s.clearDone).errCode = s.errCode := (rfl)
@[simp] theorem clearDone_matOk (s : State) : (s.clearDone).matOk = s.matOk := (rfl)
@[simp] theorem clearDone_sboxValid (s : State) : (s.clearDone).sboxValid = s.sboxValid := (rfl)
@[simp] theorem clearDone_sboxBij (s : State) : (s.clearDone).sboxBij = s.sboxBij := (rfl)
@[simp] theorem clearDone_isboxValid (s : State) : (s.clearDone).isboxValid = s.isboxValid := (rfl)
@[simp] theorem clearDone_balOk (s : State) : (s.clearDone).balOk = s.balOk := (rfl)
@[simp] theorem clearDone_keyReady (s : State) : (s.clearDone).keyReady = s.keyReady := (rfl)
@[simp] theorem clearDone_wspecValid (s : State) : (s.clearDone).wspecValid = s.wspecValid := (rfl)
@[simp] theorem clearDone_ddtrValid (s : State) : (s.clearDone).ddtrValid = s.ddtrValid := (rfl)
@[simp] theorem clearDone_busyViol (s : State) : (s.clearDone).busyViol = s.busyViol := (rfl)
@[simp] theorem clearDone_result0 (s : State) : (s.clearDone).result0 = s.result0 := (rfl)
@[simp] theorem clearDone_result1 (s : State) : (s.clearDone).result1 = s.result1 := (rfl)
@[simp] theorem clearDone_errInfo (s : State) : (s.clearDone).errInfo = s.errInfo := (rfl)
@[simp] theorem clearDone_errAddr (s : State) : (s.clearDone).errAddr = s.errAddr := (rfl)
@[simp] theorem clearDone_doneIe (s : State) : (s.clearDone).doneIe = s.doneIe := (rfl)
@[simp] theorem clearDone_errIe (s : State) : (s.clearDone).errIe = s.errIe := (rfl)
@[simp] theorem clearDone_balTol (s : State) : (s.clearDone).balTol = s.balTol := (rfl)
@[simp] theorem clearDone_const (s : State) : (s.clearDone).const = s.const := (rfl)
@[simp] theorem clearDone_mrow (s : State) : (s.clearDone).mrow = s.mrow := (rfl)
@[simp] theorem clearDone_key (s : State) : (s.clearDone).key = s.key := (rfl)
@[simp] theorem clearDone_blk (s : State) : (s.clearDone).blk = s.blk := (rfl)
@[simp] theorem clearDone_balw (s : State) : (s.clearDone).balw = s.balw := (rfl)
@[simp] theorem clearDone_sbox (s : State) : (s.clearDone).sbox = s.sbox := (rfl)
@[simp] theorem clearDone_isbox (s : State) : (s.clearDone).isbox = s.isbox := (rfl)
@[simp] theorem clearDone_rk (s : State) : (s.clearDone).rk = s.rk := (rfl)
@[simp] theorem clearDone_wspec (s : State) : (s.clearDone).wspec = s.wspec := (rfl)
@[simp] theorem clearDone_ddtr (s : State) : (s.clearDone).ddtr = s.ddtr := (rfl)
@[simp] theorem clearDone_host (s : State) : (s.clearDone).host = s.host := (rfl)
@[simp] theorem clearDone_turns (s : State) : (s.clearDone).turns = s.turns := (rfl)
@[simp] theorem clearDone_draws (s : State) : (s.clearDone).draws = s.draws := (rfl)

@[simp] theorem clearErrors_pcmd (s : State) : (s.clearErrors).pcmd = s.pcmd := (rfl)
@[simp] theorem clearErrors_busy (s : State) : (s.clearErrors).busy = s.busy := (rfl)
@[simp] theorem clearErrors_done (s : State) : (s.clearErrors).done = s.done := (rfl)
@[simp] theorem clearErrors_err (s : State) : (s.clearErrors).err = s.err := (rfl)
@[simp] theorem clearErrors_esticky (s : State) : (s.clearErrors).esticky = false := (rfl)
@[simp] theorem clearErrors_errCode (s : State) : (s.clearErrors).errCode = s.errCode := (rfl)
@[simp] theorem clearErrors_matOk (s : State) : (s.clearErrors).matOk = s.matOk := (rfl)
@[simp] theorem clearErrors_sboxValid (s : State) : (s.clearErrors).sboxValid = s.sboxValid := (rfl)
@[simp] theorem clearErrors_sboxBij (s : State) : (s.clearErrors).sboxBij = s.sboxBij := (rfl)
@[simp] theorem clearErrors_isboxValid (s : State) : (s.clearErrors).isboxValid = s.isboxValid := (rfl)
@[simp] theorem clearErrors_balOk (s : State) : (s.clearErrors).balOk = s.balOk := (rfl)
@[simp] theorem clearErrors_keyReady (s : State) : (s.clearErrors).keyReady = s.keyReady := (rfl)
@[simp] theorem clearErrors_wspecValid (s : State) : (s.clearErrors).wspecValid = s.wspecValid := (rfl)
@[simp] theorem clearErrors_ddtrValid (s : State) : (s.clearErrors).ddtrValid = s.ddtrValid := (rfl)
@[simp] theorem clearErrors_busyViol (s : State) : (s.clearErrors).busyViol = false := (rfl)
@[simp] theorem clearErrors_result0 (s : State) : (s.clearErrors).result0 = s.result0 := (rfl)
@[simp] theorem clearErrors_result1 (s : State) : (s.clearErrors).result1 = s.result1 := (rfl)
@[simp] theorem clearErrors_errInfo (s : State) : (s.clearErrors).errInfo = s.errInfo := (rfl)
@[simp] theorem clearErrors_errAddr (s : State) : (s.clearErrors).errAddr = s.errAddr := (rfl)
@[simp] theorem clearErrors_doneIe (s : State) : (s.clearErrors).doneIe = s.doneIe := (rfl)
@[simp] theorem clearErrors_errIe (s : State) : (s.clearErrors).errIe = s.errIe := (rfl)
@[simp] theorem clearErrors_balTol (s : State) : (s.clearErrors).balTol = s.balTol := (rfl)
@[simp] theorem clearErrors_const (s : State) : (s.clearErrors).const = s.const := (rfl)
@[simp] theorem clearErrors_mrow (s : State) : (s.clearErrors).mrow = s.mrow := (rfl)
@[simp] theorem clearErrors_key (s : State) : (s.clearErrors).key = s.key := (rfl)
@[simp] theorem clearErrors_blk (s : State) : (s.clearErrors).blk = s.blk := (rfl)
@[simp] theorem clearErrors_balw (s : State) : (s.clearErrors).balw = s.balw := (rfl)
@[simp] theorem clearErrors_sbox (s : State) : (s.clearErrors).sbox = s.sbox := (rfl)
@[simp] theorem clearErrors_isbox (s : State) : (s.clearErrors).isbox = s.isbox := (rfl)
@[simp] theorem clearErrors_rk (s : State) : (s.clearErrors).rk = s.rk := (rfl)
@[simp] theorem clearErrors_wspec (s : State) : (s.clearErrors).wspec = s.wspec := (rfl)
@[simp] theorem clearErrors_ddtr (s : State) : (s.clearErrors).ddtr = s.ddtr := (rfl)
@[simp] theorem clearErrors_host (s : State) : (s.clearErrors).host = s.host := (rfl)
@[simp] theorem clearErrors_turns (s : State) : (s.clearErrors).turns = s.turns := (rfl)
@[simp] theorem clearErrors_draws (s : State) : (s.clearErrors).draws = s.draws := (rfl)

@[simp] theorem refuseWrite_pcmd (s : State) (off : Offset) : (s.refuseWrite off).pcmd = s.pcmd := (rfl)
@[simp] theorem refuseWrite_busy (s : State) (off : Offset) : (s.refuseWrite off).busy = s.busy := (rfl)
@[simp] theorem refuseWrite_done (s : State) (off : Offset) : (s.refuseWrite off).done = s.done := (rfl)
@[simp] theorem refuseWrite_err (s : State) (off : Offset) : (s.refuseWrite off).err = s.err := (rfl)
@[simp] theorem refuseWrite_esticky (s : State) (off : Offset) : (s.refuseWrite off).esticky = true := (rfl)
@[simp] theorem refuseWrite_errCode (s : State) (off : Offset) : (s.refuseWrite off).errCode = s.errCode := (rfl)
@[simp] theorem refuseWrite_matOk (s : State) (off : Offset) : (s.refuseWrite off).matOk = s.matOk := (rfl)
@[simp] theorem refuseWrite_sboxValid (s : State) (off : Offset) : (s.refuseWrite off).sboxValid = s.sboxValid := (rfl)
@[simp] theorem refuseWrite_sboxBij (s : State) (off : Offset) : (s.refuseWrite off).sboxBij = s.sboxBij := (rfl)
@[simp] theorem refuseWrite_isboxValid (s : State) (off : Offset) : (s.refuseWrite off).isboxValid = s.isboxValid := (rfl)
@[simp] theorem refuseWrite_balOk (s : State) (off : Offset) : (s.refuseWrite off).balOk = s.balOk := (rfl)
@[simp] theorem refuseWrite_keyReady (s : State) (off : Offset) : (s.refuseWrite off).keyReady = s.keyReady := (rfl)
@[simp] theorem refuseWrite_wspecValid (s : State) (off : Offset) : (s.refuseWrite off).wspecValid = s.wspecValid := (rfl)
@[simp] theorem refuseWrite_ddtrValid (s : State) (off : Offset) : (s.refuseWrite off).ddtrValid = s.ddtrValid := (rfl)
@[simp] theorem refuseWrite_busyViol (s : State) (off : Offset) : (s.refuseWrite off).busyViol = true := (rfl)
@[simp] theorem refuseWrite_result0 (s : State) (off : Offset) : (s.refuseWrite off).result0 = s.result0 := (rfl)
@[simp] theorem refuseWrite_result1 (s : State) (off : Offset) : (s.refuseWrite off).result1 = s.result1 := (rfl)
@[simp] theorem refuseWrite_errInfo (s : State) (off : Offset) : (s.refuseWrite off).errInfo = s.errInfo := (rfl)
@[simp] theorem refuseWrite_errAddr (s : State) (off : Offset) : (s.refuseWrite off).errAddr = off &&& 0xFFC := (rfl)
@[simp] theorem refuseWrite_doneIe (s : State) (off : Offset) : (s.refuseWrite off).doneIe = s.doneIe := (rfl)
@[simp] theorem refuseWrite_errIe (s : State) (off : Offset) : (s.refuseWrite off).errIe = s.errIe := (rfl)
@[simp] theorem refuseWrite_balTol (s : State) (off : Offset) : (s.refuseWrite off).balTol = s.balTol := (rfl)
@[simp] theorem refuseWrite_const (s : State) (off : Offset) : (s.refuseWrite off).const = s.const := (rfl)
@[simp] theorem refuseWrite_mrow (s : State) (off : Offset) : (s.refuseWrite off).mrow = s.mrow := (rfl)
@[simp] theorem refuseWrite_key (s : State) (off : Offset) : (s.refuseWrite off).key = s.key := (rfl)
@[simp] theorem refuseWrite_blk (s : State) (off : Offset) : (s.refuseWrite off).blk = s.blk := (rfl)
@[simp] theorem refuseWrite_balw (s : State) (off : Offset) : (s.refuseWrite off).balw = s.balw := (rfl)
@[simp] theorem refuseWrite_sbox (s : State) (off : Offset) : (s.refuseWrite off).sbox = s.sbox := (rfl)
@[simp] theorem refuseWrite_isbox (s : State) (off : Offset) : (s.refuseWrite off).isbox = s.isbox := (rfl)
@[simp] theorem refuseWrite_rk (s : State) (off : Offset) : (s.refuseWrite off).rk = s.rk := (rfl)
@[simp] theorem refuseWrite_wspec (s : State) (off : Offset) : (s.refuseWrite off).wspec = s.wspec := (rfl)
@[simp] theorem refuseWrite_ddtr (s : State) (off : Offset) : (s.refuseWrite off).ddtr = s.ddtr := (rfl)
@[simp] theorem refuseWrite_host (s : State) (off : Offset) : (s.refuseWrite off).host = s.host := (rfl)
@[simp] theorem refuseWrite_turns (s : State) (off : Offset) : (s.refuseWrite off).turns = s.turns := (rfl)
@[simp] theorem refuseWrite_draws (s : State) (off : Offset) : (s.refuseWrite off).draws = s.draws := (rfl)

@[simp] theorem checkTable_pcmd (s : State) (t : Table) : (s.checkTable t).pcmd = s.pcmd := (rfl)
@[simp] theorem checkTable_busy (s : State) (t : Table) : (s.checkTable t).busy = s.busy := (rfl)
@[simp] theorem checkTable_done (s : State) (t : Table) : (s.checkTable t).done = s.done := (rfl)
@[simp] theorem checkTable_err (s : State) (t : Table) : (s.checkTable t).err = s.err := (rfl)
@[simp] theorem checkTable_esticky (s : State) (t : Table) : (s.checkTable t).esticky = s.esticky := (rfl)
@[simp] theorem checkTable_errCode (s : State) (t : Table) : (s.checkTable t).errCode = s.errCode := (rfl)
@[simp] theorem checkTable_matOk (s : State) (t : Table) : (s.checkTable t).matOk = s.matOk := (rfl)
@[simp] theorem checkTable_sboxValid (s : State) (t : Table) : (s.checkTable t).sboxValid = s.sboxValid := (rfl)
@[simp] theorem checkTable_sboxBij (s : State) (t : Table) : (s.checkTable t).sboxBij = bijective t := (rfl)
@[simp] theorem checkTable_isboxValid (s : State) (t : Table) : (s.checkTable t).isboxValid = bijective t := (rfl)
@[simp] theorem checkTable_balOk (s : State) (t : Table) : (s.checkTable t).balOk = balanced s.balTol t := (rfl)
@[simp] theorem checkTable_keyReady (s : State) (t : Table) : (s.checkTable t).keyReady = s.keyReady := (rfl)
@[simp] theorem checkTable_wspecValid (s : State) (t : Table) : (s.checkTable t).wspecValid = s.wspecValid := (rfl)
@[simp] theorem checkTable_ddtrValid (s : State) (t : Table) : (s.checkTable t).ddtrValid = s.ddtrValid := (rfl)
@[simp] theorem checkTable_busyViol (s : State) (t : Table) : (s.checkTable t).busyViol = s.busyViol := (rfl)
@[simp] theorem checkTable_result0 (s : State) (t : Table) : (s.checkTable t).result0 = BitVec.ofNat 32 (distinctCount t) := (rfl)
@[simp] theorem checkTable_result1 (s : State) (t : Table) : (s.checkTable t).result1 = firstMissing t := (rfl)
@[simp] theorem checkTable_errInfo (s : State) (t : Table) : (s.checkTable t).errInfo = s.errInfo := (rfl)
@[simp] theorem checkTable_errAddr (s : State) (t : Table) : (s.checkTable t).errAddr = s.errAddr := (rfl)
@[simp] theorem checkTable_doneIe (s : State) (t : Table) : (s.checkTable t).doneIe = s.doneIe := (rfl)
@[simp] theorem checkTable_errIe (s : State) (t : Table) : (s.checkTable t).errIe = s.errIe := (rfl)
@[simp] theorem checkTable_balTol (s : State) (t : Table) : (s.checkTable t).balTol = s.balTol := (rfl)
@[simp] theorem checkTable_const (s : State) (t : Table) : (s.checkTable t).const = s.const := (rfl)
@[simp] theorem checkTable_mrow (s : State) (t : Table) : (s.checkTable t).mrow = s.mrow := (rfl)
@[simp] theorem checkTable_key (s : State) (t : Table) : (s.checkTable t).key = s.key := (rfl)
@[simp] theorem checkTable_blk (s : State) (t : Table) : (s.checkTable t).blk = s.blk := (rfl)
@[simp] theorem checkTable_balw (s : State) (t : Table) : (s.checkTable t).balw = columnWeights t := (rfl)
@[simp] theorem checkTable_sbox (s : State) (t : Table) : (s.checkTable t).sbox = s.sbox := (rfl)
@[simp] theorem checkTable_isbox (s : State) (t : Table) : (s.checkTable t).isbox = (if bijective t then written (inverseTable t) else s.isbox) := (rfl)
@[simp] theorem checkTable_rk (s : State) (t : Table) : (s.checkTable t).rk = s.rk := (rfl)
@[simp] theorem checkTable_wspec (s : State) (t : Table) : (s.checkTable t).wspec = s.wspec := (rfl)
@[simp] theorem checkTable_ddtr (s : State) (t : Table) : (s.checkTable t).ddtr = s.ddtr := (rfl)
@[simp] theorem checkTable_host (s : State) (t : Table) : (s.checkTable t).host = s.host := (rfl)
@[simp] theorem checkTable_turns (s : State) (t : Table) : (s.checkTable t).turns = s.turns := (rfl)
@[simp] theorem checkTable_draws (s : State) (t : Table) : (s.checkTable t).draws = s.draws := (rfl)

@[simp] theorem scratchWspec_pcmd (s : State) : (s.scratchWspec).pcmd = s.pcmd := (rfl)
@[simp] theorem scratchWspec_busy (s : State) : (s.scratchWspec).busy = s.busy := (rfl)
@[simp] theorem scratchWspec_done (s : State) : (s.scratchWspec).done = s.done := (rfl)
@[simp] theorem scratchWspec_err (s : State) : (s.scratchWspec).err = s.err := (rfl)
@[simp] theorem scratchWspec_esticky (s : State) : (s.scratchWspec).esticky = s.esticky := (rfl)
@[simp] theorem scratchWspec_errCode (s : State) : (s.scratchWspec).errCode = s.errCode := (rfl)
@[simp] theorem scratchWspec_matOk (s : State) : (s.scratchWspec).matOk = s.matOk := (rfl)
@[simp] theorem scratchWspec_sboxValid (s : State) : (s.scratchWspec).sboxValid = s.sboxValid := (rfl)
@[simp] theorem scratchWspec_sboxBij (s : State) : (s.scratchWspec).sboxBij = s.sboxBij := (rfl)
@[simp] theorem scratchWspec_isboxValid (s : State) : (s.scratchWspec).isboxValid = s.isboxValid := (rfl)
@[simp] theorem scratchWspec_balOk (s : State) : (s.scratchWspec).balOk = s.balOk := (rfl)
@[simp] theorem scratchWspec_keyReady (s : State) : (s.scratchWspec).keyReady = s.keyReady := (rfl)
@[simp] theorem scratchWspec_wspecValid (s : State) : (s.scratchWspec).wspecValid = false := (rfl)
@[simp] theorem scratchWspec_ddtrValid (s : State) : (s.scratchWspec).ddtrValid = s.ddtrValid := (rfl)
@[simp] theorem scratchWspec_busyViol (s : State) : (s.scratchWspec).busyViol = s.busyViol := (rfl)
@[simp] theorem scratchWspec_result0 (s : State) : (s.scratchWspec).result0 = s.result0 := (rfl)
@[simp] theorem scratchWspec_result1 (s : State) : (s.scratchWspec).result1 = s.result1 := (rfl)
@[simp] theorem scratchWspec_errInfo (s : State) : (s.scratchWspec).errInfo = s.errInfo := (rfl)
@[simp] theorem scratchWspec_errAddr (s : State) : (s.scratchWspec).errAddr = s.errAddr := (rfl)
@[simp] theorem scratchWspec_doneIe (s : State) : (s.scratchWspec).doneIe = s.doneIe := (rfl)
@[simp] theorem scratchWspec_errIe (s : State) : (s.scratchWspec).errIe = s.errIe := (rfl)
@[simp] theorem scratchWspec_balTol (s : State) : (s.scratchWspec).balTol = s.balTol := (rfl)
@[simp] theorem scratchWspec_const (s : State) : (s.scratchWspec).const = s.const := (rfl)
@[simp] theorem scratchWspec_mrow (s : State) : (s.scratchWspec).mrow = s.mrow := (rfl)
@[simp] theorem scratchWspec_key (s : State) : (s.scratchWspec).key = s.key := (rfl)
@[simp] theorem scratchWspec_blk (s : State) : (s.scratchWspec).blk = s.blk := (rfl)
@[simp] theorem scratchWspec_balw (s : State) : (s.scratchWspec).balw = s.balw := (rfl)
@[simp] theorem scratchWspec_sbox (s : State) : (s.scratchWspec).sbox = s.sbox := (rfl)
@[simp] theorem scratchWspec_isbox (s : State) : (s.scratchWspec).isbox = s.isbox := (rfl)
@[simp] theorem scratchWspec_rk (s : State) : (s.scratchWspec).rk = s.rk := (rfl)
@[simp] theorem scratchWspec_wspec (s : State) : (s.scratchWspec).wspec = unwritten := (rfl)
@[simp] theorem scratchWspec_ddtr (s : State) : (s.scratchWspec).ddtr = s.ddtr := (rfl)
@[simp] theorem scratchWspec_host (s : State) : (s.scratchWspec).host = s.host := (rfl)
@[simp] theorem scratchWspec_turns (s : State) : (s.scratchWspec).turns = s.turns := (rfl)
@[simp] theorem scratchWspec_draws (s : State) : (s.scratchWspec).draws = s.draws := (rfl)

@[simp] theorem scratchDdtr_pcmd (s : State) : (s.scratchDdtr).pcmd = s.pcmd := (rfl)
@[simp] theorem scratchDdtr_busy (s : State) : (s.scratchDdtr).busy = s.busy := (rfl)
@[simp] theorem scratchDdtr_done (s : State) : (s.scratchDdtr).done = s.done := (rfl)
@[simp] theorem scratchDdtr_err (s : State) : (s.scratchDdtr).err = s.err := (rfl)
@[simp] theorem scratchDdtr_esticky (s : State) : (s.scratchDdtr).esticky = s.esticky := (rfl)
@[simp] theorem scratchDdtr_errCode (s : State) : (s.scratchDdtr).errCode = s.errCode := (rfl)
@[simp] theorem scratchDdtr_matOk (s : State) : (s.scratchDdtr).matOk = s.matOk := (rfl)
@[simp] theorem scratchDdtr_sboxValid (s : State) : (s.scratchDdtr).sboxValid = s.sboxValid := (rfl)
@[simp] theorem scratchDdtr_sboxBij (s : State) : (s.scratchDdtr).sboxBij = s.sboxBij := (rfl)
@[simp] theorem scratchDdtr_isboxValid (s : State) : (s.scratchDdtr).isboxValid = s.isboxValid := (rfl)
@[simp] theorem scratchDdtr_balOk (s : State) : (s.scratchDdtr).balOk = s.balOk := (rfl)
@[simp] theorem scratchDdtr_keyReady (s : State) : (s.scratchDdtr).keyReady = s.keyReady := (rfl)
@[simp] theorem scratchDdtr_wspecValid (s : State) : (s.scratchDdtr).wspecValid = s.wspecValid := (rfl)
@[simp] theorem scratchDdtr_ddtrValid (s : State) : (s.scratchDdtr).ddtrValid = false := (rfl)
@[simp] theorem scratchDdtr_busyViol (s : State) : (s.scratchDdtr).busyViol = s.busyViol := (rfl)
@[simp] theorem scratchDdtr_result0 (s : State) : (s.scratchDdtr).result0 = s.result0 := (rfl)
@[simp] theorem scratchDdtr_result1 (s : State) : (s.scratchDdtr).result1 = s.result1 := (rfl)
@[simp] theorem scratchDdtr_errInfo (s : State) : (s.scratchDdtr).errInfo = s.errInfo := (rfl)
@[simp] theorem scratchDdtr_errAddr (s : State) : (s.scratchDdtr).errAddr = s.errAddr := (rfl)
@[simp] theorem scratchDdtr_doneIe (s : State) : (s.scratchDdtr).doneIe = s.doneIe := (rfl)
@[simp] theorem scratchDdtr_errIe (s : State) : (s.scratchDdtr).errIe = s.errIe := (rfl)
@[simp] theorem scratchDdtr_balTol (s : State) : (s.scratchDdtr).balTol = s.balTol := (rfl)
@[simp] theorem scratchDdtr_const (s : State) : (s.scratchDdtr).const = s.const := (rfl)
@[simp] theorem scratchDdtr_mrow (s : State) : (s.scratchDdtr).mrow = s.mrow := (rfl)
@[simp] theorem scratchDdtr_key (s : State) : (s.scratchDdtr).key = s.key := (rfl)
@[simp] theorem scratchDdtr_blk (s : State) : (s.scratchDdtr).blk = s.blk := (rfl)
@[simp] theorem scratchDdtr_balw (s : State) : (s.scratchDdtr).balw = s.balw := (rfl)
@[simp] theorem scratchDdtr_sbox (s : State) : (s.scratchDdtr).sbox = s.sbox := (rfl)
@[simp] theorem scratchDdtr_isbox (s : State) : (s.scratchDdtr).isbox = s.isbox := (rfl)
@[simp] theorem scratchDdtr_rk (s : State) : (s.scratchDdtr).rk = s.rk := (rfl)
@[simp] theorem scratchDdtr_wspec (s : State) : (s.scratchDdtr).wspec = s.wspec := (rfl)
@[simp] theorem scratchDdtr_ddtr (s : State) : (s.scratchDdtr).ddtr = unwritten := (rfl)
@[simp] theorem scratchDdtr_host (s : State) : (s.scratchDdtr).host = s.host := (rfl)
@[simp] theorem scratchDdtr_turns (s : State) : (s.scratchDdtr).turns = s.turns := (rfl)
@[simp] theorem scratchDdtr_draws (s : State) : (s.scratchDdtr).draws = s.draws := (rfl)

@[simp] theorem nextLine_pcmd (s : State) : (s.nextLine).pcmd = s.pcmd := (rfl)
@[simp] theorem nextLine_busy (s : State) : (s.nextLine).busy = s.busy := (rfl)
@[simp] theorem nextLine_done (s : State) : (s.nextLine).done = s.done := (rfl)
@[simp] theorem nextLine_err (s : State) : (s.nextLine).err = s.err := (rfl)
@[simp] theorem nextLine_esticky (s : State) : (s.nextLine).esticky = s.esticky := (rfl)
@[simp] theorem nextLine_errCode (s : State) : (s.nextLine).errCode = s.errCode := (rfl)
@[simp] theorem nextLine_matOk (s : State) : (s.nextLine).matOk = s.matOk := (rfl)
@[simp] theorem nextLine_sboxValid (s : State) : (s.nextLine).sboxValid = s.sboxValid := (rfl)
@[simp] theorem nextLine_sboxBij (s : State) : (s.nextLine).sboxBij = s.sboxBij := (rfl)
@[simp] theorem nextLine_isboxValid (s : State) : (s.nextLine).isboxValid = s.isboxValid := (rfl)
@[simp] theorem nextLine_balOk (s : State) : (s.nextLine).balOk = s.balOk := (rfl)
@[simp] theorem nextLine_keyReady (s : State) : (s.nextLine).keyReady = s.keyReady := (rfl)
@[simp] theorem nextLine_wspecValid (s : State) : (s.nextLine).wspecValid = s.wspecValid := (rfl)
@[simp] theorem nextLine_ddtrValid (s : State) : (s.nextLine).ddtrValid = s.ddtrValid := (rfl)
@[simp] theorem nextLine_busyViol (s : State) : (s.nextLine).busyViol = s.busyViol := (rfl)
@[simp] theorem nextLine_result0 (s : State) : (s.nextLine).result0 = s.result0 := (rfl)
@[simp] theorem nextLine_result1 (s : State) : (s.nextLine).result1 = s.result1 := (rfl)
@[simp] theorem nextLine_errInfo (s : State) : (s.nextLine).errInfo = s.errInfo := (rfl)
@[simp] theorem nextLine_errAddr (s : State) : (s.nextLine).errAddr = s.errAddr := (rfl)
@[simp] theorem nextLine_doneIe (s : State) : (s.nextLine).doneIe = s.doneIe := (rfl)
@[simp] theorem nextLine_errIe (s : State) : (s.nextLine).errIe = s.errIe := (rfl)
@[simp] theorem nextLine_balTol (s : State) : (s.nextLine).balTol = s.balTol := (rfl)
@[simp] theorem nextLine_const (s : State) : (s.nextLine).const = s.const := (rfl)
@[simp] theorem nextLine_mrow (s : State) : (s.nextLine).mrow = s.mrow := (rfl)
@[simp] theorem nextLine_key (s : State) : (s.nextLine).key = s.key := (rfl)
@[simp] theorem nextLine_blk (s : State) : (s.nextLine).blk = s.blk := (rfl)
@[simp] theorem nextLine_balw (s : State) : (s.nextLine).balw = s.balw := (rfl)
@[simp] theorem nextLine_sbox (s : State) : (s.nextLine).sbox = s.sbox := (rfl)
@[simp] theorem nextLine_isbox (s : State) : (s.nextLine).isbox = s.isbox := (rfl)
@[simp] theorem nextLine_rk (s : State) : (s.nextLine).rk = s.rk := (rfl)
@[simp] theorem nextLine_wspec (s : State) : (s.nextLine).wspec = s.wspec := (rfl)
@[simp] theorem nextLine_ddtr (s : State) : (s.nextLine).ddtr = s.ddtr := (rfl)
@[simp] theorem nextLine_host (s : State) : (s.nextLine).host = { s.host with pos := s.host.pos + 1 } := (rfl)
@[simp] theorem nextLine_turns (s : State) : (s.nextLine).turns = s.turns := (rfl)
@[simp] theorem nextLine_draws (s : State) : (s.nextLine).draws = s.draws := (rfl)

@[simp] theorem setHostVar_pcmd (s : State) (n : Nat) (v : Word) : (s.setHostVar n v).pcmd = s.pcmd := (rfl)
@[simp] theorem setHostVar_busy (s : State) (n : Nat) (v : Word) : (s.setHostVar n v).busy = s.busy := (rfl)
@[simp] theorem setHostVar_done (s : State) (n : Nat) (v : Word) : (s.setHostVar n v).done = s.done := (rfl)
@[simp] theorem setHostVar_err (s : State) (n : Nat) (v : Word) : (s.setHostVar n v).err = s.err := (rfl)
@[simp] theorem setHostVar_esticky (s : State) (n : Nat) (v : Word) : (s.setHostVar n v).esticky = s.esticky := (rfl)
@[simp] theorem setHostVar_errCode (s : State) (n : Nat) (v : Word) : (s.setHostVar n v).errCode = s.errCode := (rfl)
@[simp] theorem setHostVar_matOk (s : State) (n : Nat) (v : Word) : (s.setHostVar n v).matOk = s.matOk := (rfl)
@[simp] theorem setHostVar_sboxValid (s : State) (n : Nat) (v : Word) : (s.setHostVar n v).sboxValid = s.sboxValid := (rfl)
@[simp] theorem setHostVar_sboxBij (s : State) (n : Nat) (v : Word) : (s.setHostVar n v).sboxBij = s.sboxBij := (rfl)
@[simp] theorem setHostVar_isboxValid (s : State) (n : Nat) (v : Word) : (s.setHostVar n v).isboxValid = s.isboxValid := (rfl)
@[simp] theorem setHostVar_balOk (s : State) (n : Nat) (v : Word) : (s.setHostVar n v).balOk = s.balOk := (rfl)
@[simp] theorem setHostVar_keyReady (s : State) (n : Nat) (v : Word) : (s.setHostVar n v).keyReady = s.keyReady := (rfl)
@[simp] theorem setHostVar_wspecValid (s : State) (n : Nat) (v : Word) : (s.setHostVar n v).wspecValid = s.wspecValid := (rfl)
@[simp] theorem setHostVar_ddtrValid (s : State) (n : Nat) (v : Word) : (s.setHostVar n v).ddtrValid = s.ddtrValid := (rfl)
@[simp] theorem setHostVar_busyViol (s : State) (n : Nat) (v : Word) : (s.setHostVar n v).busyViol = s.busyViol := (rfl)
@[simp] theorem setHostVar_result0 (s : State) (n : Nat) (v : Word) : (s.setHostVar n v).result0 = s.result0 := (rfl)
@[simp] theorem setHostVar_result1 (s : State) (n : Nat) (v : Word) : (s.setHostVar n v).result1 = s.result1 := (rfl)
@[simp] theorem setHostVar_errInfo (s : State) (n : Nat) (v : Word) : (s.setHostVar n v).errInfo = s.errInfo := (rfl)
@[simp] theorem setHostVar_errAddr (s : State) (n : Nat) (v : Word) : (s.setHostVar n v).errAddr = s.errAddr := (rfl)
@[simp] theorem setHostVar_doneIe (s : State) (n : Nat) (v : Word) : (s.setHostVar n v).doneIe = s.doneIe := (rfl)
@[simp] theorem setHostVar_errIe (s : State) (n : Nat) (v : Word) : (s.setHostVar n v).errIe = s.errIe := (rfl)
@[simp] theorem setHostVar_balTol (s : State) (n : Nat) (v : Word) : (s.setHostVar n v).balTol = s.balTol := (rfl)
@[simp] theorem setHostVar_const (s : State) (n : Nat) (v : Word) : (s.setHostVar n v).const = s.const := (rfl)
@[simp] theorem setHostVar_mrow (s : State) (n : Nat) (v : Word) : (s.setHostVar n v).mrow = s.mrow := (rfl)
@[simp] theorem setHostVar_key (s : State) (n : Nat) (v : Word) : (s.setHostVar n v).key = s.key := (rfl)
@[simp] theorem setHostVar_blk (s : State) (n : Nat) (v : Word) : (s.setHostVar n v).blk = s.blk := (rfl)
@[simp] theorem setHostVar_balw (s : State) (n : Nat) (v : Word) : (s.setHostVar n v).balw = s.balw := (rfl)
@[simp] theorem setHostVar_sbox (s : State) (n : Nat) (v : Word) : (s.setHostVar n v).sbox = s.sbox := (rfl)
@[simp] theorem setHostVar_isbox (s : State) (n : Nat) (v : Word) : (s.setHostVar n v).isbox = s.isbox := (rfl)
@[simp] theorem setHostVar_rk (s : State) (n : Nat) (v : Word) : (s.setHostVar n v).rk = s.rk := (rfl)
@[simp] theorem setHostVar_wspec (s : State) (n : Nat) (v : Word) : (s.setHostVar n v).wspec = s.wspec := (rfl)
@[simp] theorem setHostVar_ddtr (s : State) (n : Nat) (v : Word) : (s.setHostVar n v).ddtr = s.ddtr := (rfl)
@[simp] theorem setHostVar_host (s : State) (n : Nat) (v : Word) : (s.setHostVar n v).host = { s.host with vars := setVar s.host.vars n v } := (rfl)
@[simp] theorem setHostVar_turns (s : State) (n : Nat) (v : Word) : (s.setHostVar n v).turns = s.turns := (rfl)
@[simp] theorem setHostVar_draws (s : State) (n : Nat) (v : Word) : (s.setHostVar n v).draws = s.draws := (rfl)

@[simp] theorem popTurn_pcmd (s : State) : (s.popTurn).pcmd = s.pcmd := (rfl)
@[simp] theorem popTurn_busy (s : State) : (s.popTurn).busy = s.busy := (rfl)
@[simp] theorem popTurn_done (s : State) : (s.popTurn).done = s.done := (rfl)
@[simp] theorem popTurn_err (s : State) : (s.popTurn).err = s.err := (rfl)
@[simp] theorem popTurn_esticky (s : State) : (s.popTurn).esticky = s.esticky := (rfl)
@[simp] theorem popTurn_errCode (s : State) : (s.popTurn).errCode = s.errCode := (rfl)
@[simp] theorem popTurn_matOk (s : State) : (s.popTurn).matOk = s.matOk := (rfl)
@[simp] theorem popTurn_sboxValid (s : State) : (s.popTurn).sboxValid = s.sboxValid := (rfl)
@[simp] theorem popTurn_sboxBij (s : State) : (s.popTurn).sboxBij = s.sboxBij := (rfl)
@[simp] theorem popTurn_isboxValid (s : State) : (s.popTurn).isboxValid = s.isboxValid := (rfl)
@[simp] theorem popTurn_balOk (s : State) : (s.popTurn).balOk = s.balOk := (rfl)
@[simp] theorem popTurn_keyReady (s : State) : (s.popTurn).keyReady = s.keyReady := (rfl)
@[simp] theorem popTurn_wspecValid (s : State) : (s.popTurn).wspecValid = s.wspecValid := (rfl)
@[simp] theorem popTurn_ddtrValid (s : State) : (s.popTurn).ddtrValid = s.ddtrValid := (rfl)
@[simp] theorem popTurn_busyViol (s : State) : (s.popTurn).busyViol = s.busyViol := (rfl)
@[simp] theorem popTurn_result0 (s : State) : (s.popTurn).result0 = s.result0 := (rfl)
@[simp] theorem popTurn_result1 (s : State) : (s.popTurn).result1 = s.result1 := (rfl)
@[simp] theorem popTurn_errInfo (s : State) : (s.popTurn).errInfo = s.errInfo := (rfl)
@[simp] theorem popTurn_errAddr (s : State) : (s.popTurn).errAddr = s.errAddr := (rfl)
@[simp] theorem popTurn_doneIe (s : State) : (s.popTurn).doneIe = s.doneIe := (rfl)
@[simp] theorem popTurn_errIe (s : State) : (s.popTurn).errIe = s.errIe := (rfl)
@[simp] theorem popTurn_balTol (s : State) : (s.popTurn).balTol = s.balTol := (rfl)
@[simp] theorem popTurn_const (s : State) : (s.popTurn).const = s.const := (rfl)
@[simp] theorem popTurn_mrow (s : State) : (s.popTurn).mrow = s.mrow := (rfl)
@[simp] theorem popTurn_key (s : State) : (s.popTurn).key = s.key := (rfl)
@[simp] theorem popTurn_blk (s : State) : (s.popTurn).blk = s.blk := (rfl)
@[simp] theorem popTurn_balw (s : State) : (s.popTurn).balw = s.balw := (rfl)
@[simp] theorem popTurn_sbox (s : State) : (s.popTurn).sbox = s.sbox := (rfl)
@[simp] theorem popTurn_isbox (s : State) : (s.popTurn).isbox = s.isbox := (rfl)
@[simp] theorem popTurn_rk (s : State) : (s.popTurn).rk = s.rk := (rfl)
@[simp] theorem popTurn_wspec (s : State) : (s.popTurn).wspec = s.wspec := (rfl)
@[simp] theorem popTurn_ddtr (s : State) : (s.popTurn).ddtr = s.ddtr := (rfl)
@[simp] theorem popTurn_host (s : State) : (s.popTurn).host = s.host := (rfl)
@[simp] theorem popTurn_turns (s : State) : (s.popTurn).turns = s.turns.tail := (rfl)
@[simp] theorem popTurn_draws (s : State) : (s.popTurn).draws = s.draws := (rfl)

@[simp] theorem resetBlock_pcmd (s : State) : s.resetBlock.pcmd = State.reset.pcmd := (rfl)
@[simp] theorem resetBlock_busy (s : State) : s.resetBlock.busy = State.reset.busy := (rfl)
@[simp] theorem resetBlock_done (s : State) : s.resetBlock.done = State.reset.done := (rfl)
@[simp] theorem resetBlock_err (s : State) : s.resetBlock.err = State.reset.err := (rfl)
@[simp] theorem resetBlock_esticky (s : State) : s.resetBlock.esticky = State.reset.esticky := (rfl)
@[simp] theorem resetBlock_errCode (s : State) : s.resetBlock.errCode = State.reset.errCode := (rfl)
@[simp] theorem resetBlock_matOk (s : State) : s.resetBlock.matOk = State.reset.matOk := (rfl)
@[simp] theorem resetBlock_sboxValid (s : State) : s.resetBlock.sboxValid = State.reset.sboxValid := (rfl)
@[simp] theorem resetBlock_sboxBij (s : State) : s.resetBlock.sboxBij = State.reset.sboxBij := (rfl)
@[simp] theorem resetBlock_isboxValid (s : State) : s.resetBlock.isboxValid = State.reset.isboxValid := (rfl)
@[simp] theorem resetBlock_balOk (s : State) : s.resetBlock.balOk = State.reset.balOk := (rfl)
@[simp] theorem resetBlock_keyReady (s : State) : s.resetBlock.keyReady = State.reset.keyReady := (rfl)
@[simp] theorem resetBlock_wspecValid (s : State) : s.resetBlock.wspecValid = State.reset.wspecValid := (rfl)
@[simp] theorem resetBlock_ddtrValid (s : State) : s.resetBlock.ddtrValid = State.reset.ddtrValid := (rfl)
@[simp] theorem resetBlock_busyViol (s : State) : s.resetBlock.busyViol = State.reset.busyViol := (rfl)
@[simp] theorem resetBlock_result0 (s : State) : s.resetBlock.result0 = State.reset.result0 := (rfl)
@[simp] theorem resetBlock_result1 (s : State) : s.resetBlock.result1 = State.reset.result1 := (rfl)
@[simp] theorem resetBlock_errInfo (s : State) : s.resetBlock.errInfo = State.reset.errInfo := (rfl)
@[simp] theorem resetBlock_errAddr (s : State) : s.resetBlock.errAddr = State.reset.errAddr := (rfl)
@[simp] theorem resetBlock_doneIe (s : State) : s.resetBlock.doneIe = State.reset.doneIe := (rfl)
@[simp] theorem resetBlock_errIe (s : State) : s.resetBlock.errIe = State.reset.errIe := (rfl)
@[simp] theorem resetBlock_balTol (s : State) : s.resetBlock.balTol = State.reset.balTol := (rfl)
@[simp] theorem resetBlock_const (s : State) : s.resetBlock.const = State.reset.const := (rfl)
@[simp] theorem resetBlock_mrow (s : State) : s.resetBlock.mrow = State.reset.mrow := (rfl)
@[simp] theorem resetBlock_key (s : State) : s.resetBlock.key = State.reset.key := (rfl)
@[simp] theorem resetBlock_blk (s : State) : s.resetBlock.blk = State.reset.blk := (rfl)
@[simp] theorem resetBlock_balw (s : State) : s.resetBlock.balw = State.reset.balw := (rfl)
@[simp] theorem resetBlock_sbox (s : State) : s.resetBlock.sbox = State.reset.sbox := (rfl)
@[simp] theorem resetBlock_isbox (s : State) : s.resetBlock.isbox = State.reset.isbox := (rfl)
@[simp] theorem resetBlock_rk (s : State) : s.resetBlock.rk = State.reset.rk := (rfl)
@[simp] theorem resetBlock_wspec (s : State) : s.resetBlock.wspec = State.reset.wspec := (rfl)
@[simp] theorem resetBlock_ddtr (s : State) : s.resetBlock.ddtr = State.reset.ddtr := (rfl)
@[simp] theorem resetBlock_host (s : State) : s.resetBlock.host = s.host := (rfl)
@[simp] theorem resetBlock_turns (s : State) : s.resetBlock.turns = s.turns := (rfl)
@[simp] theorem resetBlock_draws (s : State) : s.resetBlock.draws = s.draws := (rfl)
@[simp] theorem writeMat_pcmd (s : State) (k : Nat) (v : Word) : (writeMat k v s).pcmd = s.pcmd := (rfl)
@[simp] theorem writeMat_busy (s : State) (k : Nat) (v : Word) : (writeMat k v s).busy = s.busy := (rfl)
@[simp] theorem writeMat_done (s : State) (k : Nat) (v : Word) : (writeMat k v s).done = s.done := (rfl)
@[simp] theorem writeMat_err (s : State) (k : Nat) (v : Word) : (writeMat k v s).err = s.err := (rfl)
@[simp] theorem writeMat_esticky (s : State) (k : Nat) (v : Word) : (writeMat k v s).esticky = s.esticky := (rfl)
@[simp] theorem writeMat_errCode (s : State) (k : Nat) (v : Word) : (writeMat k v s).errCode = s.errCode := (rfl)
@[simp] theorem writeMat_matOk (s : State) (k : Nat) (v : Word) : (writeMat k v s).matOk = false := (rfl)
@[simp] theorem writeMat_sboxValid (s : State) (k : Nat) (v : Word) : (writeMat k v s).sboxValid = s.sboxValid := (rfl)
@[simp] theorem writeMat_sboxBij (s : State) (k : Nat) (v : Word) : (writeMat k v s).sboxBij = s.sboxBij := (rfl)
@[simp] theorem writeMat_isboxValid (s : State) (k : Nat) (v : Word) : (writeMat k v s).isboxValid = s.isboxValid := (rfl)
@[simp] theorem writeMat_balOk (s : State) (k : Nat) (v : Word) : (writeMat k v s).balOk = s.balOk := (rfl)
@[simp] theorem writeMat_keyReady (s : State) (k : Nat) (v : Word) : (writeMat k v s).keyReady = s.keyReady := (rfl)
@[simp] theorem writeMat_wspecValid (s : State) (k : Nat) (v : Word) : (writeMat k v s).wspecValid = s.wspecValid := (rfl)
@[simp] theorem writeMat_ddtrValid (s : State) (k : Nat) (v : Word) : (writeMat k v s).ddtrValid = s.ddtrValid := (rfl)
@[simp] theorem writeMat_busyViol (s : State) (k : Nat) (v : Word) : (writeMat k v s).busyViol = s.busyViol := (rfl)
@[simp] theorem writeMat_result0 (s : State) (k : Nat) (v : Word) : (writeMat k v s).result0 = s.result0 := (rfl)
@[simp] theorem writeMat_result1 (s : State) (k : Nat) (v : Word) : (writeMat k v s).result1 = s.result1 := (rfl)
@[simp] theorem writeMat_errInfo (s : State) (k : Nat) (v : Word) : (writeMat k v s).errInfo = s.errInfo := (rfl)
@[simp] theorem writeMat_errAddr (s : State) (k : Nat) (v : Word) : (writeMat k v s).errAddr = s.errAddr := (rfl)
@[simp] theorem writeMat_doneIe (s : State) (k : Nat) (v : Word) : (writeMat k v s).doneIe = s.doneIe := (rfl)
@[simp] theorem writeMat_errIe (s : State) (k : Nat) (v : Word) : (writeMat k v s).errIe = s.errIe := (rfl)
@[simp] theorem writeMat_balTol (s : State) (k : Nat) (v : Word) : (writeMat k v s).balTol = s.balTol := (rfl)
@[simp] theorem writeMat_const (s : State) (k : Nat) (v : Word) : (writeMat k v s).const = s.const := (rfl)
@[simp] theorem writeMat_mrow (s : State) (k : Nat) (v : Word) : (writeMat k v s).mrow = putWord s.mrow k v := (rfl)
@[simp] theorem writeMat_key (s : State) (k : Nat) (v : Word) : (writeMat k v s).key = s.key := (rfl)
@[simp] theorem writeMat_blk (s : State) (k : Nat) (v : Word) : (writeMat k v s).blk = s.blk := (rfl)
@[simp] theorem writeMat_balw (s : State) (k : Nat) (v : Word) : (writeMat k v s).balw = s.balw := (rfl)
@[simp] theorem writeMat_sbox (s : State) (k : Nat) (v : Word) : (writeMat k v s).sbox = s.sbox := (rfl)
@[simp] theorem writeMat_isbox (s : State) (k : Nat) (v : Word) : (writeMat k v s).isbox = s.isbox := (rfl)
@[simp] theorem writeMat_rk (s : State) (k : Nat) (v : Word) : (writeMat k v s).rk = s.rk := (rfl)
@[simp] theorem writeMat_wspec (s : State) (k : Nat) (v : Word) : (writeMat k v s).wspec = s.wspec := (rfl)
@[simp] theorem writeMat_ddtr (s : State) (k : Nat) (v : Word) : (writeMat k v s).ddtr = s.ddtr := (rfl)
@[simp] theorem writeMat_host (s : State) (k : Nat) (v : Word) : (writeMat k v s).host = s.host := (rfl)
@[simp] theorem writeMat_turns (s : State) (k : Nat) (v : Word) : (writeMat k v s).turns = s.turns := (rfl)
@[simp] theorem writeMat_draws (s : State) (k : Nat) (v : Word) : (writeMat k v s).draws = s.draws := (rfl)

@[simp] theorem writeKey_pcmd (s : State) (k : Nat) (v : Word) : (writeKey k v s).pcmd = s.pcmd := (rfl)
@[simp] theorem writeKey_busy (s : State) (k : Nat) (v : Word) : (writeKey k v s).busy = s.busy := (rfl)
@[simp] theorem writeKey_done (s : State) (k : Nat) (v : Word) : (writeKey k v s).done = s.done := (rfl)
@[simp] theorem writeKey_err (s : State) (k : Nat) (v : Word) : (writeKey k v s).err = s.err := (rfl)
@[simp] theorem writeKey_esticky (s : State) (k : Nat) (v : Word) : (writeKey k v s).esticky = s.esticky := (rfl)
@[simp] theorem writeKey_errCode (s : State) (k : Nat) (v : Word) : (writeKey k v s).errCode = s.errCode := (rfl)
@[simp] theorem writeKey_matOk (s : State) (k : Nat) (v : Word) : (writeKey k v s).matOk = s.matOk := (rfl)
@[simp] theorem writeKey_sboxValid (s : State) (k : Nat) (v : Word) : (writeKey k v s).sboxValid = s.sboxValid := (rfl)
@[simp] theorem writeKey_sboxBij (s : State) (k : Nat) (v : Word) : (writeKey k v s).sboxBij = s.sboxBij := (rfl)
@[simp] theorem writeKey_isboxValid (s : State) (k : Nat) (v : Word) : (writeKey k v s).isboxValid = s.isboxValid := (rfl)
@[simp] theorem writeKey_balOk (s : State) (k : Nat) (v : Word) : (writeKey k v s).balOk = s.balOk := (rfl)
@[simp] theorem writeKey_keyReady (s : State) (k : Nat) (v : Word) : (writeKey k v s).keyReady = false := (rfl)
@[simp] theorem writeKey_wspecValid (s : State) (k : Nat) (v : Word) : (writeKey k v s).wspecValid = s.wspecValid := (rfl)
@[simp] theorem writeKey_ddtrValid (s : State) (k : Nat) (v : Word) : (writeKey k v s).ddtrValid = s.ddtrValid := (rfl)
@[simp] theorem writeKey_busyViol (s : State) (k : Nat) (v : Word) : (writeKey k v s).busyViol = s.busyViol := (rfl)
@[simp] theorem writeKey_result0 (s : State) (k : Nat) (v : Word) : (writeKey k v s).result0 = s.result0 := (rfl)
@[simp] theorem writeKey_result1 (s : State) (k : Nat) (v : Word) : (writeKey k v s).result1 = s.result1 := (rfl)
@[simp] theorem writeKey_errInfo (s : State) (k : Nat) (v : Word) : (writeKey k v s).errInfo = s.errInfo := (rfl)
@[simp] theorem writeKey_errAddr (s : State) (k : Nat) (v : Word) : (writeKey k v s).errAddr = s.errAddr := (rfl)
@[simp] theorem writeKey_doneIe (s : State) (k : Nat) (v : Word) : (writeKey k v s).doneIe = s.doneIe := (rfl)
@[simp] theorem writeKey_errIe (s : State) (k : Nat) (v : Word) : (writeKey k v s).errIe = s.errIe := (rfl)
@[simp] theorem writeKey_balTol (s : State) (k : Nat) (v : Word) : (writeKey k v s).balTol = s.balTol := (rfl)
@[simp] theorem writeKey_const (s : State) (k : Nat) (v : Word) : (writeKey k v s).const = s.const := (rfl)
@[simp] theorem writeKey_mrow (s : State) (k : Nat) (v : Word) : (writeKey k v s).mrow = s.mrow := (rfl)
@[simp] theorem writeKey_key (s : State) (k : Nat) (v : Word) : (writeKey k v s).key = putWord s.key k v := (rfl)
@[simp] theorem writeKey_blk (s : State) (k : Nat) (v : Word) : (writeKey k v s).blk = s.blk := (rfl)
@[simp] theorem writeKey_balw (s : State) (k : Nat) (v : Word) : (writeKey k v s).balw = s.balw := (rfl)
@[simp] theorem writeKey_sbox (s : State) (k : Nat) (v : Word) : (writeKey k v s).sbox = s.sbox := (rfl)
@[simp] theorem writeKey_isbox (s : State) (k : Nat) (v : Word) : (writeKey k v s).isbox = s.isbox := (rfl)
@[simp] theorem writeKey_rk (s : State) (k : Nat) (v : Word) : (writeKey k v s).rk = s.rk := (rfl)
@[simp] theorem writeKey_wspec (s : State) (k : Nat) (v : Word) : (writeKey k v s).wspec = s.wspec := (rfl)
@[simp] theorem writeKey_ddtr (s : State) (k : Nat) (v : Word) : (writeKey k v s).ddtr = s.ddtr := (rfl)
@[simp] theorem writeKey_host (s : State) (k : Nat) (v : Word) : (writeKey k v s).host = s.host := (rfl)
@[simp] theorem writeKey_turns (s : State) (k : Nat) (v : Word) : (writeKey k v s).turns = s.turns := (rfl)
@[simp] theorem writeKey_draws (s : State) (k : Nat) (v : Word) : (writeKey k v s).draws = s.draws := (rfl)

@[simp] theorem writeBlk_pcmd (s : State) (k : Nat) (v : Word) : (writeBlk k v s).pcmd = s.pcmd := (rfl)
@[simp] theorem writeBlk_busy (s : State) (k : Nat) (v : Word) : (writeBlk k v s).busy = s.busy := (rfl)
@[simp] theorem writeBlk_done (s : State) (k : Nat) (v : Word) : (writeBlk k v s).done = s.done := (rfl)
@[simp] theorem writeBlk_err (s : State) (k : Nat) (v : Word) : (writeBlk k v s).err = s.err := (rfl)
@[simp] theorem writeBlk_esticky (s : State) (k : Nat) (v : Word) : (writeBlk k v s).esticky = s.esticky := (rfl)
@[simp] theorem writeBlk_errCode (s : State) (k : Nat) (v : Word) : (writeBlk k v s).errCode = s.errCode := (rfl)
@[simp] theorem writeBlk_matOk (s : State) (k : Nat) (v : Word) : (writeBlk k v s).matOk = s.matOk := (rfl)
@[simp] theorem writeBlk_sboxValid (s : State) (k : Nat) (v : Word) : (writeBlk k v s).sboxValid = s.sboxValid := (rfl)
@[simp] theorem writeBlk_sboxBij (s : State) (k : Nat) (v : Word) : (writeBlk k v s).sboxBij = s.sboxBij := (rfl)
@[simp] theorem writeBlk_isboxValid (s : State) (k : Nat) (v : Word) : (writeBlk k v s).isboxValid = s.isboxValid := (rfl)
@[simp] theorem writeBlk_balOk (s : State) (k : Nat) (v : Word) : (writeBlk k v s).balOk = s.balOk := (rfl)
@[simp] theorem writeBlk_keyReady (s : State) (k : Nat) (v : Word) : (writeBlk k v s).keyReady = s.keyReady := (rfl)
@[simp] theorem writeBlk_wspecValid (s : State) (k : Nat) (v : Word) : (writeBlk k v s).wspecValid = s.wspecValid := (rfl)
@[simp] theorem writeBlk_ddtrValid (s : State) (k : Nat) (v : Word) : (writeBlk k v s).ddtrValid = s.ddtrValid := (rfl)
@[simp] theorem writeBlk_busyViol (s : State) (k : Nat) (v : Word) : (writeBlk k v s).busyViol = s.busyViol := (rfl)
@[simp] theorem writeBlk_result0 (s : State) (k : Nat) (v : Word) : (writeBlk k v s).result0 = s.result0 := (rfl)
@[simp] theorem writeBlk_result1 (s : State) (k : Nat) (v : Word) : (writeBlk k v s).result1 = s.result1 := (rfl)
@[simp] theorem writeBlk_errInfo (s : State) (k : Nat) (v : Word) : (writeBlk k v s).errInfo = s.errInfo := (rfl)
@[simp] theorem writeBlk_errAddr (s : State) (k : Nat) (v : Word) : (writeBlk k v s).errAddr = s.errAddr := (rfl)
@[simp] theorem writeBlk_doneIe (s : State) (k : Nat) (v : Word) : (writeBlk k v s).doneIe = s.doneIe := (rfl)
@[simp] theorem writeBlk_errIe (s : State) (k : Nat) (v : Word) : (writeBlk k v s).errIe = s.errIe := (rfl)
@[simp] theorem writeBlk_balTol (s : State) (k : Nat) (v : Word) : (writeBlk k v s).balTol = s.balTol := (rfl)
@[simp] theorem writeBlk_const (s : State) (k : Nat) (v : Word) : (writeBlk k v s).const = s.const := (rfl)
@[simp] theorem writeBlk_mrow (s : State) (k : Nat) (v : Word) : (writeBlk k v s).mrow = s.mrow := (rfl)
@[simp] theorem writeBlk_key (s : State) (k : Nat) (v : Word) : (writeBlk k v s).key = s.key := (rfl)
@[simp] theorem writeBlk_blk (s : State) (k : Nat) (v : Word) : (writeBlk k v s).blk = putWord s.blk k v := (rfl)
@[simp] theorem writeBlk_balw (s : State) (k : Nat) (v : Word) : (writeBlk k v s).balw = s.balw := (rfl)
@[simp] theorem writeBlk_sbox (s : State) (k : Nat) (v : Word) : (writeBlk k v s).sbox = s.sbox := (rfl)
@[simp] theorem writeBlk_isbox (s : State) (k : Nat) (v : Word) : (writeBlk k v s).isbox = s.isbox := (rfl)
@[simp] theorem writeBlk_rk (s : State) (k : Nat) (v : Word) : (writeBlk k v s).rk = s.rk := (rfl)
@[simp] theorem writeBlk_wspec (s : State) (k : Nat) (v : Word) : (writeBlk k v s).wspec = s.wspec := (rfl)
@[simp] theorem writeBlk_ddtr (s : State) (k : Nat) (v : Word) : (writeBlk k v s).ddtr = s.ddtr := (rfl)
@[simp] theorem writeBlk_host (s : State) (k : Nat) (v : Word) : (writeBlk k v s).host = s.host := (rfl)
@[simp] theorem writeBlk_turns (s : State) (k : Nat) (v : Word) : (writeBlk k v s).turns = s.turns := (rfl)
@[simp] theorem writeBlk_draws (s : State) (k : Nat) (v : Word) : (writeBlk k v s).draws = s.draws := (rfl)

@[simp] theorem writeConst_pcmd (s : State) (v : Word) : (writeConst v s).pcmd = s.pcmd := (rfl)
@[simp] theorem writeConst_busy (s : State) (v : Word) : (writeConst v s).busy = s.busy := (rfl)
@[simp] theorem writeConst_done (s : State) (v : Word) : (writeConst v s).done = s.done := (rfl)
@[simp] theorem writeConst_err (s : State) (v : Word) : (writeConst v s).err = s.err := (rfl)
@[simp] theorem writeConst_esticky (s : State) (v : Word) : (writeConst v s).esticky = s.esticky := (rfl)
@[simp] theorem writeConst_errCode (s : State) (v : Word) : (writeConst v s).errCode = s.errCode := (rfl)
@[simp] theorem writeConst_matOk (s : State) (v : Word) : (writeConst v s).matOk = s.matOk := (rfl)
@[simp] theorem writeConst_sboxValid (s : State) (v : Word) : (writeConst v s).sboxValid = s.sboxValid := (rfl)
@[simp] theorem writeConst_sboxBij (s : State) (v : Word) : (writeConst v s).sboxBij = s.sboxBij := (rfl)
@[simp] theorem writeConst_isboxValid (s : State) (v : Word) : (writeConst v s).isboxValid = s.isboxValid := (rfl)
@[simp] theorem writeConst_balOk (s : State) (v : Word) : (writeConst v s).balOk = s.balOk := (rfl)
@[simp] theorem writeConst_keyReady (s : State) (v : Word) : (writeConst v s).keyReady = s.keyReady := (rfl)
@[simp] theorem writeConst_wspecValid (s : State) (v : Word) : (writeConst v s).wspecValid = s.wspecValid := (rfl)
@[simp] theorem writeConst_ddtrValid (s : State) (v : Word) : (writeConst v s).ddtrValid = s.ddtrValid := (rfl)
@[simp] theorem writeConst_busyViol (s : State) (v : Word) : (writeConst v s).busyViol = s.busyViol := (rfl)
@[simp] theorem writeConst_result0 (s : State) (v : Word) : (writeConst v s).result0 = s.result0 := (rfl)
@[simp] theorem writeConst_result1 (s : State) (v : Word) : (writeConst v s).result1 = s.result1 := (rfl)
@[simp] theorem writeConst_errInfo (s : State) (v : Word) : (writeConst v s).errInfo = s.errInfo := (rfl)
@[simp] theorem writeConst_errAddr (s : State) (v : Word) : (writeConst v s).errAddr = s.errAddr := (rfl)
@[simp] theorem writeConst_doneIe (s : State) (v : Word) : (writeConst v s).doneIe = s.doneIe := (rfl)
@[simp] theorem writeConst_errIe (s : State) (v : Word) : (writeConst v s).errIe = s.errIe := (rfl)
@[simp] theorem writeConst_balTol (s : State) (v : Word) : (writeConst v s).balTol = s.balTol := (rfl)
@[simp] theorem writeConst_const (s : State) (v : Word) : (writeConst v s).const = byteAt v 0 := (rfl)
@[simp] theorem writeConst_mrow (s : State) (v : Word) : (writeConst v s).mrow = s.mrow := (rfl)
@[simp] theorem writeConst_key (s : State) (v : Word) : (writeConst v s).key = s.key := (rfl)
@[simp] theorem writeConst_blk (s : State) (v : Word) : (writeConst v s).blk = s.blk := (rfl)
@[simp] theorem writeConst_balw (s : State) (v : Word) : (writeConst v s).balw = s.balw := (rfl)
@[simp] theorem writeConst_sbox (s : State) (v : Word) : (writeConst v s).sbox = s.sbox := (rfl)
@[simp] theorem writeConst_isbox (s : State) (v : Word) : (writeConst v s).isbox = s.isbox := (rfl)
@[simp] theorem writeConst_rk (s : State) (v : Word) : (writeConst v s).rk = s.rk := (rfl)
@[simp] theorem writeConst_wspec (s : State) (v : Word) : (writeConst v s).wspec = s.wspec := (rfl)
@[simp] theorem writeConst_ddtr (s : State) (v : Word) : (writeConst v s).ddtr = s.ddtr := (rfl)
@[simp] theorem writeConst_host (s : State) (v : Word) : (writeConst v s).host = s.host := (rfl)
@[simp] theorem writeConst_turns (s : State) (v : Word) : (writeConst v s).turns = s.turns := (rfl)
@[simp] theorem writeConst_draws (s : State) (v : Word) : (writeConst v s).draws = s.draws := (rfl)

@[simp] theorem writeBalTol_pcmd (s : State) (v : Word) : (writeBalTol v s).pcmd = s.pcmd := (rfl)
@[simp] theorem writeBalTol_busy (s : State) (v : Word) : (writeBalTol v s).busy = s.busy := (rfl)
@[simp] theorem writeBalTol_done (s : State) (v : Word) : (writeBalTol v s).done = s.done := (rfl)
@[simp] theorem writeBalTol_err (s : State) (v : Word) : (writeBalTol v s).err = s.err := (rfl)
@[simp] theorem writeBalTol_esticky (s : State) (v : Word) : (writeBalTol v s).esticky = s.esticky := (rfl)
@[simp] theorem writeBalTol_errCode (s : State) (v : Word) : (writeBalTol v s).errCode = s.errCode := (rfl)
@[simp] theorem writeBalTol_matOk (s : State) (v : Word) : (writeBalTol v s).matOk = s.matOk := (rfl)
@[simp] theorem writeBalTol_sboxValid (s : State) (v : Word) : (writeBalTol v s).sboxValid = s.sboxValid := (rfl)
@[simp] theorem writeBalTol_sboxBij (s : State) (v : Word) : (writeBalTol v s).sboxBij = s.sboxBij := (rfl)
@[simp] theorem writeBalTol_isboxValid (s : State) (v : Word) : (writeBalTol v s).isboxValid = s.isboxValid := (rfl)
@[simp] theorem writeBalTol_balOk (s : State) (v : Word) : (writeBalTol v s).balOk = s.balOk := (rfl)
@[simp] theorem writeBalTol_keyReady (s : State) (v : Word) : (writeBalTol v s).keyReady = s.keyReady := (rfl)
@[simp] theorem writeBalTol_wspecValid (s : State) (v : Word) : (writeBalTol v s).wspecValid = s.wspecValid := (rfl)
@[simp] theorem writeBalTol_ddtrValid (s : State) (v : Word) : (writeBalTol v s).ddtrValid = s.ddtrValid := (rfl)
@[simp] theorem writeBalTol_busyViol (s : State) (v : Word) : (writeBalTol v s).busyViol = s.busyViol := (rfl)
@[simp] theorem writeBalTol_result0 (s : State) (v : Word) : (writeBalTol v s).result0 = s.result0 := (rfl)
@[simp] theorem writeBalTol_result1 (s : State) (v : Word) : (writeBalTol v s).result1 = s.result1 := (rfl)
@[simp] theorem writeBalTol_errInfo (s : State) (v : Word) : (writeBalTol v s).errInfo = s.errInfo := (rfl)
@[simp] theorem writeBalTol_errAddr (s : State) (v : Word) : (writeBalTol v s).errAddr = s.errAddr := (rfl)
@[simp] theorem writeBalTol_doneIe (s : State) (v : Word) : (writeBalTol v s).doneIe = s.doneIe := (rfl)
@[simp] theorem writeBalTol_errIe (s : State) (v : Word) : (writeBalTol v s).errIe = s.errIe := (rfl)
@[simp] theorem writeBalTol_balTol (s : State) (v : Word) : (writeBalTol v s).balTol = byteAt v 0 := (rfl)
@[simp] theorem writeBalTol_const (s : State) (v : Word) : (writeBalTol v s).const = s.const := (rfl)
@[simp] theorem writeBalTol_mrow (s : State) (v : Word) : (writeBalTol v s).mrow = s.mrow := (rfl)
@[simp] theorem writeBalTol_key (s : State) (v : Word) : (writeBalTol v s).key = s.key := (rfl)
@[simp] theorem writeBalTol_blk (s : State) (v : Word) : (writeBalTol v s).blk = s.blk := (rfl)
@[simp] theorem writeBalTol_balw (s : State) (v : Word) : (writeBalTol v s).balw = s.balw := (rfl)
@[simp] theorem writeBalTol_sbox (s : State) (v : Word) : (writeBalTol v s).sbox = s.sbox := (rfl)
@[simp] theorem writeBalTol_isbox (s : State) (v : Word) : (writeBalTol v s).isbox = s.isbox := (rfl)
@[simp] theorem writeBalTol_rk (s : State) (v : Word) : (writeBalTol v s).rk = s.rk := (rfl)
@[simp] theorem writeBalTol_wspec (s : State) (v : Word) : (writeBalTol v s).wspec = s.wspec := (rfl)
@[simp] theorem writeBalTol_ddtr (s : State) (v : Word) : (writeBalTol v s).ddtr = s.ddtr := (rfl)
@[simp] theorem writeBalTol_host (s : State) (v : Word) : (writeBalTol v s).host = s.host := (rfl)
@[simp] theorem writeBalTol_turns (s : State) (v : Word) : (writeBalTol v s).turns = s.turns := (rfl)
@[simp] theorem writeBalTol_draws (s : State) (v : Word) : (writeBalTol v s).draws = s.draws := (rfl)

@[simp] theorem writeIrqen_pcmd (s : State) (v : Word) : (writeIrqen v s).pcmd = s.pcmd := (rfl)
@[simp] theorem writeIrqen_busy (s : State) (v : Word) : (writeIrqen v s).busy = s.busy := (rfl)
@[simp] theorem writeIrqen_done (s : State) (v : Word) : (writeIrqen v s).done = s.done := (rfl)
@[simp] theorem writeIrqen_err (s : State) (v : Word) : (writeIrqen v s).err = s.err := (rfl)
@[simp] theorem writeIrqen_esticky (s : State) (v : Word) : (writeIrqen v s).esticky = s.esticky := (rfl)
@[simp] theorem writeIrqen_errCode (s : State) (v : Word) : (writeIrqen v s).errCode = s.errCode := (rfl)
@[simp] theorem writeIrqen_matOk (s : State) (v : Word) : (writeIrqen v s).matOk = s.matOk := (rfl)
@[simp] theorem writeIrqen_sboxValid (s : State) (v : Word) : (writeIrqen v s).sboxValid = s.sboxValid := (rfl)
@[simp] theorem writeIrqen_sboxBij (s : State) (v : Word) : (writeIrqen v s).sboxBij = s.sboxBij := (rfl)
@[simp] theorem writeIrqen_isboxValid (s : State) (v : Word) : (writeIrqen v s).isboxValid = s.isboxValid := (rfl)
@[simp] theorem writeIrqen_balOk (s : State) (v : Word) : (writeIrqen v s).balOk = s.balOk := (rfl)
@[simp] theorem writeIrqen_keyReady (s : State) (v : Word) : (writeIrqen v s).keyReady = s.keyReady := (rfl)
@[simp] theorem writeIrqen_wspecValid (s : State) (v : Word) : (writeIrqen v s).wspecValid = s.wspecValid := (rfl)
@[simp] theorem writeIrqen_ddtrValid (s : State) (v : Word) : (writeIrqen v s).ddtrValid = s.ddtrValid := (rfl)
@[simp] theorem writeIrqen_busyViol (s : State) (v : Word) : (writeIrqen v s).busyViol = s.busyViol := (rfl)
@[simp] theorem writeIrqen_result0 (s : State) (v : Word) : (writeIrqen v s).result0 = s.result0 := (rfl)
@[simp] theorem writeIrqen_result1 (s : State) (v : Word) : (writeIrqen v s).result1 = s.result1 := (rfl)
@[simp] theorem writeIrqen_errInfo (s : State) (v : Word) : (writeIrqen v s).errInfo = s.errInfo := (rfl)
@[simp] theorem writeIrqen_errAddr (s : State) (v : Word) : (writeIrqen v s).errAddr = s.errAddr := (rfl)
@[simp] theorem writeIrqen_doneIe (s : State) (v : Word) : (writeIrqen v s).doneIe = v.getLsbD 0 := (rfl)
@[simp] theorem writeIrqen_errIe (s : State) (v : Word) : (writeIrqen v s).errIe = v.getLsbD 1 := (rfl)
@[simp] theorem writeIrqen_balTol (s : State) (v : Word) : (writeIrqen v s).balTol = s.balTol := (rfl)
@[simp] theorem writeIrqen_const (s : State) (v : Word) : (writeIrqen v s).const = s.const := (rfl)
@[simp] theorem writeIrqen_mrow (s : State) (v : Word) : (writeIrqen v s).mrow = s.mrow := (rfl)
@[simp] theorem writeIrqen_key (s : State) (v : Word) : (writeIrqen v s).key = s.key := (rfl)
@[simp] theorem writeIrqen_blk (s : State) (v : Word) : (writeIrqen v s).blk = s.blk := (rfl)
@[simp] theorem writeIrqen_balw (s : State) (v : Word) : (writeIrqen v s).balw = s.balw := (rfl)
@[simp] theorem writeIrqen_sbox (s : State) (v : Word) : (writeIrqen v s).sbox = s.sbox := (rfl)
@[simp] theorem writeIrqen_isbox (s : State) (v : Word) : (writeIrqen v s).isbox = s.isbox := (rfl)
@[simp] theorem writeIrqen_rk (s : State) (v : Word) : (writeIrqen v s).rk = s.rk := (rfl)
@[simp] theorem writeIrqen_wspec (s : State) (v : Word) : (writeIrqen v s).wspec = s.wspec := (rfl)
@[simp] theorem writeIrqen_ddtr (s : State) (v : Word) : (writeIrqen v s).ddtr = s.ddtr := (rfl)
@[simp] theorem writeIrqen_host (s : State) (v : Word) : (writeIrqen v s).host = s.host := (rfl)
@[simp] theorem writeIrqen_turns (s : State) (v : Word) : (writeIrqen v s).turns = s.turns := (rfl)
@[simp] theorem writeIrqen_draws (s : State) (v : Word) : (writeIrqen v s).draws = s.draws := (rfl)

@[simp] theorem writeSbox_pcmd (s : State) (k : Nat) (v : Word) : (writeSbox k v s).pcmd = s.pcmd := (rfl)
@[simp] theorem writeSbox_busy (s : State) (k : Nat) (v : Word) : (writeSbox k v s).busy = s.busy := (rfl)
@[simp] theorem writeSbox_done (s : State) (k : Nat) (v : Word) : (writeSbox k v s).done = s.done := (rfl)
@[simp] theorem writeSbox_err (s : State) (k : Nat) (v : Word) : (writeSbox k v s).err = s.err := (rfl)
@[simp] theorem writeSbox_esticky (s : State) (k : Nat) (v : Word) : (writeSbox k v s).esticky = s.esticky := (rfl)
@[simp] theorem writeSbox_errCode (s : State) (k : Nat) (v : Word) : (writeSbox k v s).errCode = s.errCode := (rfl)
@[simp] theorem writeSbox_matOk (s : State) (k : Nat) (v : Word) : (writeSbox k v s).matOk = s.matOk := (rfl)
@[simp] theorem writeSbox_sboxValid (s : State) (k : Nat) (v : Word) : (writeSbox k v s).sboxValid = false := (rfl)
@[simp] theorem writeSbox_sboxBij (s : State) (k : Nat) (v : Word) : (writeSbox k v s).sboxBij = false := (rfl)
@[simp] theorem writeSbox_isboxValid (s : State) (k : Nat) (v : Word) : (writeSbox k v s).isboxValid = false := (rfl)
@[simp] theorem writeSbox_balOk (s : State) (k : Nat) (v : Word) : (writeSbox k v s).balOk = false := (rfl)
@[simp] theorem writeSbox_keyReady (s : State) (k : Nat) (v : Word) : (writeSbox k v s).keyReady = false := (rfl)
@[simp] theorem writeSbox_wspecValid (s : State) (k : Nat) (v : Word) : (writeSbox k v s).wspecValid = s.wspecValid := (rfl)
@[simp] theorem writeSbox_ddtrValid (s : State) (k : Nat) (v : Word) : (writeSbox k v s).ddtrValid = s.ddtrValid := (rfl)
@[simp] theorem writeSbox_busyViol (s : State) (k : Nat) (v : Word) : (writeSbox k v s).busyViol = s.busyViol := (rfl)
@[simp] theorem writeSbox_result0 (s : State) (k : Nat) (v : Word) : (writeSbox k v s).result0 = s.result0 := (rfl)
@[simp] theorem writeSbox_result1 (s : State) (k : Nat) (v : Word) : (writeSbox k v s).result1 = s.result1 := (rfl)
@[simp] theorem writeSbox_errInfo (s : State) (k : Nat) (v : Word) : (writeSbox k v s).errInfo = s.errInfo := (rfl)
@[simp] theorem writeSbox_errAddr (s : State) (k : Nat) (v : Word) : (writeSbox k v s).errAddr = s.errAddr := (rfl)
@[simp] theorem writeSbox_doneIe (s : State) (k : Nat) (v : Word) : (writeSbox k v s).doneIe = s.doneIe := (rfl)
@[simp] theorem writeSbox_errIe (s : State) (k : Nat) (v : Word) : (writeSbox k v s).errIe = s.errIe := (rfl)
@[simp] theorem writeSbox_balTol (s : State) (k : Nat) (v : Word) : (writeSbox k v s).balTol = s.balTol := (rfl)
@[simp] theorem writeSbox_const (s : State) (k : Nat) (v : Word) : (writeSbox k v s).const = s.const := (rfl)
@[simp] theorem writeSbox_mrow (s : State) (k : Nat) (v : Word) : (writeSbox k v s).mrow = s.mrow := (rfl)
@[simp] theorem writeSbox_key (s : State) (k : Nat) (v : Word) : (writeSbox k v s).key = s.key := (rfl)
@[simp] theorem writeSbox_blk (s : State) (k : Nat) (v : Word) : (writeSbox k v s).blk = s.blk := (rfl)
@[simp] theorem writeSbox_balw (s : State) (k : Nat) (v : Word) : (writeSbox k v s).balw = s.balw := (rfl)
@[simp] theorem writeSbox_sbox (s : State) (k : Nat) (v : Word) : (writeSbox k v s).sbox = putTableWord s.sbox k v := (rfl)
@[simp] theorem writeSbox_isbox (s : State) (k : Nat) (v : Word) : (writeSbox k v s).isbox = s.isbox := (rfl)
@[simp] theorem writeSbox_rk (s : State) (k : Nat) (v : Word) : (writeSbox k v s).rk = s.rk := (rfl)
@[simp] theorem writeSbox_wspec (s : State) (k : Nat) (v : Word) : (writeSbox k v s).wspec = s.wspec := (rfl)
@[simp] theorem writeSbox_ddtr (s : State) (k : Nat) (v : Word) : (writeSbox k v s).ddtr = s.ddtr := (rfl)
@[simp] theorem writeSbox_host (s : State) (k : Nat) (v : Word) : (writeSbox k v s).host = s.host := (rfl)
@[simp] theorem writeSbox_turns (s : State) (k : Nat) (v : Word) : (writeSbox k v s).turns = s.turns := (rfl)
@[simp] theorem writeSbox_draws (s : State) (k : Nat) (v : Word) : (writeSbox k v s).draws = s.draws := (rfl)

end Sys2Proof.Machine
end

