-- ==== Sys2Proof/Laws/Vectors.lean ====
section
/-! SUPPORT. The laws of the operand forms: vectors by entry, scans over all bytes, bytes of words, tables with written marks,
the 4 by 4 block, and the scans that keep the first best item. -/

namespace Sys2Proof.Machine

/-! ### Vectors by entry -/

@[simp] theorem tabulate_getElem {α : Type} {n : Nat} (f : Fin n → α) (i : Nat) (h : i < n) :
    (tabulate f)[i] = f ⟨i, h⟩ := by
  simp [tabulate]

@[simp] theorem tabulate_getElem_fin {α : Type} {n : Nat} (f : Fin n → α) (i : Fin n) :
    (tabulate f)[i] = f i := tabulate_getElem f i.val i.isLt

theorem tabulate_toList {α : Type} {n : Nat} (f : Fin n → α) :
    (tabulate f).toList = (List.finRange n).map f := by
  simp [tabulate, Vector.toList]

theorem vector_ext {α : Type} {n : Nat} {a b : Vector α n} (h : ∀ i : Fin n, a[i] = b[i]) : a = b :=
  Vector.ext fun i hi => h ⟨i, hi⟩

theorem entry_eq {n : Nat} (a : Vector Byte n) (i : Nat) (h : i < n) : entry a i = a[i] := by
  simp [entry, h]

theorem entry_out {n : Nat} (a : Vector Byte n) (i : Nat) (h : n ≤ i) : entry a i = 0 := by
  simp [entry, h]

/-! ### All bytes -/

theorem mem_allBytes (x : Byte) : x ∈ allBytes := by
  simp only [allBytes, List.mem_map, List.mem_range]
  exact ⟨x.toNat, x.isLt, by simp⟩

@[simp] theorem length_allBytes : allBytes.length = 256 := by simp [allBytes]

theorem mem_nonzeroBytes (x : Byte) : x ∈ nonzeroBytes ↔ x ≠ 0 := by
  simp [nonzeroBytes, mem_allBytes]

theorem nodup_allBytes : allBytes.Nodup := by
  refine List.Nodup.map_on ?_ List.nodup_range
  intro a ha b hb h
  have := congrArg BitVec.toNat h
  simp only [List.mem_range] at ha hb
  simp only [BitVec.toNat_ofNat] at this
  omega

/-- All bytes stand in ascending order. -/
theorem sorted_allBytes : allBytes.Pairwise (fun a b => a.toNat < b.toNat) := by
  rw [allBytes, List.pairwise_map]
  refine List.Pairwise.imp_of_mem ?_ (List.pairwise_lt_range (n := 256))
  intro a b ha hb h
  simp only [List.mem_range] at ha hb
  simp only [BitVec.toNat_ofNat]
  omega

theorem sorted_nonzeroBytes : nonzeroBytes.Pairwise (fun a b => a.toNat < b.toNat) :=
  sorted_allBytes.filter _

/-! ### Bits and bytes -/

theorem byteOfBits_getLsbD (f : Nat → Bool) (i : Nat) (h : i < 8) : (byteOfBits f).getLsbD i = f i := by
  simp only [byteOfBits]
  generalize e0 : f 0 = a0
  generalize e1 : f 1 = a1
  generalize e2 : f 2 = a2
  generalize e3 : f 3 = a3
  generalize e4 : f 4 = a4
  generalize e5 : f 5 = a5
  generalize e6 : f 6 = a6
  generalize e7 : f 7 = a7
  have key : ∀ a0 a1 a2 a3 a4 a5 a6 a7 : Bool, ∀ i : Fin 8,
      ((BitVec.ofBool a0).setWidth 8 ||| ((BitVec.ofBool a1).setWidth 8 <<< 1) |||
        ((BitVec.ofBool a2).setWidth 8 <<< 2) ||| ((BitVec.ofBool a3).setWidth 8 <<< 3) |||
        ((BitVec.ofBool a4).setWidth 8 <<< 4) ||| ((BitVec.ofBool a5).setWidth 8 <<< 5) |||
        ((BitVec.ofBool a6).setWidth 8 <<< 6) ||| ((BitVec.ofBool a7).setWidth 8 <<< 7)).getLsbD i.val =
      [a0, a1, a2, a3, a4, a5, a6, a7].getD i.val false := by decide +kernel
  rw [key a0 a1 a2 a3 a4 a5 a6 a7 ⟨i, h⟩]
  subst e0 e1 e2 e3 e4 e5 e6 e7
  interval_cases i <;> rfl

theorem xor_swap (p q r s : Bool) : ((p ^^ q) ^^ (r ^^ s)) = ((p ^^ r) ^^ (q ^^ s)) := by
  cases p <;> cases q <;> cases r <;> cases s <;> rfl

theorem parity_xor (a b : Byte) : parity (a ^^^ b) = (parity a ^^ parity b) := by
  simp only [parity, BitVec.getLsbD_xor]
  rw [xor_swap (a.getLsbD 0), xor_swap (a.getLsbD 0 ^^ a.getLsbD 1), xor_swap (_ ^^ a.getLsbD 2), xor_swap (_ ^^ a.getLsbD 3),
    xor_swap (_ ^^ a.getLsbD 4), xor_swap (_ ^^ a.getLsbD 5), xor_swap (_ ^^ a.getLsbD 6)]

theorem and_xor_distrib (a x y : Byte) : a &&& (x ^^^ y) = (a &&& x) ^^^ (a &&& y) := by
  ext i hi
  simp only [BitVec.getElem_and, BitVec.getElem_xor]
  cases a[i] <;> simp

theorem dot_xor_right (a x y : Byte) : dot a (x ^^^ y) = (dot a x ^^ dot a y) := by
  rw [dot, and_xor_distrib, parity_xor]; rfl

theorem dot_comm (a x : Byte) : dot a x = dot x a := by
  simp only [dot, BitVec.and_comm]

@[simp] theorem byteAt_packWord_0 (b0 b1 b2 b3 : Byte) : byteAt (packWord b0 b1 b2 b3) 0 = b0 := by
  apply BitVec.eq_of_getLsbD_eq
  intro i hi
  simp only [packWord, byteAt, BitVec.getLsbD_append, BitVec.getLsbD_extractLsb', hi, decide_true, Bool.true_and]
  rw [if_pos (by omega)]
  congr 1; omega

@[simp] theorem byteAt_packWord_1 (b0 b1 b2 b3 : Byte) : byteAt (packWord b0 b1 b2 b3) 1 = b1 := by
  apply BitVec.eq_of_getLsbD_eq
  intro i hi
  simp only [packWord, byteAt, BitVec.getLsbD_append, BitVec.getLsbD_extractLsb', hi, decide_true, Bool.true_and]
  rw [if_neg (by omega)]
  rw [if_pos (by omega)]
  congr 1; omega

@[simp] theorem byteAt_packWord_2 (b0 b1 b2 b3 : Byte) : byteAt (packWord b0 b1 b2 b3) 2 = b2 := by
  apply BitVec.eq_of_getLsbD_eq
  intro i hi
  simp only [packWord, byteAt, BitVec.getLsbD_append, BitVec.getLsbD_extractLsb', hi, decide_true, Bool.true_and]
  rw [if_neg (by omega)]
  rw [if_neg (by omega)]
  rw [if_pos (by omega)]
  congr 1; omega

@[simp] theorem byteAt_packWord_3 (b0 b1 b2 b3 : Byte) : byteAt (packWord b0 b1 b2 b3) 3 = b3 := by
  apply BitVec.eq_of_getLsbD_eq
  intro i hi
  simp only [packWord, byteAt, BitVec.getLsbD_append, BitVec.getLsbD_extractLsb', hi, decide_true, Bool.true_and]
  rw [if_neg (by omega)]
  rw [if_neg (by omega)]
  rw [if_neg (by omega)]
  congr 1; omega

theorem packWord_byteAt (w : Word) : packWord (byteAt w 0) (byteAt w 1) (byteAt w 2) (byteAt w 3) = w := by
  apply BitVec.eq_of_getLsbD_eq
  intro i hi
  simp only [packWord, byteAt, BitVec.getLsbD_append, BitVec.getLsbD_extractLsb']
  split
  · simp [*]
  · split
    · simp only [*, decide_true, Bool.true_and]; congr 1; omega
    · split
      · simp only [*, decide_true, Bool.true_and]; congr 1; omega
      · rw [show decide (i - 8 - 8 - 8 < 8) = true by simp; omega, Bool.true_and]; congr 1; omega

/-! ### Words of byte arrays -/

theorem putWord_getElem {n : Nat} (a : Vector Byte n) (k : Nat) (v : Word) (j : Nat) (h : j < n) :
    (putWord a k v)[j] = if j / 4 = k then byteAt v (j % 4) else a[j] := by
  simp [putWord]

theorem entry_putWord {n : Nat} (a : Vector Byte n) (k : Nat) (v : Word) (j : Nat) (h : j < n) :
    entry (putWord a k v) j = if j / 4 = k then byteAt v (j % 4) else entry a j := by
  rw [entry_eq _ _ h, entry_eq _ _ h, putWord_getElem]

/-- A word written reads back. -/
theorem wordOf_putWord_same {n : Nat} (a : Vector Byte n) (k : Nat) (v : Word) (h : 4 * k + 3 < n) :
    wordOf (entry (putWord a k v)) k = v := by
  simp only [wordOf]
  rw [entry_putWord _ _ _ _ (by omega), entry_putWord _ _ _ _ (by omega), entry_putWord _ _ _ _ (by omega),
    entry_putWord _ _ _ _ (by omega), if_pos (by omega), if_pos (by omega), if_pos (by omega), if_pos (by omega)]
  rw [show 4 * k % 4 = 0 by omega, show (4 * k + 1) % 4 = 1 by omega, show (4 * k + 2) % 4 = 2 by omega,
    show (4 * k + 3) % 4 = 3 by omega]
  exact packWord_byteAt v

/-- A word written leaves every other word alone. -/
theorem wordOf_putWord_other {n : Nat} (a : Vector Byte n) (k j : Nat) (v : Word) (h : 4 * j + 3 < n)
    (hk : j ≠ k) : wordOf (entry (putWord a k v)) j = wordOf (entry a) j := by
  simp only [wordOf]
  rw [entry_putWord _ _ _ _ (by omega), entry_putWord _ _ _ _ (by omega), entry_putWord _ _ _ _ (by omega),
    entry_putWord _ _ _ _ (by omega), if_neg (by omega), if_neg (by omega), if_neg (by omega), if_neg (by omega)]

/-! ### Tables with written marks -/

@[simp] theorem look_tabulate (f : Fin 256 → Byte) (x : Byte) : Table.look (tabulate f) x = f x.toFin := by
  simp only [Table.look, tabulate_getElem]; rfl

theorem written_getElem {α : Type} {n : Nat} (t : Vector α n) (i : Nat) (h : i < n) : (written t)[i] = some t[i] := by
  simp [written]

@[simp] theorem allWritten_written {α : Type} {n : Nat} (t : Vector α n) : allWritten (written t) = true := by
  simp [allWritten, written, tabulate_toList]

@[simp] theorem entriesOf_written {n : Nat} (t : Vector Byte n) : entriesOf (written t) = t := by
  apply vector_ext
  intro i
  simp [entriesOf, written]

theorem entriesOf_getElem {n : Nat} (t : Vector (Option Byte) n) (i : Nat) (h : i < n) :
    (entriesOf t)[i] = t[i].getD 0 := by
  simp [entriesOf]

theorem allWritten_iff {α : Type} {n : Nat} (t : Vector (Option α) n) :
    allWritten t = true ↔ ∀ i : Fin n, (t[i]).isSome = true := by
  simp only [allWritten, List.all_eq_true]
  constructor
  · intro h i
    exact h _ (by simp [Vector.mem_toList_iff])
  · intro h x hx
    obtain ⟨i, hi, rfl⟩ := Vector.getElem_of_mem (Vector.mem_toList_iff.mp hx)
    exact h ⟨i, hi⟩

/-- A table written in full is its entries with every mark set. -/
theorem written_entriesOf {n : Nat} (t : Vector (Option Byte) n) (h : allWritten t = true) :
    written (entriesOf t) = t := by
  apply vector_ext
  intro i
  have hi := (allWritten_iff t).mp h i
  simp only [written, entriesOf, tabulate_getElem_fin]
  cases ht : t[i] with
  | none => rw [ht] at hi; simp at hi
  | some v => rfl

theorem putTableWord_getElem {n : Nat} (t : Vector (Option Byte) n) (k : Nat) (v : Word) (j : Nat) (h : j < n) :
    (putTableWord t k v)[j] = if j / 4 = k then some (byteAt v (j % 4)) else t[j] := by
  simp [putTableWord]

@[simp] theorem unwritten_getElem {α : Type} {n : Nat} (i : Nat) (h : i < n) :
    (unwritten : Vector (Option α) n)[i] = none := by
  simp [unwritten]

/-! ### The block -/

theorem cell_blockOf (f : Nat → Nat → Byte) (r c : Nat) : cell (blockOf f) r c = f (r % 4) (c % 4) := by
  simp only [cell, blockOf, tabulate_getElem]
  congr 1 <;> omega

theorem cell_mod (s : Block) (r c : Nat) : cell s (r % 4) (c % 4) = cell s r c := by
  simp only [cell, Nat.mod_mod]

theorem block_ext {a b : Block} (h : ∀ r c, r < 4 → c < 4 → cell a r c = cell b r c) : a = b := by
  apply Vector.ext
  intro j hj
  have := h (j % 4) (j / 4) (by omega) (by omega)
  simp only [cell] at this
  have e : j % 4 % 4 + 4 * (j / 4 % 4) = j := by omega
  simpa only [e] using this

/-! ### Scans -/

/-- What a scan over a list after the best (m, y) so far answers: the first of the best items. -/
theorem foldl_keepBetter {α : Type} (better : Nat → Nat → Bool) (f : α → Nat)
    (hirr : ∀ a, better a a = false) (htr : ∀ a b c, better a b = true → better b c = true → better a c = true)
    (htot : ∀ a b, better a b = false → better b a = false → a = b)
    (l : List α) (m : Nat) (y : α) (hm : f y = m) :
    ∃ n z, l.foldl (keepBetter better f) (some (m, y)) = some (n, z) ∧ f z = n ∧
      ((n = m ∧ z = y ∧ ∀ x ∈ l, better (f x) m = false) ∨
       (better n m = true ∧ (∀ x ∈ l, better (f x) n = false) ∧
        ∃ l₁ l₂, l = l₁ ++ z :: l₂ ∧ ∀ x ∈ l₁, better n (f x) = true)) := by
  induction l generalizing m y with
  | nil => exact ⟨m, y, rfl, hm, .inl ⟨rfl, rfl, by simp⟩⟩
  | cons x xs ih =>
    simp only [List.foldl_cons, keepBetter]
    by_cases hb : better (f x) m = true
    · rw [if_pos hb]
      obtain ⟨n, z, h1, h2, h3⟩ := ih (f x) x rfl
      refine ⟨n, z, h1, h2, .inr ?_⟩
      rcases h3 with ⟨rfl, rfl, h4⟩ | ⟨h4, h5, l₁, l₂, rfl, h6⟩
      · refine ⟨hb, ?_, [], xs, rfl, by simp⟩
        intro w hw
        rcases List.mem_cons.mp hw with rfl | hw
        · exact hirr _
        · exact h4 w hw
      · refine ⟨htr _ _ _ h4 hb, ?_, x :: l₁, l₂, rfl, ?_⟩
        · intro w hw
          rcases List.mem_cons.mp hw with rfl | hw
          · cases hq : better (f w) n with
            | false => rfl
            | true => exact absurd (htr _ _ _ hq h4) (by simp [hirr])
          · exact h5 w hw
        · intro w hw
          rcases List.mem_cons.mp hw with rfl | hw
          · exact h4
          · exact h6 w hw
    · rw [if_neg hb]
      have hb' : better (f x) m = false := by simpa using hb
      obtain ⟨n, z, h1, h2, h3⟩ := ih m y hm
      refine ⟨n, z, h1, h2, ?_⟩
      rcases h3 with ⟨rfl, rfl, h4⟩ | ⟨h4, h5, l₁, l₂, rfl, h6⟩
      · refine .inl ⟨rfl, rfl, ?_⟩
        intro w hw
        rcases List.mem_cons.mp hw with rfl | hw
        · exact hb'
        · exact h4 w hw
      · refine .inr ⟨h4, ?_, x :: l₁, l₂, rfl, ?_⟩
        · intro w hw
          rcases List.mem_cons.mp hw with rfl | hw
          · cases hq : better (f w) n with
            | false => rfl
            | true => exact absurd (htr _ _ _ hq h4) (by simp [hb'])
          · exact h5 w hw
        · intro w hw
          rcases List.mem_cons.mp hw with rfl | hw
          · cases hq : better n (f w) with
            | true => rfl
            | false =>
              cases hq2 : better (f w) n with
              | true => exact absurd (htr _ _ _ hq2 h4) (by simp [hb'])
              | false => rw [htot _ _ hq hq2] at h4; exact absurd h4 (by simp [hb'])
          · exact h6 w hw

/-- A scan of a list that is not empty finds the first of the best items. -/
theorem scan_spec {α : Type} (better : Nat → Nat → Bool) (f : α → Nat)
    (hirr : ∀ a, better a a = false) (htr : ∀ a b c, better a b = true → better b c = true → better a c = true)
    (htot : ∀ a b, better a b = false → better b a = false → a = b) (l : List α) (hl : l ≠ []) :
    ∃ z l₁ l₂, l.foldl (keepBetter better f) none = some (f z, z) ∧ l = l₁ ++ z :: l₂ ∧
      (∀ x ∈ l, better (f x) (f z) = false) ∧ ∀ x ∈ l₁, better (f z) (f x) = true := by
  cases l with
  | nil => exact absurd rfl hl
  | cons x xs =>
    simp only [List.foldl_cons, keepBetter]
    obtain ⟨n, z, h1, h2, h3⟩ := foldl_keepBetter better f hirr htr htot xs (f x) x rfl
    subst h2
    rcases h3 with ⟨h3, rfl, h4⟩ | ⟨h4, h5, l₁, l₂, rfl, h6⟩
    · refine ⟨z, [], xs, h1, rfl, ?_, by simp⟩
      intro w hw
      rcases List.mem_cons.mp hw with rfl | hw
      · exact hirr _
      · exact h4 w hw
    · refine ⟨z, x :: l₁, l₂, h1, rfl, ?_, ?_⟩
      · intro w hw
        rcases List.mem_cons.mp hw with rfl | hw
        · cases hq : better (f w) (f z) with
          | false => rfl
          | true => exact absurd (htr _ _ _ hq h4) (by simp [hirr])
        · exact h5 w hw
      · intro w hw
        rcases List.mem_cons.mp hw with rfl | hw
        · exact h4
        · exact h6 w hw

/-- `firstMax` answers the greatest value and the first item attaining it. -/
theorem firstMax_spec {α : Type} (f : α → Nat) (l : List α) (hl : l ≠ []) :
    ∃ z l₁ l₂, firstMax f l = some (f z, z) ∧ l = l₁ ++ z :: l₂ ∧
      (∀ x ∈ l, f x ≤ f z) ∧ ∀ x ∈ l₁, f x < f z := by
  obtain ⟨z, l₁, l₂, h1, h2, h3, h4⟩ := scan_spec (fun a b => decide (b < a)) f (by simp)
    (by intro a b c; simp only [decide_eq_true_eq]; omega) (by intro a b; simp only [decide_eq_false_iff_not]; omega) l hl
  exact ⟨z, l₁, l₂, h1, h2, fun x hx => by have := h3 x hx; simpa using this,
    fun x hx => by have := h4 x hx; simpa using this⟩

/-- `firstMin` answers the least value and the first item attaining it. -/
theorem firstMin_spec {α : Type} (f : α → Nat) (l : List α) (hl : l ≠ []) :
    ∃ z l₁ l₂, firstMin f l = some (f z, z) ∧ l = l₁ ++ z :: l₂ ∧
      (∀ x ∈ l, f z ≤ f x) ∧ ∀ x ∈ l₁, f z < f x := by
  obtain ⟨z, l₁, l₂, h1, h2, h3, h4⟩ := scan_spec (fun a b => decide (a < b)) f (by simp)
    (by intro a b c; simp only [decide_eq_true_eq]; omega) (by intro a b; simp only [decide_eq_false_iff_not]; omega) l hl
  exact ⟨z, l₁, l₂, h1, h2, fun x hx => by have := h3 x hx; simpa using this,
    fun x hx => by have := h4 x hx; simpa using this⟩

end Sys2Proof.Machine
end

