-- ==== Sys2Proof/Laws/Ops.lean ====
section
/-! SUPPORT. One lemma for each shared operation: everything it can do when it answers a next state. -/

namespace Sys2Proof.Machine

/-! ### Outcomes -/

@[simp] theorem next_inj (s t : State) : (Host.Outcome.next s : Result) = .next t ↔ s = t := by
  constructor
  · intro h; injection h
  · rintro rfl; rfl

@[simp] theorem isError_noError : ErrCode.noError.isError = false := rfl

theorem isError_iff (k : ErrCode) : k.isError = true ↔ k ≠ .noError := by simp [ErrCode.isError]

@[simp] theorem succeed_next (i : Instr) (s t : State) :
    succeed i s = .next t ↔ t = s.complete .noError (encode i) := by
  simp only [succeed, next_inj]; exact eq_comm

@[simp] theorem raiseError_next (k : ErrCode) (i : Instr) (s t : State) :
    raiseError k i s = .next t ↔ t = s.complete k (encode i) := by
  simp only [raiseError, next_inj]; exact eq_comm

/-- A success does not look at the command word. -/
theorem complete_noError (w w' : Word) (s : State) : s.complete .noError w = s.complete .noError w' := rfl

/-! ### Tables -/

/-- Work on a table answers a next state exactly when the table is written in full and the work does. -/
theorem withTable_next {n : Nat} (t : Vector (Option Byte) n) (run : Vector Byte n → Result) (s' : State) :
    withTable t run = .next s' ↔ allWritten t = true ∧ run (entriesOf t) = .next s' := by
  unfold withTable
  split <;> simp [*]

/-- Work on a table written in full is the work on its entries. -/
theorem withTable_of_allWritten {n : Nat} (t : Vector (Option Byte) n) (run : Vector Byte n → Result)
    (h : allWritten t = true) : withTable t run = run (entriesOf t) := by
  simp [withTable, h]

/-- Work on a table that some entry of is unwritten is the model fault. -/
theorem withTable_of_unwritten {n : Nat} (t : Vector (Option Byte) n) (run : Vector Byte n → Result)
    (h : allWritten t = false) : withTable t run = .fault .unwrittenTableEntry := by
  simp [withTable, h]

/-- The shared readiness check of the commands that read the S-box. -/
theorem withValidSbox_next (i : Instr) (s : State) (run : Table → Result) (s' : State) :
    withValidSbox i s run = .next s' ↔
      (s.sboxValid = true ∧ allWritten s.sbox = true ∧ run (entriesOf s.sbox) = .next s') ∨
      (s.sboxValid = false ∧ s' = s.complete .notReady (encode i)) := by
  unfold withValidSbox
  cases h : s.sboxValid <;> simp [withTable_next]

theorem withValidSbox_of_valid (i : Instr) (s : State) (run : Table → Result)
    (h : s.sboxValid = true) (hw : allWritten s.sbox = true) :
    withValidSbox i s run = run (entriesOf s.sbox) := by
  simp [withValidSbox, h, withTable, hw]

/-- The end of SBUILD and SVERIFY always completes, with code 0 or code 6. -/
theorem finishCheck_next (t : Table) (i : Instr) (s s' : State) :
    finishCheck t i s = .next s' ↔
      (bijective t = true ∧ s' = (s.checkTable t).complete .noError (encode i)) ∨
      (bijective t = false ∧ s' = (s.checkTable t).complete .nonBijectiveSbox (encode i)) := by
  unfold finishCheck
  cases h : bijective t <;> simp

@[simp] theorem putBlock_next (i : Instr) (b : Block) (s s' : State) :
    putBlock i b s = .next s' ↔ s' = (s.withBlk b).complete .noError (encode i) := by
  simp [putBlock]

/-! ### The host window -/

/-- Everything a busy-checked write can do. -/
theorem whenIdle_cases (off : Offset) (s : State) (act : State → State) :
    (s.busy = true ∧ whenIdle off s act = s.refuseWrite off) ∨ (s.busy = false ∧ whenIdle off s act = act s) := by
  unfold whenIdle
  cases s.busy <;> simp

theorem whenIdle_idle (off : Offset) (s : State) (act : State → State) (h : s.busy = false) :
    whenIdle off s act = act s := by simp [whenIdle, h]

theorem whenIdle_busy (off : Offset) (s : State) (act : State → State) (h : s.busy = true) :
    whenIdle off s act = s.refuseWrite off := by simp [whenIdle, h]

/-- Everything a write to CTRL can do. -/
theorem writeCtrl_cases (v : Word) (s : State) :
    writeCtrl v s = s.resetBlock ∨ writeCtrl v s = s.clearDone.clearErrors ∨ writeCtrl v s = s.clearDone ∨
      writeCtrl v s = s.clearErrors ∨ writeCtrl v s = s := by
  unfold writeCtrl
  split
  · exact .inl rfl
  · split
    · split <;> simp
    · split <;> simp

/-- Everything a host write of v at `off` can make of the state s. -/
inductive WriteEffect (off : Offset) (v : Word) (s : State) : State → Prop where
  /-- A read-only or reserved offset (R66, R69). -/
  | ignored : WriteEffect off v s s
  /-- CTRL (R25). -/
  | control : WriteEffect off v s (writeCtrl v s)
  /-- A busy violation (R71). -/
  | refused (h : s.busy = true) : WriteEffect off v s (s.refuseWrite off)
  /-- CMD (R70). -/
  | accepted (h : s.busy = false) : WriteEffect off v s (s.accept v)
  /-- IRQEN (R33). -/
  | enables : WriteEffect off v s (writeIrqen v s)
  /-- BALTOL (R32). -/
  | tolerance (h : s.busy = false) : WriteEffect off v s (writeBalTol v s)
  /-- CONST (R31). -/
  | constant (h : s.busy = false) : WriteEffect off v s (writeConst v s)
  /-- MAT0, MAT1 (R30). -/
  | matrix (h : s.busy = false) (k : Fin 2) : WriteEffect off v s (writeMat k.val v s)
  /-- KEY0-KEY3 (R34). -/
  | key (h : s.busy = false) (k : Fin 4) : WriteEffect off v s (writeKey k.val v s)
  /-- BLK0-BLK3 (R35). -/
  | block (h : s.busy = false) (k : Fin 4) : WriteEffect off v s (writeBlk k.val v s)
  /-- The S-box window (R67). -/
  | table (h : s.busy = false) (k : Fin 64) : WriteEffect off v s (writeSbox k.val v s)

/-- A host write has one of these effects. -/
theorem hostWrite_effect (off : Offset) (v : Word) (s : State) : WriteEffect off v s (hostWrite off v s) := by
  unfold hostWrite
  cases locate off <;>
    first
    | exact .ignored
    | exact .control
    | exact .enables
    | (cases hb : s.busy with
       | true => simp only [whenIdle_busy _ _ _ hb]; exact .refused hb
       | false =>
         simp only [whenIdle_idle _ _ _ hb]
         first
         | exact .accepted hb
         | exact .tolerance hb
         | exact .constant hb
         | exact .matrix hb _
         | exact .key hb _
         | exact .block hb _
         | exact .table hb _)

/-- A host read changes the draw count alone (R73). -/
@[simp] theorem hostRead_state (off : Offset) (s : State) : (hostRead off s).2 = { s with draws := s.draws + 1 } := rfl

/-- A bus write inside the window is the host write at its offset (R60, R101). -/
theorem memWrite_in_window (off : Offset) (v : Word) (s : State) :
    memWrite (Config.blockBase + off.toNat) v s = some (hostWrite off v s) := by
  have h := off.isLt
  simp only [memWrite, windowOffset]
  rw [if_pos (by omega), Option.map_some]
  congr 2
  rw [Nat.add_sub_cancel_left, BitVec.ofNat_toNat, BitVec.setWidth_eq]

/-- A bus read inside the window is the host read at its offset (R60, R101). -/
theorem memRead_in_window (off : Offset) (s : State) :
    memRead (Config.blockBase + off.toNat) s = some (hostRead off s) := by
  have h := off.isLt
  simp only [memRead, windowOffset]
  rw [if_pos (by omega), Option.map_some]
  congr 2
  rw [Nat.add_sub_cancel_left, BitVec.ofNat_toNat, BitVec.setWidth_eq]

/-! ### Host variables -/

/-- A variable written reads back. -/
@[simp] theorem getVar_setVar_same (vars : List (Nat × Word)) (n : Nat) (v : Word) :
    getVar (setVar vars n v) n = v := by
  induction vars with
  | nil => simp [setVar, getVar]
  | cons p rest ih =>
    obtain ⟨m, u⟩ := p
    simp only [setVar]
    split
    · simp [getVar]
    · split
      · simp [getVar]
      · rw [getVar, if_neg (by omega)]; exact ih

/-- A variable written leaves every other one alone, in a list that rises. -/
theorem getVar_setVar_other (vars : List (Nat × Word)) (n k : Nat) (v : Word) (h : k ≠ n) :
    getVar (setVar vars n v) k = getVar vars k := by
  induction vars with
  | nil => simp [setVar, getVar, Ne.symm h]
  | cons p rest ih =>
    obtain ⟨m, u⟩ := p
    simp only [setVar]
    split
    · rw [getVar, if_neg (by omega)]
    · split
      · rename_i hm
        rw [getVar, if_neg (by omega), getVar, if_neg (by omega)]
      · simp only [getVar, ih]

/-- The names of a rising list that starts above m. -/
theorem varsRise_cons (m : Nat) (u : Word) (rest : List (Nat × Word)) :
    varsRise ((m, u) :: rest) = true ↔ (∀ p ∈ rest.head?, m < p.1) ∧ varsRise rest = true := by
  cases rest with
  | nil => simp [varsRise]
  | cons p rest => obtain ⟨n, w⟩ := p; simp [varsRise]

theorem setVar_head (vars : List (Nat × Word)) (n : Nat) (v : Word) (m : Nat)
    (h : ∀ p ∈ vars.head?, m < p.1) (hn : m < n) : ∀ p ∈ (setVar vars n v).head?, m < p.1 := by
  cases vars with
  | nil => simpa [setVar] using hn
  | cons p rest =>
    obtain ⟨k, u⟩ := p
    simp only [List.head?_cons, Option.mem_def, Option.some.injEq, forall_eq'] at h
    simp only [setVar]
    split
    · simpa using hn
    · split
      · simpa using hn
      · simpa using h

/-- Setting a variable keeps the list rising. -/
theorem varsRise_setVar (vars : List (Nat × Word)) (n : Nat) (v : Word) (h : varsRise vars = true) :
    varsRise (setVar vars n v) = true := by
  induction vars with
  | nil => rfl
  | cons p rest ih =>
    obtain ⟨m, u⟩ := p
    rw [varsRise_cons] at h
    simp only [setVar]
    split
    · rw [varsRise_cons, varsRise_cons]
      exact ⟨by simpa, h⟩
    · split
      · subst n
        rw [varsRise_cons]; exact h
      · rw [varsRise_cons]
        exact ⟨setVar_head rest n v m h.1 (by omega), ih h.2⟩

/-! ### Turns -/

@[simp] theorem nextTurn_cons (s : State) (t : Turn) (ts : List Turn) (h : s.turns = t :: ts) : nextTurn s = t := by
  simp [nextTurn, h]

/-- With nothing scheduled a pending command moves next (R281: the engine's step is taken). -/
theorem nextTurn_pending (s : State) (h : s.turns = []) (hp : s.pcmd.isSome = true) : nextTurn s = .engine := by
  simp [nextTurn, h, hp]

/-- With nothing scheduled and nothing pending the host moves next. -/
theorem nextTurn_idle (s : State) (h : s.turns = []) (hp : s.pcmd = none) : nextTurn s = .host := by
  simp [nextTurn, h, hp]

/-- Everything a step can do: one turn of the host, of the engine, or of the reset input. -/
theorem step_cases (s : State) (r : Result) (h : step s = r) :
    (nextTurn s = .host ∧ hostTurn s.popTurn = r) ∨ (nextTurn s = .engine ∧ engineTurn s.popTurn = r) ∨
      (nextTurn s = .reset ∧ r = .next s.popTurn.resetBlock) := by
  unfold step takeTurn at h
  cases hn : nextTurn s <;> simp_all

/-- Everything a turn of the engine can do. -/
theorem engineTurn_cases (s : State) (r : Result) (h : engineTurn s = r) :
    (s.pcmd = none ∧ r = .next s) ∨
    (∃ w i, s.pcmd = some w ∧ decode w = .ok i ∧ exec i s = r) ∨
    (∃ w e, s.pcmd = some w ∧ decode w = .error e ∧ r = .next (s.complete (decodeErrorCode e) w)) := by
  unfold engineTurn runWord at h
  cases hp : s.pcmd with
  | none => left; simp_all
  | some w =>
    right
    cases hd : decode w with
    | ok i => left; exact ⟨w, i, rfl, hd, by simpa [hp, hd] using h⟩
    | error e => right; exact ⟨w, e, rfl, hd, by simpa [hp, hd] using h.symm⟩

/-- Everything a turn of the host can do to a next state. -/
theorem hostTurn_cases (s t : State) (h : hostTurn s = .next t) :
    t = s ∨ (∃ off v, t = (hostWrite off v s).nextLine) ∨ (∃ off n, t = runRead off n s) ∨ t = s.nextLine ∨
      (∃ p, t = { s with host := { s.host with pos := p } }) ∨ t = { s with host := { s.host with halted := true } } := by
  unfold hostTurn at h
  split at h
  · left; simpa using h.symm
  · split at h
    · rename_i line _
      cases line with
      | write off v => right; left; exact ⟨off, v, by simpa [runLine] using h.symm⟩
      | read off n => right; right; left; exact ⟨off, n, by simpa [runLine] using h.symm⟩
      | cmd i => right; left; exact ⟨_, _, by simpa [runLine] using h.symm⟩
      | label l => right; right; right; left; simpa [runLine] using h.symm
      | bnz n m l =>
        simp only [runLine, runBnz] at h
        split at h
        · right; right; right; left; simpa using h.symm
        · split at h
          · right; right; right; right; left; exact ⟨_, by simpa using h.symm⟩
          · simp at h
      | halt => right; right; right; right; right; simpa [runLine] using h.symm
    · left; simpa using h.symm

end Sys2Proof.Machine
end

