-- ==== Sys2Proof/Laws/Exec.lean ====
section
/-! SUPPORT. One lemma for each command's meaning: every next state it can answer. -/

namespace Sys2Proof.Machine

theorem execNop_next (s t : State) : execNop s = .next t ↔ t = s.complete .noError (encode .nop) := by
  simp [execNop]

theorem execGfmul_next (a b : Byte) (s t : State) : execGfmul a b s = .next t ↔
    t = (s.withResults ((gfmul a b).setWidth 32) 0).complete .noError (encode (.gfmul a b)) := by
  simp [execGfmul]

theorem execGfinv_next (a : Byte) (s t : State) : execGfinv a s = .next t ↔
    t = (s.withResults ((gfinv a).setWidth 32) 0).complete .noError (encode (.gfinv a)) := by
  simp [execGfinv]

theorem execAffine_next (y : Byte) (s t : State) : execAffine y s = .next t ↔
    t = (s.withResults ((affine s.mrow s.const y).setWidth 32) 0).complete .noError (encode (.affine y)) := by
  simp [execAffine]

theorem execMsel_next (v : Byte) (s t : State) : execMsel v s = .next t ↔
    (variantExists v = true ∧
      t = { s with mrow := variantMatrix v, const := variantConst v, matOk := false }.complete .noError
        (encode (.msel v))) ∨
    (variantExists v = false ∧ t = s.complete .badOperand (encode (.msel v))) := by
  unfold execMsel
  cases variantExists v <;> simp

theorem execMrank_next (s t : State) : execMrank s = .next t ↔
    t = { s.withResults (BitVec.ofNat 32 (rankOf s.mrow)) (failWord (rankCheck s.mrow)) with
      matOk := rankOf s.mrow == 8 }.complete .noError (encode .mrank) := by
  simp [execMrank]

theorem execSbuild_next (s t : State) : execSbuild s = .next t ↔
    (s.matOk = true ∧
      finishCheck (sboxOf s.mrow s.const) .sbuild
        { s with sbox := written (sboxOf s.mrow s.const), sboxValid := true, keyReady := false } = .next t) ∨
    (s.matOk = false ∧ t = s.complete .nonInvertibleMatrix (encode .sbuild)) := by
  unfold execSbuild
  cases s.matOk <;> simp

theorem execSverify_next (s t : State) : execSverify s = .next t ↔
    allWritten s.sbox = true ∧ finishCheck (entriesOf s.sbox) .sverify { s with sboxValid := true } = .next t := by
  rw [execSverify, withTable_next]

theorem execWht_next (b : Byte) (s t : State) : execWht b s = .next t ↔
    (s.sboxValid = true ∧ allWritten s.sbox = true ∧
      t = { s.withResults (BitVec.ofNat 32 (spectrumPeak (entriesOf s.sbox) b).1)
              ((spectrumPeak (entriesOf s.sbox) b).2.setWidth 32) with
            wspec := written (spectrum (entriesOf s.sbox) b), wspecValid := true }.complete .noError
          (encode (.wht b))) ∨
    (s.sboxValid = false ∧ t = s.complete .notReady (encode (.wht b))) := by
  rw [execWht, withValidSbox_next]; simp

theorem execNl_next (s t : State) : execNl s = .next t ↔
    (s.sboxValid = true ∧ allWritten s.sbox = true ∧
      t = ((s.withResults (BitVec.ofNat 32 (nonlinearity (entriesOf s.sbox)).1)
              ((nonlinearity (entriesOf s.sbox)).2.setWidth 32)).scratchWspec).complete .noError (encode .nl)) ∨
    (s.sboxValid = false ∧ t = s.complete .notReady (encode .nl)) := by
  rw [execNl, withValidSbox_next]; simp

theorem execLap_next (s t : State) : execLap s = .next t ↔
    (s.sboxValid = true ∧ allWritten s.sbox = true ∧
      t = ((s.withResults (BitVec.ofNat 32 (lapPeak (entriesOf s.sbox)).1)
              (pairWord (lapPeak (entriesOf s.sbox)).2.1 (lapPeak (entriesOf s.sbox)).2.2)).scratchWspec).complete
            .noError (encode .lap)) ∨
    (s.sboxValid = false ∧ t = s.complete .notReady (encode .lap)) := by
  rw [execLap, withValidSbox_next]; simp

theorem execDdtrow_next (dx : Byte) (s t : State) : execDdtrow dx s = .next t ↔
    (s.sboxValid = true ∧ allWritten s.sbox = true ∧
      t = { s.withResults (BitVec.ofNat 32 (rowPeak (entriesOf s.sbox) dx).1)
              ((rowPeak (entriesOf s.sbox) dx).2.setWidth 32) with
            ddtr := written (ddtRow (entriesOf s.sbox) dx), ddtrValid := true }.complete .noError
          (encode (.ddtrow dx))) ∨
    (s.sboxValid = false ∧ t = s.complete .notReady (encode (.ddtrow dx))) := by
  rw [execDdtrow, withValidSbox_next]; simp

theorem execDu_next (s t : State) : execDu s = .next t ↔
    (s.sboxValid = true ∧ allWritten s.sbox = true ∧
      t = ((s.withResults (BitVec.ofNat 32 (duPeak (entriesOf s.sbox)).1)
              (pairWord (duPeak (entriesOf s.sbox)).2.1 (duPeak (entriesOf s.sbox)).2.2)).scratchDdtr).complete
            .noError (encode .du)) ∨
    (s.sboxValid = false ∧ t = s.complete .notReady (encode .du)) := by
  rw [execDu, withValidSbox_next]; simp

theorem execKexp_next (s t : State) : execKexp s = .next t ↔
    (s.sboxValid = true ∧ allWritten s.sbox = true ∧
      t = { s with rk := written (kexp s.key (entriesOf s.sbox)), keyReady := true }.complete .noError
          (encode .kexp)) ∨
    (s.sboxValid = false ∧ t = s.complete .notReady (encode .kexp)) := by
  rw [execKexp, withValidSbox_next]; simp

theorem execEnc_next (s t : State) : execEnc s = .next t ↔
    (s.sboxValid = true ∧ s.keyReady = true ∧ allWritten s.sbox = true ∧ allWritten s.rk = true ∧
      t = (s.withBlk (cipher s.blk (entriesOf s.rk) (entriesOf s.sbox))).complete .noError (encode .enc)) ∨
    ((s.sboxValid = false ∨ s.keyReady = false) ∧ t = s.complete .notReady (encode .enc)) := by
  unfold execEnc
  cases h : s.sboxValid <;> cases h' : s.keyReady <;> simp [withTable_next]

theorem execDec_next (s t : State) : execDec s = .next t ↔
    (s.isboxValid = true ∧ s.keyReady = true ∧ allWritten s.isbox = true ∧ allWritten s.rk = true ∧
      t = (s.withBlk (invCipher s.blk (entriesOf s.rk) (entriesOf s.isbox))).complete .noError (encode .dec)) ∨
    ((s.isboxValid = false ∨ s.keyReady = false) ∧ t = s.complete .notReady (encode .dec)) := by
  unfold execDec
  cases h : s.isboxValid <;> cases h' : s.keyReady <;> simp [withTable_next]

theorem execSubb_next (s t : State) : execSubb s = .next t ↔
    (s.sboxValid = true ∧ allWritten s.sbox = true ∧
      t = (s.withBlk (subBytes (entriesOf s.sbox) s.blk)).complete .noError (encode .subb)) ∨
    (s.sboxValid = false ∧ t = s.complete .notReady (encode .subb)) := by
  rw [execSubb, withValidSbox_next]; simp

theorem execIsubb_next (s t : State) : execIsubb s = .next t ↔
    (s.isboxValid = true ∧ allWritten s.isbox = true ∧
      t = (s.withBlk (subBytes (entriesOf s.isbox) s.blk)).complete .noError (encode .isubb)) ∨
    (s.isboxValid = false ∧ t = s.complete .notReady (encode .isubb)) := by
  unfold execIsubb
  cases h : s.isboxValid <;> simp [withTable_next]

theorem execShr_next (s t : State) : execShr s = .next t ↔
    t = (s.withBlk (shiftRows s.blk)).complete .noError (encode .shr) := by
  simp [execShr]

theorem execIshr_next (s t : State) : execIshr s = .next t ↔
    t = (s.withBlk (invShiftRows s.blk)).complete .noError (encode .ishr) := by
  simp [execIshr]

theorem execMixc_next (s t : State) : execMixc s = .next t ↔
    t = (s.withBlk (mixColumns s.blk)).complete .noError (encode .mixc) := by
  simp [execMixc]

theorem execImixc_next (s t : State) : execImixc s = .next t ↔
    t = (s.withBlk (invMixColumns s.blk)).complete .noError (encode .imixc) := by
  simp [execImixc]

theorem execArk_next (r : Byte) (s t : State) : execArk r s = .next t ↔
    (roundExists r = true ∧ s.keyReady = true ∧ allWritten s.rk = true ∧
      t = (s.withBlk (addRoundKey s.blk (roundKey (entriesOf s.rk) r.toNat))).complete .noError
        (encode (.ark r))) ∨
    (roundExists r = true ∧ s.keyReady = false ∧ t = s.complete .notReady (encode (.ark r))) ∨
    (roundExists r = false ∧ t = s.complete .badOperand (encode (.ark r))) := by
  unfold execArk
  cases roundExists r <;> cases h : s.keyReady <;> simp [withTable_next]

end Sys2Proof.Machine
end

