-- ==== Sys2Proof/Laws/Gf.lean ====
section
/-! SUPPORT. The shape of the field product (40_gf256.md R120): eight conditional additions of a's successive doublings. -/

namespace Sys2Proof.Machine

/-- `xtime` (R123): doubling in the field. -/
def xtime (a : Byte) : Byte := if a.getLsbD 7 then (a <<< 1) ^^^ 0x1B else a <<< 1

/-- Doubling n times. -/
def xtimes (n : Nat) (a : Byte) : Byte :=
  match n with
  | 0 => a
  | n + 1 => xtimes n (xtime a)

theorem gfmulLoop_succ (n : Nat) (a b p : Byte) :
    gfmulLoop (n + 1) a b p = gfmulLoop n (xtime a) (b >>> 1) (if b.getLsbD 0 then p ^^^ a else p) := rfl

/-- A bit of a byte as a mask: all of x or nothing. -/
def maskBy (c : Bool) (x : Byte) : Byte := if c then x else 0

@[simp] theorem maskBy_true (x : Byte) : maskBy true x = x := rfl

@[simp] theorem maskBy_false (x : Byte) : maskBy false x = 0#8 := rfl

theorem maskBy_xor (c : Bool) (x y : Byte) : maskBy c (x ^^^ y) = maskBy c x ^^^ maskBy c y := by
  cases c <;> simp

theorem maskBy_xor_bool (c d : Bool) (x : Byte) : maskBy (c ^^ d) x = maskBy c x ^^^ maskBy d x := by
  cases c <;> cases d <;> simp

/-- Two sums regrouped. -/
theorem xor_regroup (p q r s : Byte) : (p ^^^ q) ^^^ (r ^^^ s) = (p ^^^ r) ^^^ (q ^^^ s) := by ac_rfl

/-- The partial product only adds to the result. -/
theorem gfmulLoop_acc (n : Nat) (a b p : Byte) : gfmulLoop n a b p = p ^^^ gfmulLoop n a b 0 := by
  induction n generalizing a b p with
  | zero => simp [gfmulLoop]
  | succ n ih =>
    rw [gfmulLoop_succ, gfmulLoop_succ, ih, ih _ _ (if b.getLsbD 0 then 0 ^^^ a else 0)]
    split <;> simp [BitVec.xor_assoc]

/-- One iteration: the operand where the multiplier's low bit is set, and the rest of the product. -/
theorem gfmulLoop_step (n : Nat) (a b : Byte) :
    gfmulLoop (n + 1) a b 0 = maskBy (b.getLsbD 0) a ^^^ gfmulLoop n (xtime a) (b >>> 1) 0 := by
  rw [gfmulLoop_succ, gfmulLoop_acc]
  cases b.getLsbD 0 <;> simp

/-- Doubling is linear. -/
theorem xtime_xor (a b : Byte) : xtime (a ^^^ b) = xtime a ^^^ xtime b := by
  have h : ∀ x : Byte, xtime x = (x <<< 1) ^^^ maskBy (x.getLsbD 7) 0x1B := by
    intro x; unfold xtime maskBy; split <;> simp
  have hs : (a ^^^ b) <<< 1 = (a <<< 1) ^^^ (b <<< 1) := by
    ext i hi
    simp only [BitVec.getElem_shiftLeft, BitVec.getElem_xor]
    cases decide (i < 1) <;> simp
  rw [h, h, h, BitVec.getLsbD_xor, hs, maskBy_xor_bool, xor_regroup]

/-- The product is linear in its first operand (R123: distributes over addition). -/
theorem gfmulLoop_xor_left (n : Nat) (a a' b : Byte) :
    gfmulLoop n (a ^^^ a') b 0 = gfmulLoop n a b 0 ^^^ gfmulLoop n a' b 0 := by
  induction n generalizing a a' b with
  | zero => simp [gfmulLoop]
  | succ n ih => rw [gfmulLoop_step, gfmulLoop_step, gfmulLoop_step, xtime_xor, ih, maskBy_xor, xor_regroup]

/-- The product is linear in its second operand. -/
theorem gfmulLoop_xor_right (n : Nat) (a b b' : Byte) :
    gfmulLoop n a (b ^^^ b') 0 = gfmulLoop n a b 0 ^^^ gfmulLoop n a b' 0 := by
  induction n generalizing a b b' with
  | zero => simp [gfmulLoop]
  | succ n ih =>
    have hs : (b ^^^ b') >>> 1 = (b >>> 1) ^^^ (b' >>> 1) := by
      ext i hi
      simp [BitVec.getElem_ushiftRight]
    rw [gfmulLoop_step, gfmulLoop_step, gfmulLoop_step, BitVec.getLsbD_xor, hs, ih, maskBy_xor_bool, xor_regroup]

/-- The product is linear in its first operand, in the form a proof rewrites with. -/
theorem gfmul_xor_left (a a' b : Byte) : gfmul (a ^^^ a') b = gfmul a b ^^^ gfmul a' b := gfmulLoop_xor_left 8 a a' b

/-- The product is linear in its second operand. -/
theorem gfmul_xor_right (a b b' : Byte) : gfmul a (b ^^^ b') = gfmul a b ^^^ gfmul a b' := gfmulLoop_xor_right 8 a b b'

/-- Output bit i of the affine map (R122). -/
theorem affine_getLsbD (m : Vector Byte 8) (c y : Byte) (i : Nat) (h : i < 8) :
    (affine m c y).getLsbD i = (parity (entry m i &&& y) ^^ c.getLsbD i) := by
  rw [affine, BitVec.getLsbD_xor, byteOfBits_getLsbD _ _ h]

end Sys2Proof.Machine
end

