-- ==== Sys2Proof/Laws/Memory.lean ====
section
/-! SUPPORT. The canonical form of the stored data (`Memory.wf`): the ranges of the values the commands store, and that every
operation that writes an array, a weight or a host variable keeps the form. -/

namespace Sys2Proof.Machine

/-! ### Ranges -/

/-- A sum of values of magnitude at most 1 is at most the number of them. -/
theorem natAbs_sum_le {α : Type} (f : α → Int) (l : List α) (h : ∀ x ∈ l, (f x).natAbs ≤ 1) :
    ((l.map f).sum).natAbs ≤ l.length := by
  induction l with
  | nil => simp
  | cons x xs ih =>
    have h1 := h x (by simp)
    have h2 := ih (fun y hy => h y (by simp [hy]))
    simp only [List.map_cons, List.sum_cons, List.length_cons]
    omega

/-- Every spectrum value is in [-256, 256] (R171). -/
theorem walsh_natAbs_le (t : Table) (b a : Byte) : (walsh t b a).natAbs ≤ 256 := by
  have := natAbs_sum_le (fun x => if component t b x ^^ dot a x then (-1 : Int) else 1) allBytes
    (by intro x _; split <;> decide)
  simpa [walsh] using this

/-- Ten bits of two's complement hold every spectrum value (R39). -/
theorem toInt_ofInt_ten (v : Int) (h : v.natAbs ≤ 256) : (BitVec.ofInt 10 v).toInt = v := by
  rw [BitVec.toInt_ofInt]
  apply Int.bmod_eq_of_le <;> omega

/-- WSPEC holds the exact integer (R172). -/
theorem spectrum_toInt (t : Table) (b : Byte) (a : Fin 256) :
    ((spectrum t b)[a]).toInt = walsh t b (BitVec.ofFin a) := by
  simp only [spectrum, tabulate_getElem_fin]
  exact toInt_ofInt_ten _ (walsh_natAbs_le _ _ _)

/-- Every entry of the difference table is at most 256 (R180). -/
theorem ddt_le (t : Table) (dx dy : Byte) : ddt t dx dy ≤ 256 := by
  have := List.countP_le_length (p := fun x => t.look (x ^^^ dx) ^^^ t.look x == dy) (l := allBytes)
  simpa [ddt] using this

/-- Nine bits hold every entry (R40). -/
theorem ddtRow_toNat (t : Table) (dx : Byte) (dy : Fin 256) :
    ((ddtRow t dx)[dy]).toNat = ddt t dx (BitVec.ofFin dy) := by
  simp only [ddtRow, tabulate_getElem_fin, BitVec.toNat_ofNat]
  exact Nat.mod_eq_of_lt (by have := ddt_le t dx (BitVec.ofFin dy); omega)

/-- Every column weight is at most 256 (R151). -/
theorem columnWeight_le (t : Table) (i : Nat) : columnWeight t i ≤ 256 := by
  have := List.countP_le_length (p := fun v : Byte => v.getLsbD i) (l := t.toList)
  simpa [columnWeight] using this

theorem columnWeights_toNat (t : Table) (i : Fin 8) : ((columnWeights t)[i]).toNat = columnWeight t i.val := by
  simp only [columnWeights, tabulate_getElem_fin, BitVec.toNat_ofNat]
  exact Nat.mod_eq_of_lt (by have := columnWeight_le t i.val; omega)

/-! ### The form, entry by entry -/

theorem all_toList_iff {α : Type} {n : Nat} (v : Vector α n) (p : α → Bool) :
    v.toList.all p = true ↔ ∀ i : Fin n, p v[i] = true := by
  simp only [List.all_eq_true]
  constructor
  · intro h i
    exact h _ (by simp [Vector.mem_toList_iff])
  · intro h x hx
    obtain ⟨i, hi, rfl⟩ := Vector.getElem_of_mem (Vector.mem_toList_iff.mp hx)
    exact h ⟨i, hi⟩

/-- `Memory.wf` says four things. -/
theorem wf_iff (s : State) : Memory.wf s = true ↔
    (∀ i : Fin 256, ∀ v, s.wspec[i] = some v → v.toInt.natAbs ≤ 256) ∧
    (∀ i : Fin 256, ∀ v, s.ddtr[i] = some v → v.toNat ≤ 256) ∧
    (∀ i : Fin 8, (s.balw[i]).toNat ≤ 256) ∧ varsRise s.host.vars = true := by
  simp only [Memory.wf, Bool.and_eq_true, all_toList_iff, decide_eq_true_eq, and_assoc, Option.all_eq_true]

/-! ### Every operation keeps it -/

/-- The form depends on four fields alone. -/
theorem wf_congr (s t : State) (h1 : t.wspec = s.wspec) (h2 : t.ddtr = s.ddtr) (h3 : t.balw = s.balw)
    (h4 : t.host.vars = s.host.vars) : Memory.wf t = Memory.wf s := by
  simp only [Memory.wf, h1, h2, h3, h4]

theorem reset_wf : Memory.wf State.reset = true := by
  rw [wf_iff]
  simp [State.reset, HostAgent.idle, varsRise]

/-- The storage of WHT (R172). -/
theorem wf_spectrum (s : State) (t : Table) (b : Byte) (h : Memory.wf s = true) :
    Memory.wf { s with wspec := written (spectrum t b) } = true := by
  rw [wf_iff] at h ⊢
  refine ⟨?_, h.2⟩
  intro i v hv
  simp only [written, tabulate_getElem_fin, Option.some.injEq] at hv
  subst hv
  rw [spectrum_toInt]
  exact walsh_natAbs_le _ _ _

/-- The storage of DDTROW (R182). -/
theorem wf_ddtRow (s : State) (t : Table) (dx : Byte) (h : Memory.wf s = true) :
    Memory.wf { s with ddtr := written (ddtRow t dx) } = true := by
  rw [wf_iff] at h ⊢
  refine ⟨h.1, ?_, h.2.2⟩
  intro i v hv
  simp only [written, tabulate_getElem_fin, Option.some.injEq] at hv
  subst hv
  rw [ddtRow_toNat]
  exact ddt_le _ _ _

/-- The table check (R147). -/
theorem wf_checkTable (s : State) (t : Table) (h : Memory.wf s = true) : Memory.wf (s.checkTable t) = true := by
  rw [wf_iff] at h ⊢
  refine ⟨h.1, h.2.1, ?_, h.2.2.2⟩
  intro i
  rw [checkTable_balw, columnWeights_toNat]
  exact columnWeight_le _ _

/-- The scratch storage of NL and LAP (R177). -/
theorem wf_scratchWspec (s : State) (h : Memory.wf s = true) : Memory.wf s.scratchWspec = true := by
  rw [wf_iff] at h ⊢
  refine ⟨?_, h.2⟩
  intro i v hv
  simp at hv

/-- The scratch storage of DU (R185). -/
theorem wf_scratchDdtr (s : State) (h : Memory.wf s = true) : Memory.wf s.scratchDdtr = true := by
  rw [wf_iff] at h ⊢
  refine ⟨h.1, ?_, h.2.2⟩
  intro i v hv
  simp at hv

/-- Reset (R271). -/
theorem wf_resetBlock (s : State) (h : Memory.wf s = true) : Memory.wf s.resetBlock = true := by
  have hr := (wf_iff _).mp reset_wf
  rw [wf_iff] at h ⊢
  exact ⟨hr.1, hr.2.1, hr.2.2.1, h.2.2.2⟩

/-- A host variable written (R101). -/
theorem wf_setHostVar (s : State) (n : Nat) (v : Word) (h : Memory.wf s = true) :
    Memory.wf (s.setHostVar n v) = true := by
  rw [wf_iff] at h ⊢
  exact ⟨h.1, h.2.1, h.2.2.1, varsRise_setVar _ _ _ h.2.2.2⟩

@[simp] theorem wf_complete (s : State) (k : ErrCode) (w : Word) : Memory.wf (s.complete k w) = Memory.wf s := rfl
@[simp] theorem wf_accept (s : State) (w : Word) : Memory.wf (s.accept w) = Memory.wf s := rfl
@[simp] theorem wf_refuseWrite (s : State) (off : Offset) : Memory.wf (s.refuseWrite off) = Memory.wf s := rfl
@[simp] theorem wf_withResults (s : State) (r0 r1 : Word) : Memory.wf (s.withResults r0 r1) = Memory.wf s := rfl
@[simp] theorem wf_clearDone (s : State) : Memory.wf s.clearDone = Memory.wf s := rfl
@[simp] theorem wf_clearErrors (s : State) : Memory.wf s.clearErrors = Memory.wf s := rfl
@[simp] theorem wf_nextLine (s : State) : Memory.wf s.nextLine = Memory.wf s := rfl
@[simp] theorem wf_popTurn (s : State) : Memory.wf s.popTurn = Memory.wf s := rfl

/-- A host write keeps the form: it stores to no array the form speaks of, or it resets the block. -/
theorem wf_hostWrite (off : Offset) (v : Word) (s : State) (h : Memory.wf s = true) :
    Memory.wf (hostWrite off v s) = true := by
  have hw := hostWrite_effect off v s
  generalize hostWrite off v s = t at hw
  cases hw with
  | control =>
    rcases writeCtrl_cases v s with e | e | e | e | e <;> rw [e]
    · exact wf_resetBlock s h
    · exact h
    · exact h
    · exact h
    · exact h
  | _ => exact h

/-- A host read keeps the form. -/
theorem wf_hostRead (off : Offset) (s : State) (h : Memory.wf s = true) :
    Memory.wf (hostRead off s).2 = true := h

end Sys2Proof.Machine
end

