-- ==== Sys2Proof/Laws/PerInstr.lean ====
section
/-! SUPPORT. The family RoundTrip, one lemma for each command: the decoder reads the command back from its word, with every
operand at every value. -/

namespace Sys2Proof.Laws.RoundTrip

/-- The word of the command decodes to the command. -/
def Statement (i : Instr) : Prop := decode (encode i) = .ok i

theorem noOperand_trip (o : Byte) (i : Instr) : noOperand (commandWord o 0 0) i = .ok i := by
  simp [opaField_commandWord, opbField_commandWord, rsvField_commandWord]

theorem oneOperand_trip (o a : Byte) (mk : Byte → Instr) : oneOperand (commandWord o a 0) mk = .ok (mk a) := by
  simp [opaField_commandWord, opbField_commandWord, rsvField_commandWord]

theorem twoOperands_trip (o a b : Byte) (mk : Byte → Byte → Instr) :
    twoOperands (commandWord o a b) mk = .ok (mk a b) := by
  simp [opaField_commandWord, opbField_commandWord, rsvField_commandWord]

theorem nop : Statement .nop := by
  simp only [Statement, encode, decode, opcField_commandWord]
  exact noOperand_trip _ _

theorem gfmul (a b : Byte) : Statement (.gfmul a b) := by
  simp only [Statement, encode, decode, opcField_commandWord]
  exact twoOperands_trip _ _ _ _

theorem gfinv (a : Byte) : Statement (.gfinv a) := by
  simp only [Statement, encode, decode, opcField_commandWord]
  exact oneOperand_trip _ _ _

theorem affine (y : Byte) : Statement (.affine y) := by
  simp only [Statement, encode, decode, opcField_commandWord]
  exact oneOperand_trip _ _ _

theorem msel (v : Byte) : Statement (.msel v) := by
  simp only [Statement, encode, decode, opcField_commandWord]
  exact oneOperand_trip _ _ _

theorem mrank : Statement .mrank := by
  simp only [Statement, encode, decode, opcField_commandWord]
  exact noOperand_trip _ _

theorem sbuild : Statement .sbuild := by
  simp only [Statement, encode, decode, opcField_commandWord]
  exact noOperand_trip _ _

theorem sverify : Statement .sverify := by
  simp only [Statement, encode, decode, opcField_commandWord]
  exact noOperand_trip _ _

theorem wht (b : Byte) : Statement (.wht b) := by
  simp only [Statement, encode, decode, opcField_commandWord]
  exact oneOperand_trip _ _ _

theorem nl : Statement .nl := by
  simp only [Statement, encode, decode, opcField_commandWord]
  exact noOperand_trip _ _

theorem lap : Statement .lap := by
  simp only [Statement, encode, decode, opcField_commandWord]
  exact noOperand_trip _ _

theorem ddtrow (dx : Byte) : Statement (.ddtrow dx) := by
  simp only [Statement, encode, decode, opcField_commandWord]
  exact oneOperand_trip _ _ _

theorem du : Statement .du := by
  simp only [Statement, encode, decode, opcField_commandWord]
  exact noOperand_trip _ _

theorem kexp : Statement .kexp := by
  simp only [Statement, encode, decode, opcField_commandWord]
  exact noOperand_trip _ _

theorem enc : Statement .enc := by
  simp only [Statement, encode, decode, opcField_commandWord]
  exact noOperand_trip _ _

theorem dec : Statement .dec := by
  simp only [Statement, encode, decode, opcField_commandWord]
  exact noOperand_trip _ _

theorem subb : Statement .subb := by
  simp only [Statement, encode, decode, opcField_commandWord]
  exact noOperand_trip _ _

theorem isubb : Statement .isubb := by
  simp only [Statement, encode, decode, opcField_commandWord]
  exact noOperand_trip _ _

theorem shr : Statement .shr := by
  simp only [Statement, encode, decode, opcField_commandWord]
  exact noOperand_trip _ _

theorem ishr : Statement .ishr := by
  simp only [Statement, encode, decode, opcField_commandWord]
  exact noOperand_trip _ _

theorem mixc : Statement .mixc := by
  simp only [Statement, encode, decode, opcField_commandWord]
  exact noOperand_trip _ _

theorem imixc : Statement .imixc := by
  simp only [Statement, encode, decode, opcField_commandWord]
  exact noOperand_trip _ _

theorem ark (r : Byte) : Statement (.ark r) := by
  simp only [Statement, encode, decode, opcField_commandWord]
  exact oneOperand_trip _ _ _

end Sys2Proof.Laws.RoundTrip
end

