-- ==== Sys2Proof/Tests/Slice0.lean ====
section
/-! SUPPORT. Small tests of the model and the witnesses of the statements' hypotheses. Expected results come from the vectors of
spec/95_test_vectors.md (named by their ids), from the examples of the command rules, or from the rules by hand. -/

open Sys2Proof Sys2Proof.Machine

namespace Sys2Proof.Tests

/-- The state a result ends in; the state after reset where it ends in none. -/
def after (r : Result) : State :=
  match r with
  | .next t => t
  | .fault _ => State.reset
  | .refused _ => State.reset

/-- The AES table: table T1 of 95_test_vectors.md, word by word. -/
def aesWords : List Word :=
  [0x7B777C63, 0xC56F6BF2, 0x2B670130, 0x76ABD7FE, 0x7DC982CA, 0xF04759FA, 0xAFA2D4AD, 0xC072A49C] ++
  [0x2693FDB7, 0xCCF73F36, 0xF1E5A534, 0x1531D871, 0xC323C704, 0x9A059618, 0xE2801207, 0x75B227EB] ++
  [0x1A2C8309, 0xA05A6E1B, 0xB3D63B52, 0x842FE329, 0xED00D153, 0x5BB1FC20, 0x39BECB6A, 0xCF584C4A] ++
  [0xFBAAEFD0, 0x85334D43, 0x7F02F945, 0xA89F3C50, 0x8F40A351, 0xF5389D92, 0x21DAB6BC, 0xD2F3FF10] ++
  [0xEC130CCD, 0x1744975F, 0x3D7EA7C4, 0x73195D64, 0xDC4F8160, 0x88902A22, 0x14B8EE46, 0xDB0B5EDE] ++
  [0x0A3A32E0, 0x5C240649, 0x62ACD3C2, 0x79E49591, 0x6D37C8E7, 0xA94ED58D, 0xEAF4566C, 0x08AE7A65] ++
  [0x2E2578BA, 0xC6B4A61C, 0x1F74DDE8, 0x8A8BBD4B, 0x66B53E70, 0x0EF60348, 0xB9573561, 0x9E1DC186] ++
  [0x1198F8E1, 0x948ED969, 0xE9871E9B, 0xDF2855CE, 0x0D89A18C, 0x6842E6BF, 0x0F2D9941, 0x16BB54B0]

def aesTable : Table := tabulate fun i => byteAt (aesWords.getD (i.val / 4) 0) (i.val % 4)

def identityTable : Table := tabulate fun i => BitVec.ofFin i

def zeroTable : Table := Vector.replicate 256 0

def identityRows : Vector Byte 8 := ⟨#[0x01, 0x02, 0x04, 0x08, 0x10, 0x20, 0x40, 0x80], rfl⟩

def singularRows : Vector Byte 8 := ⟨#[0x01, 0x02, 0x04, 0x08, 0x10, 0x20, 0x40, 0x40], rfl⟩

/-- After reset with a table loaded and verified. -/
def withSbox (t : Table) : State := { State.reset with sbox := written t, sboxValid := true }

/-- The bytes 00 11 22 .. ff of the ENC example (R213). -/
def countBlock : Block :=
  ⟨#[0x00, 0x11, 0x22, 0x33, 0x44, 0x55, 0x66, 0x77, 0x88, 0x99, 0xAA, 0xBB, 0xCC, 0xDD, 0xEE, 0xFF], rfl⟩

/-- The bytes 00 01 .. 0f. -/
def rampBlock : Block := ⟨#[0, 1, 2, 3, 4, 5, 6, 7, 8, 9, 10, 11, 12, 13, 14, 15], rfl⟩

/-! ### WellFormed refuses what R241 calls an operand out of range -/

theorem test_wf_msel_refuses_2 : WellFormed (.msel 2) = false := by decide

theorem test_wf_ark_refuses_11 : WellFormed (.ark 11) = false := by decide

theorem test_wf_accepts_the_last : WellFormed (.msel 1) = true ∧ WellFormed (.ark 10) = true := by decide

/-! ### Decoding: every constructor, words written out from R90 and R95 -/

theorem test_decode_gf : decode 0b00000000000000000000000000000000 = .ok .nop ∧
    decode 0b00000001100000110101011100000000 = .ok (.gfmul 0x57 0x83) ∧
    decode 0b00000010000000000101001100000000 = .ok (.gfinv 0x53) ∧
    decode 0b00000011000000001100101000000000 = .ok (.affine 0xCA) := ⟨rfl, rfl, rfl, rfl⟩

theorem test_decode_matrix : decode 0b00010000000000000000000100000000 = .ok (.msel 1) ∧
    decode 0b00010001000000000000000000000000 = .ok .mrank ∧
    decode 0b00010010000000000000000000000000 = .ok .sbuild ∧
    decode 0b00010011000000000000000000000000 = .ok .sverify := ⟨rfl, rfl, rfl, rfl⟩

theorem test_decode_analysis : decode 0b00100000000000001000000000000000 = .ok (.wht 0x80) ∧
    decode 0b00100001000000000000000000000000 = .ok .nl ∧ decode 0b00100010000000000000000000000000 = .ok .lap ∧
    decode 0b00100011000000000000000100000000 = .ok (.ddtrow 1) ∧
    decode 0b00100100000000000000000000000000 = .ok .du := ⟨rfl, rfl, rfl, rfl, rfl⟩

theorem test_decode_cipher : decode 0b00110000000000000000000000000000 = .ok .kexp ∧
    decode 0b00110001000000000000000000000000 = .ok .enc ∧ decode 0b00110010000000000000000000000000 = .ok .dec :=
  ⟨rfl, rfl, rfl⟩

theorem test_decode_rounds : decode 0b00110011000000000000000000000000 = .ok .subb ∧
    decode 0b00110100000000000000000000000000 = .ok .isubb ∧ decode 0b00110101000000000000000000000000 = .ok .shr ∧
    decode 0b00110110000000000000000000000000 = .ok .ishr ∧ decode 0b00110111000000000000000000000000 = .ok .mixc ∧
    decode 0b00111000000000000000000000000000 = .ok .imixc ∧
    decode 0b00111001000000000000101000000000 = .ok (.ark 10) := ⟨rfl, rfl, rfl, rfl, rfl, rfl, rfl⟩

/-- R244: the opcode is checked before the reserved fields. -/
theorem test_decode_rejects : decode 0x04000001 = .error .illegalOpcode ∧ decode 0xFF000000 = .error .illegalOpcode ∧
    decode 0x00000001 = .error .reservedField ∧ decode 0x02015300 = .error .reservedField ∧
    decode 0x31000100 = .error .reservedField := ⟨rfl, rfl, rfl, rfl, rfl⟩

/-- R100's examples. -/
theorem test_text : Instr.text (.gfmul 0x57 0x83) = "GFMUL 87, 131" ∧ Instr.text (.ark 10) = "ARK 10" ∧
    Instr.text .nop = "NOP" := by decide

/-! ### One step of each command -/

/-- GF20. -/
theorem test_step_nop : statusWord (after (step (State.reset.withFetchWord 32 0))) = 0x00000002 := by decide

/-- GF1, in one step from its word. -/
theorem test_step_gfmul : (after (step (State.reset.withFetchWord 32 0x01835700))).result0 = 0xC1 := by decide

/-- GF3. -/
theorem test_gfmul_reduces : gfmul 0x80 0x02 = 0x1B := by decide

/-- GF9. -/
theorem test_gfinv : (after (exec (.gfinv 0x53) State.reset)).result0 = 0xCA := by decide +kernel

/-- GF5. -/
theorem test_gfinv_zero : (after (exec (.gfinv 0) State.reset)).result0 = 0 := by decide

/-- GF14. -/
theorem test_affine : (after (exec (.affine 0xCA) { State.reset with mrow := aesMatrix, const := 0x63 })).result0 = 0xED := by
  decide

/-- GF19. -/
theorem test_affine_singular :
    (after (exec (.affine 0x40) { State.reset with mrow := singularRows, const := 0x63 })).result0 = 0xA3 := by decide

/-- SB4. -/
theorem test_msel : readWord 0x030 0 (after (exec (.msel 0) State.reset)) = 0x8FC7E3F1 ∧
    readWord 0x034 0 (after (exec (.msel 0) State.reset)) = 0xF87C3E1F := by decide

/-- SB7. -/
theorem test_msel_bad : statusWord (after (exec (.msel 2) State.reset)) = 0x0000003E := by decide

/-- SB2a. -/
theorem test_mrank : (after (exec .mrank { State.reset with mrow := singularRows })).result0 = 7 ∧
    (after (exec .mrank { State.reset with mrow := singularRows })).result1 = 0x00000707 := by decide +kernel

/-- SB1a. -/
theorem test_mrank_full : (after (exec .mrank { State.reset with mrow := identityRows })).matOk = true := by decide +kernel

/-- SB8. -/
theorem test_sbuild_not_checked : statusWord (after (exec .sbuild State.reset)) = 0x0000005E ∧
    (after (exec .sbuild State.reset)).errInfo = 0x12000000 := by decide

/-- R127's example: the S-box entry of 0x53. -/
theorem test_sbox_entry : (sboxOf aesMatrix 0x63).look 0x53 = 0xED := by decide +kernel

/-- SB11. -/
theorem test_sverify_missing : firstMissing zeroTable = 0x001 := by decide +kernel

/-- SB12 with no window word written. -/
theorem test_sverify_fault : exec .sverify State.reset = .fault .unwrittenTableEntry := rfl

/-- R242: the analysis commands need SBOX_VALID. -/
theorem test_analysis_not_ready : (after (exec (.wht 1) State.reset)).errCode = .notReady ∧
    (after (exec .nl State.reset)).errCode = .notReady ∧ (after (exec .lap State.reset)).errCode = .notReady ∧
    (after (exec (.ddtrow 1) State.reset)).errCode = .notReady ∧ (after (exec .du State.reset)).errCode = .notReady := by
  decide

/-- R172: a linear table has W_b(b) = 256. -/
theorem test_walsh_identity : walsh identityTable 1 1 = 256 := by decide +kernel

/-- R184: a linear table has the entry (1, 1) = 256. -/
theorem test_ddt_identity : ddt identityTable 1 1 = 256 := by decide +kernel

/-- R178, R182: ties go to the first. -/
theorem test_first_wins : firstMax (fun n : Nat => n % 3) [1, 5, 2, 8] = some (2, 5) ∧
    firstMin (fun n : Nat => n % 3) [1, 5, 3, 6] = some (0, 3) := by decide

/-- R212: the all-zero key under the AES table gives RK[1] = 62 63 63 63 62 ... -/
theorem test_kexp_zero_key : entry (kexp (Vector.replicate 16 0) aesTable) 16 = 0x62 ∧
    entry (kexp (Vector.replicate 16 0) aesTable) 17 = 0x63 := by decide +kernel

/-- R213's example: byte 0 of the ciphertext. -/
theorem test_cipher : (cipher countBlock (kexp rampBlock aesTable) aesTable)[0] = 0x69 := by decide +kernel

/-- R212, R213, R214, R215, R216: commands that need a flag end with NOT_READY without it. -/
theorem test_cipher_not_ready : (after (exec .kexp State.reset)).errCode = .notReady ∧
    (after (exec .enc State.reset)).errCode = .notReady ∧ (after (exec .dec State.reset)).errCode = .notReady ∧
    (after (exec .subb State.reset)).errCode = .notReady ∧ (after (exec .isubb State.reset)).errCode = .notReady := by
  decide

/-- R215's first bytes. -/
theorem test_subb : aesTable.look 0x19 = 0xD4 ∧ aesTable.look 0x3D = 0x27 := by decide +kernel

/-- R217's example. -/
theorem test_shr : (after (exec .shr { State.reset with blk := rampBlock })).blk =
    ⟨#[0x00, 0x05, 0x0A, 0x0F, 0x04, 0x09, 0x0E, 0x03, 0x08, 0x0D, 0x02, 0x07, 0x0C, 0x01, 0x06, 0x0B], rfl⟩ := by
  decide +kernel

/-- R218's example. -/
theorem test_ishr : (after (exec .ishr { State.reset with blk := rampBlock })).blk =
    ⟨#[0x00, 0x0D, 0x0A, 0x07, 0x04, 0x01, 0x0E, 0x0B, 0x08, 0x05, 0x02, 0x0F, 0x0C, 0x09, 0x06, 0x03], rfl⟩ := by
  decide +kernel

/-- R219's example. -/
theorem test_mixc : mixColumns
      ⟨#[0xD4, 0xBF, 0x5D, 0x30, 0xE0, 0xB4, 0x52, 0xAE, 0xB8, 0x41, 0x11, 0xF1, 0x1E, 0x27, 0x98, 0xE5], rfl⟩ =
    ⟨#[0x04, 0x66, 0x81, 0xE5, 0xE0, 0xCB, 0x19, 0x9A, 0x48, 0xF8, 0xD3, 0x7A, 0x28, 0x06, 0x26, 0x4C], rfl⟩ := by
  decide +kernel

/-- R220's example. -/
theorem test_imixc : invMixColumns
      ⟨#[0x8E, 0x4D, 0xA1, 0xBC, 0x8E, 0x4D, 0xA1, 0xBC, 0x8E, 0x4D, 0xA1, 0xBC, 0x8E, 0x4D, 0xA1, 0xBC], rfl⟩ =
    ⟨#[0xDB, 0x13, 0x53, 0x45, 0xDB, 0x13, 0x53, 0x45, 0xDB, 0x13, 0x53, 0x45, 0xDB, 0x13, 0x53, 0x45], rfl⟩ := by
  decide +kernel

/-- R221's example: round key 0 is the key 00 01 .. 0f. -/
theorem test_ark : addRoundKey countBlock rampBlock =
    ⟨#[0x00, 0x10, 0x20, 0x30, 0x40, 0x50, 0x60, 0x70, 0x80, 0x90, 0xA0, 0xB0, 0xC0, 0xD0, 0xE0, 0xF0], rfl⟩ := by
  decide +kernel

/-- R221: BAD_OPERAND comes before NOT_READY. -/
theorem test_ark_bad : (after (exec (.ark 11) State.reset)).errCode = .badOperand ∧
    (after (exec (.ark 10) State.reset)).errCode = .notReady := by decide

/-! ### The host window -/

/-- R24, R62: ID, whatever the low bits. -/
theorem test_read_id : readWord 0x003 0 State.reset = 0x53425831 := by decide

/-- R23: the last offset of each block of registers and windows, and the first after it. -/
theorem test_locate_boundaries : locate 0x02B = .const ∧ locate 0x02C = .reserved ∧ locate 0x037 = .mat 1 ∧
    locate 0x038 = .reserved ∧ locate 0x07F = .balw 7 ∧ locate 0x080 = .reserved ∧ locate 0x3FF = .reserved ∧
    locate 0x400 = .sbox 0 ∧ locate 0x4FF = .sbox 63 ∧ locate 0x500 = .isbox 0 ∧ locate 0x6AF = .rk 43 ∧
    locate 0x6B0 = .reserved ∧ locate 0x7FF = .reserved ∧ locate 0x800 = .wspec 0 ∧ locate 0xBFF = .wspec 255 ∧
    locate 0xC00 = .ddtr 0 ∧ locate 0xFFF = .ddtr 255 := by decide

/-- R63: byte 0 of the key is the low byte of KEY0. -/
theorem test_key_bytes : (hostWrite 0x044 0x07060504 State.reset).key[4] = 0x04 := by decide

/-- R71, R29. -/
theorem test_busy_violation : (hostWrite 0x05E 1 (State.reset.accept 0)).errAddr = 0x05C ∧
    (hostWrite 0x05E 1 (State.reset.accept 0)).busyViol = true ∧
    (hostWrite 0x05E 1 (State.reset.accept 0)).blk = State.reset.blk := by decide

/-- R65: WSPEC reads sign-extended, DDTR zero-extended. -/
theorem test_integer_windows :
    readWord 0x800 0 { State.reset with wspec := Vector.replicate 256 (some (BitVec.ofInt 10 (-16))) } = 0xFFFFFFF0 ∧
    readWord 0xC00 0 { State.reset with ddtr := Vector.replicate 256 (some 256) } = 0x00000100 := by decide +kernel

/-- R25: a soft reset while busy abandons the command. -/
theorem test_soft_reset : hostWrite 0x004 1 ({ State.reset with balTol := 5 }.accept 0x31000000) = State.reset := by rfl

/-- R250. -/
theorem test_irq : irq (after (exec .nop { State.reset with doneIe := true })) = true ∧
    irq (after (exec .nop State.reset)) = false := by decide

/-- R101, R102: RUN NOP on an idle block: the command is accepted by the host's turn and performed by the engine's. -/
theorem test_run_nop :
    (after (runFor 2 { State.reset with host := { HostAgent.idle with prog := runLines 0 0 .nop } })).done = true := by
  decide

/-! ### Witnesses: for each statement with hypotheses, a state and operands that meet them together -/

/-- A table in which every value occurs is bijective. -/
theorem bijective_of_occurs (t : Table) (h : ∀ v, occurs t v = true) : bijective t = true := by
  have hf : allBytes.filter (occurs t) = allBytes := List.filter_eq_self.mpr fun v _ => h v
  simp [bijective, distinctCount, hf]

/-- A table in which some value does not occur is not bijective. -/
theorem not_bijective_of_missing (t : Table) (v : Byte) (h : occurs t v = false) : bijective t = false := by
  rw [bijective, beq_eq_false_iff_ne]
  intro hn
  have hall := List.length_filter_eq_length_iff.mp (hn.trans length_allBytes.symm)
  have hv := hall v (mem_allBytes v)
  rw [h] at hv
  cases hv

theorem look_identity (x : Byte) : identityTable.look x = x := by simp [identityTable]

theorem bijective_identity : bijective identityTable = true := by
  refine bijective_of_occurs _ fun v => ?_
  simp only [occurs, List.contains_iff_mem, Vector.mem_toList_iff]
  exact Vector.mem_of_getElem (i := v.toNat) (look_identity v)

theorem not_bijective_zero : bijective zeroTable = false := not_bijective_of_missing _ 1 (by decide +kernel)

/-- A checked matrix, a table loaded but not verified. -/
def checkedState : State :=
  { State.reset with mrow := identityRows, matOk := true, sbox := written zeroTable }

theorem inv_checkedState : Inv checkedState where
  busy_iff_pending := by decide
  err_iff_code := by decide
  busy_quiet := by decide
  matOk_rank := fun _ => by decide +kernel
  sbox_written := by decide
  sbox_bij := by simp [checkedState, State.reset]
  isbox_written := by decide
  isbox_inverse := by simp [checkedState, State.reset]
  bal_checked := by decide
  key_fresh := by simp [checkedState, State.reset]
  wspec_written := by decide
  ddtr_written := by decide
  errAddr_aligned := by decide
  stored_wf := reset_wf

/-- The identity table verified, its inverse, and the round keys of the zero key under it. -/
def readyState : State :=
  { State.reset with
    sbox := written identityTable
    sboxValid := true
    sboxBij := true
    isbox := written identityTable
    isboxValid := true
    rk := written (kexp (Vector.replicate 16 0) identityTable)
    keyReady := true }

theorem inv_readyState : Inv readyState where
  busy_iff_pending := by decide
  err_iff_code := by decide
  busy_quiet := by decide
  matOk_rank := by decide
  sbox_written := fun _ => allWritten_written _
  sbox_bij := fun _ => ⟨rfl, by rw [readyState, entriesOf_written]; exact bijective_identity⟩
  isbox_written := fun _ => ⟨rfl, rfl, allWritten_written _⟩
  isbox_inverse := fun _ x => by
    rw [readyState, entriesOf_written, look_identity, look_identity]
  bal_checked := by decide
  key_fresh := fun _ => ⟨rfl, by rw [readyState, entriesOf_written, State.reset]⟩
  wspec_written := by decide
  ddtr_written := by decide
  errAddr_aligned := by decide
  stored_wf := reset_wf

theorem witness_DecodedWordIsItsEncoding : decode 0x01835700 = .ok (.gfmul 0x57 0x83) := rfl

theorem witness_DecodeFollowsTheOpcodeTable : decode 0x39000A00 = .ok (.ark 10) ∧
    (⟨"ARK", 0x39000000, 0xFFFF00FF⟩ : OpcodeRow) ∈ opcodeRows ∧
    (⟨"ARK", 0x39000000, 0xFFFF00FF⟩ : OpcodeRow).fits 0x39000A00 = true := ⟨rfl, by decide, by decide⟩

theorem witness_WordsThatAreNoCommandsEndWithTheirCode :
    unassignedOpcode (opcField 0x3A000000).toNat = true ∧ unassignedOpcode (opcField 0xFF000000).toNat = true ∧
    unassignedOpcode (opcField 0x39010000).toNat = false ∧ breaksReserved 0x39010000 = true ∧
    unassignedOpcode (opcField 0x39000A00).toNat = false ∧ breaksReserved 0x39000A00 = false := by decide

theorem witness_StepRunsTheDecodedCommand :
    nextTurn (State.reset.accept 0x31000000) = .engine ∧ (State.reset.accept 0x31000000).pcmd = some 0x31000000 ∧
    decode 0x31000000 = .ok .enc ∧ nextTurn (State.reset.accept 0xFF000000) = .engine ∧
    (State.reset.accept 0xFF000000).pcmd = some 0xFF000000 ∧ decode 0xFF000000 = .error .illegalOpcode ∧
    decode 0x31000100 = .error .reservedField ∧ nextTurn { State.reset with turns := [.engine] } = .engine ∧
    ({ State.reset with turns := [.engine] } : State).pcmd = none :=
  ⟨rfl, rfl, rfl, rfl, rfl, rfl, rfl, rfl, rfl⟩

/-- A host about to run one line, with variable 0 holding 1. -/
def hostAt (line : HostLine) : State :=
  { State.reset with host := { prog := [line], pos := 0, vars := [(0, 1)], halted := false } }

theorem witness_HostTurnRunsTheNextLine (line : HostLine) :
    nextTurn (hostAt line) = .host ∧ (hostAt line).host.halted = false ∧
    (hostAt line).host.prog[(hostAt line).host.pos]? = some line := ⟨rfl, rfl, rfl⟩

theorem witness_HostTurnRunsTheNextLine_idle : nextTurn State.reset = .host ∧
    State.reset.host.prog[State.reset.host.pos]? = none ∧
    nextTurn { State.reset with host := { HostAgent.idle with halted := true } } = .host ∧
    ({ State.reset with host := { HostAgent.idle with halted := true } } : State).host.halted = true := ⟨rfl, rfl, rfl, rfl⟩

theorem witness_HostTurnRunsTheNextLine_bnz :
    (getVar (hostAt (.bnz 0 2 7)).host.vars 0 &&& 2 = 0) ∧
    (getVar (hostAt (.bnz 0 1 7)).host.vars 0 &&& 1 ≠ 0 ∧ findLabel (hostAt (.bnz 0 1 7)).host.prog 7 = none) ∧
    (getVar [(0, 1)] 0 &&& 1 ≠ 0 ∧ findLabel [.label 7, .bnz 0 1 7] 7 = some 0) := by decide

theorem witness_EveryCommandCompletesWithItsCode :
    Inv checkedState ∧ (Instr.sverify = .sverify → allWritten checkedState.sbox = true) :=
  ⟨inv_checkedState, fun _ => allWritten_written _⟩

theorem witness_FailedChecksEndWithTheirCode :
    WellFormed (.msel 2) = false ∧ WellFormed (.ark 11) = false ∧
    (WellFormed (.ark 10) = true ∧ flagsReady (.ark 10) State.reset = false) ∧ State.reset.matOk = false := by decide

theorem witness_ErrorsChangeOnlyWhatTheRuleSays :
    (∃ t, runWord 0x12000000 State.reset = .next t ∧ t.errCode ≠ .noError ∧ t.errCode ≠ .nonBijectiveSbox) ∧
    (∃ t, exec .sverify checkedState = .next t ∧ t.errCode = .nonBijectiveSbox) := by
  have h : execSverify checkedState = .next ((State.checkTable (entriesOf checkedState.sbox)
      { checkedState with sboxValid := true }).complete .nonBijectiveSbox (encode .sverify)) := by
    rw [execSverify, withTable_next]
    refine ⟨allWritten_written _, (finishCheck_next _ _ _ _).mpr (.inr ⟨?_, rfl⟩)⟩
    rw [checkedState, entriesOf_written]
    exact not_bijective_zero
  exact ⟨⟨State.reset.complete .nonInvertibleMatrix 0x12000000, rfl, by simp, by simp⟩, ⟨_, h, complete_errCode _ _ _⟩⟩

theorem witness_CommandsLeaveTheHostsRegistersAlone :
    (∃ t, exec .nop State.reset = .next t) ∧ (∀ v, Instr.nop ≠ .msel v) ∧ (∃ t, exec (.msel 0) State.reset = .next t) :=
  ⟨⟨_, rfl⟩, fun _ => by simp, ⟨_, rfl⟩⟩

theorem witness_ArraysFlagsAndResultsHaveTheirWriters :
    (∃ t, exec .nop State.reset = .next t) ∧ Instr.nop ≠ .sbuild ∧ Instr.nop ≠ .sverify ∧ Instr.nop ≠ .kexp ∧
    (∀ b, Instr.nop ≠ .wht b) ∧ Instr.nop ≠ .nl ∧ Instr.nop ≠ .lap ∧ (∀ d, Instr.nop ≠ .ddtrow d) ∧ Instr.nop ≠ .du ∧
    (∀ v, Instr.nop ≠ .msel v) ∧ Instr.nop ≠ .mrank ∧ (∀ r, Instr.nop ≠ .ark r) ∧
    Instr.nop ∈ [Instr.nop, .kexp, .enc, .dec, .subb, .isubb, .shr, .ishr, .mixc, .imixc] :=
  ⟨⟨_, rfl⟩, by simp⟩

theorem witness_EveryStepKeepsTheInvariant : Inv checkedState ∧ ∃ t, step checkedState = .next t :=
  ⟨inv_checkedState, _, rfl⟩

theorem witness_ResetLeavesTheStatedValues : (3 : Offset).toNat < 4 ∧ 4 ≤ (4 : Offset).toNat ∧
    (0x3FF : Offset).toNat < 0x400 := by decide

theorem witness_BothResetsRestoreTheResetState : (1 : Word).getLsbD 0 = true ∧
    ({ State.reset with turns := [.reset] } : State).turns = .reset :: [] := by decide

theorem witness_ControlFieldsAct : (1 : Word).getLsbD 0 = true ∧ (6 : Word).getLsbD 0 = false := by decide

theorem witness_WrittenWordsReadBack : State.reset.busy = false ∧
    (0x030 ≤ (0x030 : Offset).toNat ∧ (0x037 : Offset).toNat < 0x038) ∧
    (0x040 ≤ (0x040 : Offset).toNat ∧ (0x05F : Offset).toNat < 0x060) ∧
    (0x400 ≤ (0x400 : Offset).toNat ∧ (0x4FF : Offset).toNat < 0x500) ∧
    (0x024 ≤ (0x024 : Offset).toNat ∧ (0x02B : Offset).toNat < 0x02C) ∧
    (0x020 ≤ (0x020 : Offset).toNat ∧ (0x023 : Offset).toNat < 0x024) := by decide

theorem witness_WritesLeaveOtherWordsAlone : State.reset.busy = false ∧ (0x4FC : Offset) &&& 0xFFC ≠ 0x004 ∧
    (0x4FC : Offset) &&& 0xFFC ≠ 0x00C ∧ (0x500 : Offset) &&& 0xFFC ≠ (0x4FC : Offset) &&& 0xFFC ∧
    (0x500 : Offset) &&& 0xFFC ≠ 0x008 := by decide

/-- The idle state after reset meets the one hypothesis of OperandWritesStoreAndClear, SboxWindowWrite, WindowsReadTheirEntries,
StatusWordHoldsTheFlags, RegistersReadTheirFields and AcceptanceOfACommand. -/
theorem witness_idle_statements : State.reset.busy = false := rfl

theorem witness_BusyWritesAreRefused : (State.reset.accept 0).busy = true ∧
    (0x00C ≤ (0x00C : Offset).toNat ∧ (0x00F : Offset).toNat < 0x010) ∧
    (0x020 ≤ (0x020 : Offset).toNat ∧ (0x023 : Offset).toNat < 0x024) ∧
    (0x004 ≤ (0x004 : Offset).toNat ∧ (0x007 : Offset).toNat < 0x008) ∧
    (0 : Word).getLsbD 0 = false ∧ (1 : Word).getLsbD 0 = true := by decide

theorem witness_ReadOnlyAndReservedWritesAreIgnored : (0x003 : Offset).toNat < 0x004 ∧
    (0x500 ≤ (0x500 : Offset).toNat ∧ (0x6AF : Offset).toNat < 0x6B0) ∧ 0x800 ≤ (0xFFF : Offset).toNat ∧
    (0x6B0 ≤ (0x6B0 : Offset).toNat ∧ (0x7FF : Offset).toNat < 0x800) := by decide

theorem witness_ReadsWhileBusy : (State.reset.accept 0).busy = true ∧
    (0x010 ≤ (0x010 : Offset).toNat ∧ (0x01B : Offset).toNat < 0x01C) ∧
    (0x400 ≤ (0x400 : Offset).toNat ∧ (0x6AF : Offset).toNat < 0x6B0) ∧ 0x800 ≤ (0x800 : Offset).toNat ∧
    (0x004 ≤ (0x004 : Offset).toNat ∧ (0x007 : Offset).toNat < 0x008) ∧
    (0x6B0 ≤ (0x6B0 : Offset).toNat ∧ (0x7FF : Offset).toNat < 0x800) := by decide

theorem witness_ReadsChangeNothingAndWritesRepeat : (0x050 : Offset) &&& 0xFFC ≠ 0x00C ∧
    (0x050 : Offset) &&& 0xFFC ≠ 0x004 ∧ (0x020 : Offset) &&& 0xFFC ≠ 0x00C ∧ (0x020 : Offset) &&& 0xFFC ≠ 0x004 := by decide

theorem witness_InterruptLine : ∃ t, exec .sbuild State.reset = .next t ∧ t.errCode ≠ .noError := ⟨_, rfl, by decide⟩

theorem witness_ErrorsStayUntilCleared : State.reset.busy = false ∧
    (∃ t, runWord 0x12000000 { State.reset with esticky := true } = .next t ∧ t.errCode ≠ .noError) ∧
    (∃ t, runWord 0 { State.reset with esticky := true } = .next t ∧ t.errCode = .noError) :=
  ⟨rfl, ⟨_, rfl, by decide⟩, ⟨_, rfl, rfl⟩⟩

theorem witness_PendingCommandLeavesTheLatch : (State.reset.accept 0x31000000).pcmd = some 0x31000000 := rfl

theorem witness_GfinvIsTheInverse : (0 : Byte) = 0 ∧ (0xFF : Byte) ≠ 0 := by decide

theorem witness_MselLoadsAVariant : 2 ≤ (2 : Byte).toNat ∧ 2 ≤ (255 : Byte).toNat ∧
    ∃ t, exec (.msel 0) State.reset = .next t := ⟨by decide, by decide, _, rfl⟩

theorem witness_SbuildBuildsABijectiveTable : checkedState.matOk = true ∧ rankOf checkedState.mrow = 8 :=
  ⟨rfl, inv_checkedState.matOk_rank rfl⟩

theorem witness_SverifyChecksTheTable : checkedState.sbox = written zeroTable ∧ readyState.sbox = written identityTable :=
  ⟨rfl, rfl⟩

theorem witness_SverifyFaultsOnAnUnwrittenEntry : State.reset.sbox[0] = none ∧ State.reset.sbox[255] = none := by
  simp [State.reset]

theorem witness_BijectiveTables : bijective identityTable = true ∧ 128 ≤ (128 : Byte).toNat :=
  ⟨bijective_identity, by decide⟩

/-- The hypotheses of WhtStoresTheSpectrum, NlGivesTheWorstComponent, LapGivesTheBestApproximation, DdtrowStoresTheRow,
DuGivesTheDifferentialUniformity and KexpFollowsTheRecurrence. -/
theorem witness_verified_table_statements (t : Table) : (withSbox t).sboxValid = true ∧ (withSbox t).sbox = written t :=
  ⟨rfl, rfl⟩

theorem witness_DifferenceTableLaws : Function.Injective identityTable.look ∧ (1 : Byte) ≠ 0 ∧
    ((0 : Byte), (1 : Byte)) ≠ (0, 0) :=
  ⟨fun x y h => by rwa [look_identity, look_identity] at h, by decide, by decide⟩

theorem witness_SubstituteBytes : readyState.sboxValid = true ∧ readyState.sbox = written identityTable ∧
    readyState.isboxValid = true ∧ readyState.isbox = written identityTable := ⟨rfl, rfl, rfl, rfl⟩

theorem witness_AddRoundKeyAddsBytewise :
    (readyState.rk = written (kexp (Vector.replicate 16 0) identityTable) ∧ readyState.keyReady = true ∧
      (10 : Byte).toNat ≤ 10 ∧ 11 ≤ (11 : Byte).toNat) ∧
    (({ readyState with keyReady := false } : State).rk = written (kexp (Vector.replicate 16 0) identityTable) ∧
      ({ readyState with keyReady := false } : State).keyReady = false) := ⟨⟨rfl, rfl, by decide, by decide⟩, rfl, rfl⟩

theorem witness_CiphersAreTheirRoundCommands : readyState.sboxValid = true ∧ readyState.keyReady = true ∧
    readyState.isboxValid = true ∧ readyState.sbox = written identityTable ∧ readyState.isbox = written identityTable ∧
    readyState.rk = written (kexp (Vector.replicate 16 0) identityTable) := ⟨rfl, rfl, rfl, rfl, rfl, rfl⟩

theorem witness_DecUndoesEnc : Inv readyState ∧ readyState.isboxValid = true ∧ readyState.keyReady = true :=
  ⟨inv_readyState, rfl, rfl⟩

end Sys2Proof.Tests
end

section
/-! PROOF. The registers of the host window, and the statements about what they read and what a write to one stores
(10_state.md R23 to R35). -/

namespace Sys2Proof.Machine

/-! ### Where the registers stand (10_state.md R23) -/

theorem locate_ctrl : locate 0x004 = .ctrl := by decide
theorem locate_status : locate 0x008 = .status := by decide
theorem locate_result0 : locate 0x010 = .result0 := by decide
theorem locate_result1 : locate 0x014 = .result1 := by decide
theorem locate_errInfo : locate 0x018 = .errInfo := by decide
theorem locate_errAddr : locate 0x01C = .errAddr := by decide
theorem locate_irqen : locate 0x020 = .irqen := by decide
theorem locate_balTol : locate 0x024 = .balTol := by decide
theorem locate_const : locate 0x028 = .const := by decide
theorem locate_mat : ∀ k : Fin 2, locate (BitVec.ofNat 12 (0x030 + 4 * k.val)) = .mat k := by decide
theorem locate_key : ∀ k : Fin 4, locate (BitVec.ofNat 12 (0x040 + 4 * k.val)) = .key k := by decide
theorem locate_blk : ∀ k : Fin 4, locate (BitVec.ofNat 12 (0x050 + 4 * k.val)) = .blk k := by decide
theorem locate_balw : ∀ k : Fin 8, locate (BitVec.ofNat 12 (0x060 + 4 * k.val)) = .balw k := by decide

/-! ### Words of registers -/

theorem settled_idle (s : State) (draw v : Word) (h : s.busy = false) : settled s draw v = v := by
  simp [settled, h]

/-- Byte m of word k of a byte array is its byte 4k+m (R63). -/
theorem extractLsb'_wordOf (f : Nat → Byte) (k : Nat) (m : Fin 4) :
    (wordOf f k).extractLsb' (8 * m.val) 8 = f (4 * k + m.val) := by
  match m with
  | 0 => exact byteAt_packWord_0 ..
  | 1 => exact byteAt_packWord_1 ..
  | 2 => exact byteAt_packWord_2 ..
  | 3 => exact byteAt_packWord_3 ..

/-- The bits of a flag at bit n of a word. -/
theorem getLsbD_flagBit (b : Bool) (n i : Nat) (hn : n < 32) : (flagBit b n).getLsbD i = (decide (i = n) && b) := by
  simp only [flagBit, BitVec.getLsbD_shiftLeft, BitVec.getLsbD_setWidth, BitVec.getLsbD_ofBool]
  by_cases h : i = n
  · subst h; simp [hn]
  · rcases Nat.lt_or_gt_of_ne h with h' | h'
    · simp [h, h']
    · simp [h, Nat.sub_ne_zero_of_lt h']

/-- The STATUS word, bit by bit (R26). -/
theorem getLsbD_statusWord (s : State) (i : Nat) :
    (statusWord s).getLsbD i =
      (decide (i = 0) && s.busy || decide (i = 1) && s.done || decide (i = 2) && s.err || decide (i = 3) && s.esticky ||
        decide (4 ≤ i) && s.errCode.number.getLsbD (i - 4) ||
        decide (i = 8) && s.matOk || decide (i = 9) && s.sboxValid || decide (i = 10) && s.sboxBij ||
        decide (i = 11) && s.isboxValid || decide (i = 12) && s.balOk || decide (i = 13) && s.keyReady ||
        decide (i = 14) && s.wspecValid || decide (i = 15) && s.ddtrValid || decide (i = 16) && s.busyViol) := by
  have code : (s.errCode.number.setWidth 32 <<< 4).getLsbD i =
      (decide (4 ≤ i) && s.errCode.number.getLsbD (i - 4)) := by
    by_cases h : i < 32
    · by_cases h4 : 4 ≤ i <;> simp [h, h4]
    · simp [h, BitVec.getLsbD_of_ge s.errCode.number (i - 4) (by omega)]
  simp [statusWord, commandStatusBits, validityBits, getLsbD_flagBit, code, Bool.or_assoc]

/-- Settles O60: each offset addresses its register, and a word of a byte array holds its bytes. -/
theorem registersReadTheirFields : Obligations.RegistersReadTheirFields := by
  intro s draw
  refine ⟨by simp only [readWord, locate_errAddr], fun hb => ?_⟩
  refine ⟨?_, ?_, ?_, ?_, ?_, ?_, fun k m => ?_, fun k m => ⟨?_, ?_⟩, fun k => ?_⟩
  all_goals
    simp only [readWord, settled_idle _ _ _ hb, locate_result0, locate_result1, locate_errInfo, locate_irqen, irqenWord,
      locate_balTol, locate_const, locate_mat, locate_key, locate_blk, locate_balw, extractLsb'_wordOf]
  all_goals exact entry_eq ..

/-- Settles O17: the four ways of `writeCtrl`, as one update of the three flags where SRST is 0. -/
theorem controlFieldsAct : Obligations.ControlFieldsAct := by
  intro s v draw
  have write : hostWrite 0x004 v s = writeCtrl v s := by simp only [hostWrite, locate_ctrl]
  refine ⟨fun h0 => ?_, fun h0 => ?_, by simp only [readWord, locate_ctrl]⟩
  · rw [write, writeCtrl, if_pos h0, State.resetBlock]
  · rw [write]
    cases h1 : v.getLsbD 1 <;> cases h2 : v.getLsbD 2 <;>
      simp only [writeCtrl, h0, h1, h2, State.clearDone, State.clearErrors, Bool.false_eq_true, if_true, if_false,
        Bool.not_true, Bool.not_false, Bool.and_true, Bool.and_false]

/-- Settles O20: each write is the update of its own register. -/
theorem operandWritesStoreAndClear : Obligations.OperandWritesStoreAndClear := by
  intro s v hb
  refine ⟨fun k => ⟨putWord s.mrow k v, fun j => putWord_getElem .., ?_⟩,
    fun k => ⟨putWord s.key k v, fun j => putWord_getElem .., ?_⟩,
    fun k => ⟨putWord s.blk k v, fun j => putWord_getElem .., ?_⟩, ?_, ?_, ?_⟩
  · rw [hostWrite, locate_mat]; exact whenIdle_idle _ _ _ hb
  · rw [hostWrite, locate_key]; exact whenIdle_idle _ _ _ hb
  · rw [hostWrite, locate_blk]; exact whenIdle_idle _ _ _ hb
  · rw [hostWrite, locate_const]; exact whenIdle_idle _ _ _ hb
  · rw [hostWrite, locate_balTol]; exact whenIdle_idle _ _ _ hb
  · rw [hostWrite, locate_irqen, writeIrqen]

/-- Settles O27: an idle read of STATUS is the STATUS word, whose bits are the flags. -/
theorem statusWordHoldsTheFlags : Obligations.StatusWordHoldsTheFlags := by
  intro s draw hb
  refine ⟨statusWord s, by simp only [readWord, locate_status, hb, Bool.false_eq_true, if_false], ?_⟩
  have code : (statusWord s).extractLsb' 4 4 = s.errCode.number := by
    apply BitVec.eq_of_getLsbD_eq
    intro i hi
    rw [BitVec.getLsbD_extractLsb', getLsbD_statusWord]
    interval_cases i <;> simp
  have top : (statusWord s).extractLsb' 17 15 = 0 := by
    apply BitVec.eq_of_getLsbD_eq
    intro i hi
    have above (n : Nat) (hn : n < 17) : decide (17 + i = n) = false := decide_eq_false (by omega)
    rw [BitVec.getLsbD_extractLsb', getLsbD_statusWord, BitVec.getLsbD_of_ge s.errCode.number _ (by omega)]
    simp [above]
  simp only [getLsbD_statusWord, hb, code, top]
  simp

end Sys2Proof.Machine
end

section
/-! PROOF. The invariant of 10_state.md R53: it holds after reset, and every turn keeps it. The engine's part goes through
`DataInv`, because a command works on the arrays first and ties the command-status fields only by completing. -/

namespace Sys2Proof.Machine

/-! ### A bijective table and its inverse (41_matrix_sbox.md R150, R152) -/

/-- 256 distinct values are all of them. -/
theorem occurs_of_bijective (t : Table) (h : bijective t = true) (v : Byte) : occurs t v = true := by
  have full : (allBytes.filter (occurs t)).length = allBytes.length := by
    simpa [bijective, distinctCount] using h
  exact List.length_filter_eq_length_iff.mp full v (mem_allBytes v)

/-- In a bijective table no value stands twice. -/
theorem look_injective_of_bijective (t : Table) (h : bijective t = true) : Function.Injective t.look := by
  apply Finite.injective_iff_surjective.mpr
  intro v
  have mem : v ∈ t := Vector.mem_toList_iff.mp (List.contains_iff_mem.mp (occurs_of_bijective t h v))
  obtain ⟨i, hi, rfl⟩ := Vector.getElem_of_mem mem
  exact ⟨BitVec.ofNat 8 i, by simp [Table.look, Nat.mod_eq_of_lt hi]⟩

/-- The inverse table undoes a bijective table. -/
theorem look_inverseTable (t : Table) (h : bijective t = true) (x : Byte) :
    (inverseTable t).look (t.look x) = x := by
  have hx : (allBytes.find? fun y => t.look y == t.look x).isSome := by
    rw [List.find?_isSome]; exact ⟨x, mem_allBytes x, by simp⟩
  obtain ⟨y, hy⟩ := Option.isSome_iff_exists.mp hx
  have same : t.look y = t.look x := by simpa using List.find?_some hy
  rw [inverseTable, look_tabulate]
  change ((allBytes.find? fun y => t.look y == t.look x).getD 0) = x
  rw [hy, Option.getD_some]
  exact look_injective_of_bijective t h same

/-! ### The invariant of the data (10_state.md R53) -/

/-- The part of `Inv` that no command-status field occurs in: what a command must keep before it completes. -/
structure DataInv (s : State) : Prop where
  matOk_rank : s.matOk = true → rankOf s.mrow = 8
  sbox_written : s.sboxValid = true → allWritten s.sbox = true
  sbox_bij : s.sboxBij = true → s.sboxValid = true ∧ bijective (entriesOf s.sbox) = true
  isbox_written : s.isboxValid = true → s.sboxValid = true ∧ s.sboxBij = true ∧ allWritten s.isbox = true
  isbox_inverse : s.isboxValid = true →
    ∀ x, Table.look (entriesOf s.isbox) (Table.look (entriesOf s.sbox) x) = x
  bal_checked : s.balOk = true → s.sboxValid = true
  key_fresh : s.keyReady = true → s.sboxValid = true ∧ s.rk = written (kexp s.key (entriesOf s.sbox))
  wspec_written : s.wspecValid = true → allWritten s.wspec = true
  ddtr_written : s.ddtrValid = true → allWritten s.ddtr = true
  errAddr_aligned : s.errAddr &&& 0x003 = 0
  stored_wf : Memory.wf s = true

theorem Inv.data {s : State} (h : Inv s) : DataInv s := { h with }

/-- A completion ties the command-status fields, whatever they were (R50). -/
theorem DataInv.complete {s : State} (h : DataInv s) (k : ErrCode) (w : Word) : Inv (s.complete k w) :=
  { h with
    busy_iff_pending := by simp
    err_iff_code := isError_iff k
    busy_quiet := by simp }

theorem DataInv.withResults {s : State} (h : DataInv s) (r0 r1 : Word) : DataInv (s.withResults r0 r1) := { h with }

theorem DataInv.withBlk {s : State} (h : DataInv s) (b : Block) : DataInv (s.withBlk b) := { h with }

theorem DataInv.scratchWspec {s : State} (h : DataInv s) : DataInv s.scratchWspec :=
  { h with wspec_written := by simp, stored_wf := wf_scratchWspec s h.stored_wf }

theorem DataInv.scratchDdtr {s : State} (h : DataInv s) : DataInv s.scratchDdtr :=
  { h with ddtr_written := by simp, stored_wf := wf_scratchDdtr s h.stored_wf }

/-- The storage of WHT (R172). -/
theorem DataInv.storeSpectrum {s : State} (h : DataInv s) (t : Table) (b : Byte) :
    DataInv { s with wspec := written (spectrum t b), wspecValid := true } :=
  { h with wspec_written := fun _ => allWritten_written _, stored_wf := wf_spectrum s t b h.stored_wf }

/-- The storage of DDTROW (R182). -/
theorem DataInv.storeDdtRow {s : State} (h : DataInv s) (t : Table) (dx : Byte) :
    DataInv { s with ddtr := written (ddtRow t dx), ddtrValid := true } :=
  { h with ddtr_written := fun _ => allWritten_written _, stored_wf := wf_ddtRow s t dx h.stored_wf }

/-- The key schedule of KEXP (R212): fresh at the moment it is stored. -/
theorem DataInv.storeKeys {s : State} (h : DataInv s) (hv : s.sboxValid = true) :
    DataInv { s with rk := written (kexp s.key (entriesOf s.sbox)), keyReady := true } :=
  { h with key_fresh := fun _ => ⟨hv, rfl⟩ }

/-- A variant loaded by MSEL (R141). -/
theorem DataInv.loadVariant {s : State} (h : DataInv s) (m : Vector Byte 8) (c : Byte) :
    DataInv { s with mrow := m, const := c, matOk := false } :=
  { h with matOk_rank := by simp }

/-- The outcome of MRANK (R143). -/
theorem DataInv.rankChecked {s : State} (h : DataInv s) : DataInv { s with matOk := rankOf s.mrow == 8 } :=
  { h with matOk_rank := by simp }

/-- The table SBUILD stores, before its check: written in full, every flag that spoke of the old table cleared. -/
theorem DataInv.storeTable {s : State} (h : DataInv s) (t : Table) :
    DataInv { s with
      sbox := written t, sboxValid := true, sboxBij := false, isboxValid := false, balOk := false, keyReady := false } :=
  { h with
    sbox_written := fun _ => allWritten_written t
    sbox_bij := nofun
    isbox_written := nofun
    isbox_inverse := nofun
    bal_checked := nofun
    key_fresh := nofun }

/-- SVERIFY takes a table written in full as valid (R148). -/
theorem DataInv.validate {s : State} (h : DataInv s) (hw : allWritten s.sbox = true) :
    DataInv { s with sboxValid := true } :=
  { h with
    sbox_written := fun _ => hw
    sbox_bij := fun hb => ⟨rfl, (h.sbox_bij hb).2⟩
    isbox_written := fun hi => ⟨rfl, (h.isbox_written hi).2⟩
    bal_checked := fun _ => rfl
    key_fresh := fun hk => ⟨rfl, (h.key_fresh hk).2⟩ }

/-- `check_table()` over the valid table of SBOX gives the flags of the check their meaning, whatever they were before
(R147). -/
theorem DataInv.checkTable {s : State} (h : DataInv s) (hv : s.sboxValid = true) :
    DataInv (s.checkTable (entriesOf s.sbox)) := by
  have isbox_of_bij (hb : bijective (entriesOf s.sbox) = true) :
      (s.checkTable (entriesOf s.sbox)).isbox = written (inverseTable (entriesOf s.sbox)) := by
    rw [checkTable_isbox, if_pos hb]
  exact { h with
    sbox_bij := fun hb => ⟨hv, hb⟩
    isbox_written := fun hb => ⟨hv, hb, by rw [isbox_of_bij hb, allWritten_written]⟩
    isbox_inverse := fun hb x => by rw [isbox_of_bij hb, entriesOf_written]; exact look_inverseTable _ hb x
    bal_checked := fun _ => hv
    stored_wf := wf_checkTable s _ h.stored_wf }

/-! ### Commands keep the invariant -/

theorem DataInv.finishCheck {t : Table} {i : Instr} {s s' : State} (h : DataInv (s.checkTable t))
    (hn : finishCheck t i s = .next s') : Inv s' := by
  obtain ⟨-, rfl⟩ | ⟨-, rfl⟩ := (finishCheck_next t i s s').mp hn
  · exact h.complete _ _
  · exact h.complete _ _

theorem execMsel_keeps_inv {v : Byte} {s t : State} (h : DataInv s) (hn : execMsel v s = .next t) : Inv t := by
  obtain ⟨-, rfl⟩ | ⟨-, rfl⟩ := (execMsel_next v s t).mp hn
  · exact (h.loadVariant _ _).complete _ _
  · exact h.complete _ _

theorem execMrank_keeps_inv {s t : State} (h : DataInv s) (hn : execMrank s = .next t) : Inv t := by
  obtain rfl := (execMrank_next s t).mp hn
  exact (h.withResults _ _).rankChecked.complete _ _

theorem execSbuild_keeps_inv {s t : State} (h : DataInv s) (hn : execSbuild s = .next t) : Inv t := by
  obtain ⟨-, hf⟩ | ⟨-, rfl⟩ := (execSbuild_next s t).mp hn
  · have checked := (h.storeTable (sboxOf s.mrow s.const)).checkTable rfl
    rw [entriesOf_written] at checked
    exact DataInv.finishCheck checked hf
  · exact h.complete _ _

theorem execSverify_keeps_inv {s t : State} (h : DataInv s) (hn : execSverify s = .next t) : Inv t := by
  obtain ⟨hw, hf⟩ := (execSverify_next s t).mp hn
  exact ((h.validate hw).checkTable rfl).finishCheck hf

theorem execWht_keeps_inv {b : Byte} {s t : State} (h : DataInv s) (hn : execWht b s = .next t) : Inv t := by
  obtain ⟨-, -, rfl⟩ | ⟨-, rfl⟩ := (execWht_next b s t).mp hn
  · exact ((h.withResults _ _).storeSpectrum _ b).complete _ _
  · exact h.complete _ _

theorem execNl_keeps_inv {s t : State} (h : DataInv s) (hn : execNl s = .next t) : Inv t := by
  obtain ⟨-, -, rfl⟩ | ⟨-, rfl⟩ := (execNl_next s t).mp hn
  · exact (h.withResults _ _).scratchWspec.complete _ _
  · exact h.complete _ _

theorem execLap_keeps_inv {s t : State} (h : DataInv s) (hn : execLap s = .next t) : Inv t := by
  obtain ⟨-, -, rfl⟩ | ⟨-, rfl⟩ := (execLap_next s t).mp hn
  · exact (h.withResults _ _).scratchWspec.complete _ _
  · exact h.complete _ _

theorem execDdtrow_keeps_inv {dx : Byte} {s t : State} (h : DataInv s) (hn : execDdtrow dx s = .next t) : Inv t := by
  obtain ⟨-, -, rfl⟩ | ⟨-, rfl⟩ := (execDdtrow_next dx s t).mp hn
  · exact ((h.withResults _ _).storeDdtRow _ dx).complete _ _
  · exact h.complete _ _

theorem execDu_keeps_inv {s t : State} (h : DataInv s) (hn : execDu s = .next t) : Inv t := by
  obtain ⟨-, -, rfl⟩ | ⟨-, rfl⟩ := (execDu_next s t).mp hn
  · exact (h.withResults _ _).scratchDdtr.complete _ _
  · exact h.complete _ _

theorem execKexp_keeps_inv {s t : State} (h : DataInv s) (hn : execKexp s = .next t) : Inv t := by
  obtain ⟨hv, -, rfl⟩ | ⟨-, rfl⟩ := (execKexp_next s t).mp hn
  · exact (h.storeKeys hv).complete _ _
  · exact h.complete _ _

/-- A command that puts a new block in place, or completes with an error (R213 to R221). -/
theorem DataInv.block_or_error {s t : State} (h : DataInv s) {w : Word}
    (ht : (∃ b, t = (s.withBlk b).complete .noError w) ∨ ∃ k, t = s.complete k w) : Inv t := by
  obtain ⟨b, rfl⟩ | ⟨k, rfl⟩ := ht
  · exact (h.withBlk b).complete _ _
  · exact h.complete _ _

/-- Every command, in a state whose data is as the invariant says, ends in a state of the invariant. -/
theorem exec_keeps_inv {i : Instr} {s t : State} (h : DataInv s) (hn : exec i s = .next t) : Inv t := by
  cases i with
  | nop => exact h.block_or_error (.inr ⟨_, (execNop_next s t).mp hn⟩)
  | gfmul a b => obtain rfl := (execGfmul_next a b s t).mp hn; exact (h.withResults _ _).complete _ _
  | gfinv a => obtain rfl := (execGfinv_next a s t).mp hn; exact (h.withResults _ _).complete _ _
  | affine y => obtain rfl := (execAffine_next y s t).mp hn; exact (h.withResults _ _).complete _ _
  | msel v => exact execMsel_keeps_inv h hn
  | mrank => exact execMrank_keeps_inv h hn
  | sbuild => exact execSbuild_keeps_inv h hn
  | sverify => exact execSverify_keeps_inv h hn
  | wht b => exact execWht_keeps_inv h hn
  | nl => exact execNl_keeps_inv h hn
  | lap => exact execLap_keeps_inv h hn
  | ddtrow dx => exact execDdtrow_keeps_inv h hn
  | du => exact execDu_keeps_inv h hn
  | kexp => exact execKexp_keeps_inv h hn
  | enc =>
    obtain ⟨-, -, -, -, e⟩ | ⟨-, e⟩ := (execEnc_next s t).mp hn
    · exact h.block_or_error (.inl ⟨_, e⟩)
    · exact h.block_or_error (.inr ⟨_, e⟩)
  | dec =>
    obtain ⟨-, -, -, -, e⟩ | ⟨-, e⟩ := (execDec_next s t).mp hn
    · exact h.block_or_error (.inl ⟨_, e⟩)
    · exact h.block_or_error (.inr ⟨_, e⟩)
  | subb =>
    obtain ⟨-, -, e⟩ | ⟨-, e⟩ := (execSubb_next s t).mp hn
    · exact h.block_or_error (.inl ⟨_, e⟩)
    · exact h.block_or_error (.inr ⟨_, e⟩)
  | isubb =>
    obtain ⟨-, -, e⟩ | ⟨-, e⟩ := (execIsubb_next s t).mp hn
    · exact h.block_or_error (.inl ⟨_, e⟩)
    · exact h.block_or_error (.inr ⟨_, e⟩)
  | shr => exact h.block_or_error (.inl ⟨_, (execShr_next s t).mp hn⟩)
  | ishr => exact h.block_or_error (.inl ⟨_, (execIshr_next s t).mp hn⟩)
  | mixc => exact h.block_or_error (.inl ⟨_, (execMixc_next s t).mp hn⟩)
  | imixc => exact h.block_or_error (.inl ⟨_, (execImixc_next s t).mp hn⟩)
  | ark r =>
    obtain ⟨-, -, -, e⟩ | ⟨-, -, e⟩ | ⟨-, e⟩ := (execArk_next r s t).mp hn
    · exact h.block_or_error (.inl ⟨_, e⟩)
    · exact h.block_or_error (.inr ⟨_, e⟩)
    · exact h.block_or_error (.inr ⟨_, e⟩)

/-- A turn of the engine keeps the invariant. -/
theorem engineTurn_keeps_inv {s t : State} (h : Inv s) (hn : engineTurn s = .next t) : Inv t := by
  obtain ⟨-, e⟩ | ⟨w, i, -, -, he⟩ | ⟨w, e, -, -, hc⟩ := engineTurn_cases s _ hn
  · obtain rfl := (next_inj t s).mp e
    exact h
  · exact exec_keeps_inv h.data he
  · obtain rfl := (next_inj _ _).mp hc
    exact h.data.complete _ _

/-! ### Reset and the host keep the invariant -/

/-- Settles O13: every flag of the reset state is 0, and its stored data is in canonical form. -/
theorem resetMeetsTheInvariant : Obligations.ResetMeetsTheInvariant where
  busy_iff_pending := by simp [State.reset]
  err_iff_code := by simp [State.reset]
  busy_quiet := nofun
  matOk_rank := nofun
  sbox_written := nofun
  sbox_bij := nofun
  isbox_written := nofun
  isbox_inverse := nofun
  bal_checked := nofun
  key_fresh := nofun
  wspec_written := nofun
  ddtr_written := nofun
  errAddr_aligned := rfl
  stored_wf := reset_wf

theorem Inv.popTurn {s : State} (h : Inv s) : Inv s.popTurn := { h with }

theorem Inv.nextLine {s : State} (h : Inv s) : Inv s.nextLine := { h with }

/-- A reset from any state: the block is as after power-on, and the host keeps its variables (R270). -/
theorem Inv.resetBlock {s : State} (h : Inv s) : Inv s.resetBlock :=
  { resetMeetsTheInvariant with stored_wf := wf_resetBlock s h.stored_wf }

theorem Inv.clearDone {s : State} (h : Inv s) : Inv s.clearDone :=
  { h with busy_quiet := fun hb => ⟨rfl, (h.busy_quiet hb).2⟩ }

theorem Inv.clearErrors {s : State} (h : Inv s) : Inv s.clearErrors := { h with }

/-- An accepted command: pending, and DONE, ERR and ERRCODE are 0 (R70). -/
theorem Inv.accept {s : State} (h : Inv s) (w : Word) : Inv (s.accept w) :=
  { h with
    busy_iff_pending := by simp
    err_iff_code := by simp
    busy_quiet := by simp }

/-- A refused write records the offset of a word (R71). -/
theorem Inv.refuseWrite {s : State} (h : Inv s) (off : Offset) : Inv (s.refuseWrite off) :=
  { h with errAddr_aligned := by rw [refuseWrite_errAddr, BitVec.and_assoc]; simp }

theorem Inv.writeCtrl {s : State} (h : Inv s) (v : Word) : Inv (writeCtrl v s) := by
  obtain e | e | e | e | e := writeCtrl_cases v s <;> rw [e]
  · exact h.resetBlock
  · exact h.clearDone.clearErrors
  · exact h.clearDone
  · exact h.clearErrors
  · exact h

/-- Writing a matrix word clears MAT_OK (R42). -/
theorem Inv.writeMat {s : State} (h : Inv s) (k : Nat) (v : Word) : Inv (writeMat k v s) :=
  { h with matOk_rank := nofun }

/-- Writing a key word clears KEY_READY (R47). -/
theorem Inv.writeKey {s : State} (h : Inv s) (k : Nat) (v : Word) : Inv (writeKey k v s) :=
  { h with key_fresh := nofun }

/-- Writing an S-box word clears every flag that speaks of the table (R67). -/
theorem Inv.writeSbox {s : State} (h : Inv s) (k : Nat) (v : Word) : Inv (writeSbox k v s) :=
  { h with
    sbox_written := nofun
    sbox_bij := nofun
    isbox_written := nofun
    isbox_inverse := nofun
    bal_checked := nofun
    key_fresh := nofun }

theorem Inv.hostWrite {s : State} (h : Inv s) (off : Offset) (v : Word) : Inv (hostWrite off v s) := by
  have effect := hostWrite_effect off v s
  generalize Machine.hostWrite off v s = t at effect
  cases effect with
  | ignored => exact h
  | control => exact h.writeCtrl v
  | refused => exact h.refuseWrite off
  | accepted => exact h.accept v
  | enables => exact { h with }
  | tolerance => exact { h with }
  | constant => exact { h with }
  | matrix _ k => exact h.writeMat k v
  | key _ k => exact h.writeKey k v
  | block => exact { h with }
  | table _ k => exact h.writeSbox k v

/-- A read draws a value and writes a host variable (R73, R101). -/
theorem Inv.runRead {s : State} (h : Inv s) (off : Offset) (n : Nat) : Inv (runRead off n s) :=
  { h with stored_wf := wf_setHostVar (hostRead off s).2 n _ (wf_hostRead off s h.stored_wf) }

/-- A turn of the host keeps the invariant. -/
theorem hostTurn_keeps_inv {s t : State} (h : Inv s) (hn : hostTurn s = .next t) : Inv t := by
  obtain rfl | ⟨off, v, rfl⟩ | ⟨off, n, rfl⟩ | rfl | ⟨p, rfl⟩ | rfl := hostTurn_cases s t hn
  · exact h
  · exact (h.hostWrite off v).nextLine
  · exact h.runRead off n
  · exact h.nextLine
  · exact { h with }
  · exact { h with }

/-- Settles O14, by whose turn it is: the host, the engine or the reset input. -/
theorem everyStepKeepsTheInvariant : Obligations.EveryStepKeepsTheInvariant := by
  intro s t h hn
  obtain ⟨-, hh⟩ | ⟨-, he⟩ | ⟨-, hr⟩ := step_cases s _ hn
  · exact hostTurn_keeps_inv h.popTurn hh
  · exact engineTurn_keeps_inv h.popTurn he
  · obtain rfl := (next_inj _ _).mp hr
    exact h.popTurn.resetBlock

end Sys2Proof.Machine
end

section
/-! PROOF. The host window (20_memory.md R60 to R73): where each word stands, what a read and a write there do while idle
and while busy, and what they leave alone. -/

namespace Sys2Proof.Machine

/-! ### Where every word stands (10_state.md R23) -/

/-- The target stands at word w of the window: R23, with the offsets divided by 4. Reducible, so that omega reads the
place of a known target. -/
@[reducible] def Target.standsAt (t : Target) (w : Nat) : Prop :=
  match t with
  | .id => w = 0
  | .ctrl => w = 1
  | .status => w = 2
  | .cmd => w = 3
  | .result0 => w = 4
  | .result1 => w = 5
  | .errInfo => w = 6
  | .errAddr => w = 7
  | .irqen => w = 8
  | .balTol => w = 9
  | .const => w = 10
  | .mat k => w = 12 + k.val
  | .key k => w = 16 + k.val
  | .blk k => w = 20 + k.val
  | .balw k => w = 24 + k.val
  | .sbox k => w = 256 + k.val
  | .isbox k => w = 320 + k.val
  | .rk k => w = 384 + k.val
  | .wspec k => w = 512 + k.val
  | .ddtr k => w = 768 + k.val
  | .reserved => w = 11 ∨ (14 ≤ w ∧ w < 16) ∨ (32 ≤ w ∧ w < 256) ∨ (428 ≤ w ∧ w < 512) ∨ 1024 ≤ w

/-- A choice of targets stands at w when both ways do. -/
theorem standsAt_dite {c : Prop} [Decidable c] {t : c → Target} {e : ¬c → Target} {w : Nat}
    (pos : ∀ h, (t h).standsAt w) (neg : ∀ h, (e h).standsAt w) : (dite c t e).standsAt w := by
  by_cases h : c
  · rw [dif_pos h]; exact pos h
  · rw [dif_neg h]; exact neg h

/-- Word w of the window is what R23 puts there: the eleven single words, the nine ranges, and the rest. -/
theorem standsAt_targetOfWord (w : Nat) : (targetOfWord w).standsAt w := by
  rw [targetOfWord]
  iterate 11 refine iteInduction (motive := (Target.standsAt · w)) id fun _ => ?_
  iterate 9 refine standsAt_dite (fun h => (Nat.add_sub_of_le h.1).symm) fun _ => ?_
  simp only [Target.standsAt]
  omega

/-- A word other than the reserved ones stands at one place. -/
theorem standsAt_unique {t : Target} (ht : t ≠ .reserved) {w w' : Nat} (h : t.standsAt w) (h' : t.standsAt w') :
    w = w' := by
  cases t with
  | reserved => exact absurd rfl ht
  | _ => exact h.trans h'.symm

theorem targetOfWord_eq {t : Target} {w : Nat} (h : t.standsAt w) : targetOfWord w = t := by
  cases t with
  | mat k | key k | blk k | balw k | sbox k | isbox k | rk k | wspec k | ddtr k =>
    obtain rfl : w = _ := h
    have := k.isLt
    simp (disch := omega) only [targetOfWord, if_neg, dif_neg, dif_pos, Nat.add_sub_cancel_left]
  | reserved =>
    have : w = 11 ∨ (14 ≤ w ∧ w < 16) ∨ (32 ≤ w ∧ w < 256) ∨ (428 ≤ w ∧ w < 512) ∨ 1024 ≤ w := h
    simp (disch := omega) only [targetOfWord, if_neg, dif_neg]
  | _ => obtain rfl : w = _ := h; rfl

/-- An access acts on its whole word, whatever bits 1:0 of its offset (R62). -/
theorem and_FFC_toNat (off : Offset) : (off &&& 0xFFC).toNat = 4 * (off.toNat / 4) := by
  have mask : off &&& (0xFFC : Offset) = off >>> 2 <<< 2 := by
    apply BitVec.eq_of_getLsbD_eq
    intro i hi
    interval_cases i <;> simp
  rw [mask]
  simp only [BitVec.toNat_shiftLeft, BitVec.toNat_ushiftRight, Nat.shiftLeft_eq, Nat.shiftRight_eq_div_pow]
  omega

theorem locate_eq_targetOfWord (off : Offset) : locate off = targetOfWord (off.toNat / 4) := by
  rw [locate, wordOffset, and_FFC_toNat, Nat.mul_div_cancel_left _ (by decide)]

/-- Where R23 puts each target, and nothing else. -/
theorem locate_eq_iff (off : Offset) (t : Target) : locate off = t ↔ t.standsAt (off.toNat / 4) := by
  rw [locate_eq_targetOfWord]
  exact ⟨fun h => h ▸ standsAt_targetOfWord _, targetOfWord_eq⟩

/-- What stands at the offset of a located target. -/
theorem standsAt_of_locate {off : Offset} {t : Target} (h : locate off = t) : t.standsAt (off.toNat / 4) :=
  (locate_eq_iff off t).mp h

/-- Offsets in two words have two targets, unless both are reserved. -/
theorem locate_ne_of_word_ne {off other : Offset} (hr : locate off ≠ .reserved)
    (h : other &&& 0xFFC ≠ off &&& 0xFFC) : locate other ≠ locate off := by
  intro e
  have word : other.toNat / 4 = off.toNat / 4 := standsAt_unique hr (standsAt_of_locate e) (standsAt_of_locate rfl)
  exact h (BitVec.eq_of_toNat_eq (by rw [and_FFC_toNat, and_FFC_toNat, word]))

theorem locate_id : locate 0x000 = .id := by decide
theorem locate_cmd : locate 0x00C = .cmd := by decide
theorem locate_sbox : ∀ k : Fin 64, locate (BitVec.ofNat 12 (0x400 + 4 * k.val)) = .sbox k := by decide
theorem locate_isbox : ∀ k : Fin 64, locate (BitVec.ofNat 12 (0x500 + 4 * k.val)) = .isbox k := by decide
theorem locate_rk : ∀ k : Fin 44, locate (BitVec.ofNat 12 (0x600 + 4 * k.val)) = .rk k := by decide

theorem locate_wspec (a : Fin 256) : locate (BitVec.ofNat 12 (0x800 + 4 * a.val)) = .wspec a := by
  rw [locate_eq_iff, BitVec.toNat_ofNat]
  simp only [Target.standsAt]
  omega

theorem locate_ddtr (a : Fin 256) : locate (BitVec.ofNat 12 (0xC00 + 4 * a.val)) = .ddtr a := by
  rw [locate_eq_iff, BitVec.toNat_ofNat]
  simp only [Target.standsAt]
  omega

/-! ### Words and their bytes (10_state.md R63) -/

/-- A word is its four bytes. -/
theorem word_ext {v w : Word} (h : ∀ m : Fin 4, v.extractLsb' (8 * m.val) 8 = w.extractLsb' (8 * m.val) 8) : v = w := by
  rw [← packWord_byteAt v, ← packWord_byteAt w]
  exact congr (congr (congr (congrArg packWord (h 0)) (h 1)) (h 2)) (h 3)

/-- Byte m of word k of a byte table is its entry 4k+m, and the draw's byte m in place of an unwritten one (R64, R68). -/
theorem extractLsb'_tableWord {n : Nat} (draw : Word) (t : Vector (Option Byte) n) (k : Nat) (m : Fin 4)
    (h : 4 * k + m.val < n) :
    (tableWord draw t k).extractLsb' (8 * m.val) 8 = (t[4 * k + m.val]).getD (draw.extractLsb' (8 * m.val) 8) := by
  have joined : ((t[4 * k + m.val]?).join).getD (byteAt draw m.val) = (t[4 * k + m.val]).getD (byteAt draw m.val) := by
    rw [Vector.getElem?_eq_getElem h, Option.join_some]
  refine Eq.trans ?_ joined
  match m with
  | 0 => exact byteAt_packWord_0 ..
  | 1 => exact byteAt_packWord_1 ..
  | 2 => exact byteAt_packWord_2 ..
  | 3 => exact byteAt_packWord_3 ..

/-- A table word written reads back, with no draw (R67). -/
theorem tableWord_putTableWord_same {n : Nat} (draw v : Word) (t : Vector (Option Byte) n) (k : Nat)
    (h : 4 * k + 3 < n) : tableWord draw (putTableWord t k v) k = v := by
  refine word_ext fun m => ?_
  rw [extractLsb'_tableWord _ _ _ _ (by omega), putTableWord_getElem, if_pos (by omega), Option.getD_some,
    show (4 * k + m.val) % 4 = m.val by omega]
  rfl

/-- A table word written leaves every other word alone. -/
theorem tableWord_putTableWord_other {n : Nat} (draw v : Word) (t : Vector (Option Byte) n) (k j : Nat)
    (h : 4 * j + 3 < n) (hk : j ≠ k) : tableWord draw (putTableWord t k v) j = tableWord draw t j := by
  refine word_ext fun m => ?_
  rw [extractLsb'_tableWord _ _ _ _ (by omega), extractLsb'_tableWord _ _ _ _ (by omega), putTableWord_getElem,
    if_neg (by omega)]

@[simp] theorem putWord_putWord {n : Nat} (a : Vector Byte n) (k : Nat) (v : Word) :
    putWord (putWord a k v) k v = putWord a k v := by
  refine Vector.ext fun j hj => ?_
  rw [putWord_getElem, putWord_getElem]
  split <;> rfl

@[simp] theorem putTableWord_putTableWord {n : Nat} (t : Vector (Option Byte) n) (k : Nat) (v : Word) :
    putTableWord (putTableWord t k v) k v = putTableWord t k v := by
  refine Vector.ext fun j hj => ?_
  rw [putTableWord_getElem, putTableWord_getElem]
  split <;> rfl

/-- The low byte of a word, as the registers of 8 bits read it. -/
theorem setWidth_byteAt_zero (v : Word) : (byteAt v 0).setWidth 32 = v &&& 0xFF := by
  apply BitVec.eq_of_getLsbD_eq
  intro i hi
  interval_cases i <;> simp [byteAt]

/-- The two enables of IRQEN are bits 1:0 of the word written (R33). -/
theorem irqenWord_writeIrqen (v : Word) (s : State) : irqenWord (writeIrqen v s) = v &&& 3 := by
  apply BitVec.eq_of_getLsbD_eq
  intro i hi
  rw [irqenWord, BitVec.getLsbD_or, getLsbD_flagBit _ _ _ (by decide), getLsbD_flagBit _ _ _ (by decide)]
  interval_cases i <;> simp

/-! ### Accesses by word (20_memory.md R62) -/

theorem locate_and_FFC (off : Offset) : locate (off &&& 0xFFC) = locate off := by
  simp only [locate, wordOffset, BitVec.and_assoc, BitVec.and_self]

theorem refuseWrite_and_FFC (off : Offset) (s : State) : s.refuseWrite (off &&& 0xFFC) = s.refuseWrite off := by
  simp only [State.refuseWrite, BitVec.and_assoc, BitVec.and_self]

theorem hostWrite_and_FFC (off : Offset) (v : Word) (s : State) :
    hostWrite (off &&& 0xFFC) v s = hostWrite off v s := by
  simp only [hostWrite, whenIdle, locate_and_FFC, refuseWrite_and_FFC]

theorem readWord_and_FFC (off : Offset) (draw : Word) (s : State) :
    readWord (off &&& 0xFFC) draw s = readWord off draw s := by
  simp only [readWord, locate_and_FFC]

/-- Settles O24: what an access addresses and what a refusal records depend on the word alone. -/
theorem addressLowBitsAreIgnored : Obligations.AddressLowBitsAreIgnored := by
  intro s off v
  simp only [hostWrite_and_FFC, hostRead, readWord_and_FFC, and_self]

/-! ### Writes while idle -/

/-- Settles O21: the four entries are those `putTableWord` replaces. -/
theorem sboxWindowWrite : Obligations.SboxWindowWrite := by
  intro s k v hb
  refine ⟨putTableWord s.sbox k v, fun j => putTableWord_getElem .., ?_⟩
  rw [hostWrite, locate_sbox]
  exact whenIdle_idle _ _ _ hb

/-- Settles O29: `State.accept` takes the word without a look at it. -/
theorem acceptanceOfACommand : Obligations.AcceptanceOfACommand := by
  refine ⟨fun s v hb => ?_, fun s draw => by simp only [readWord, locate_cmd]⟩
  rw [hostWrite, locate_cmd]
  exact whenIdle_idle _ _ _ hb

/-- Settles O18, by what stands at the offset; the offsets outside each range address something else. -/
theorem writtenWordsReadBack : Obligations.WrittenWordsReadBack := by
  intro s off v draw hb
  refine ⟨fun range => ?_, fun range => ?_, fun range => ?_⟩
  · cases ht : locate off with
    | mat k | key k | blk k | sbox k =>
      simp (disch := omega) [hostWrite, readWord, ht, whenIdle, settled, hb, wordOf_putWord_same, tableWord_putTableWord_same]
    | _ => have := standsAt_of_locate ht; omega
  · cases ht : locate off with
    | balTol | const => simp [hostWrite, readWord, ht, whenIdle, settled, hb, setWidth_byteAt_zero]
    | _ => have := standsAt_of_locate ht; omega
  · have ht : locate off = .irqen := (locate_eq_iff _ _).mpr (by omega)
    simp only [hostWrite, readWord, ht, irqenWord_writeIrqen]

/-! ### What a write leaves alone -/

/-- Every word of the window but STATUS and the word `w` reads the same in s and t: the fields those words show agree. -/
structure AgreesOutside (w : Target) (s t : State) : Prop where
  busy : t.busy = s.busy
  result0 : t.result0 = s.result0
  result1 : t.result1 = s.result1
  errInfo : t.errInfo = s.errInfo
  errAddr : t.errAddr = s.errAddr
  balw : t.balw = s.balw
  isbox : t.isbox = s.isbox
  rk : t.rk = s.rk
  wspec : t.wspec = s.wspec
  ddtr : t.ddtr = s.ddtr
  irqen : w ≠ .irqen → irqenWord t = irqenWord s
  balTol : w ≠ .balTol → t.balTol = s.balTol
  const : w ≠ .const → t.const = s.const
  mat : ∀ k : Fin 2, w ≠ .mat k → wordOf (entry t.mrow) k = wordOf (entry s.mrow) k
  key : ∀ k : Fin 4, w ≠ .key k → wordOf (entry t.key) k = wordOf (entry s.key) k
  blk : ∀ k : Fin 4, w ≠ .blk k → wordOf (entry t.blk) k = wordOf (entry s.blk) k
  sbox : ∀ (k : Fin 64) (draw : Word), w ≠ .sbox k → tableWord draw t.sbox k = tableWord draw s.sbox k

theorem AgreesOutside.refl (w : Target) (s : State) : AgreesOutside w s s := by
  constructor <;> simp

theorem AgreesOutside.readWord {w : Target} {s t : State} (h : AgreesOutside w s t) {off : Offset}
    (hs : locate off ≠ .status) (hw : locate off ≠ w) (draw : Word) : readWord off draw t = readWord off draw s := by
  cases ht : locate off with
  | status => exact absurd ht hs
  | irqen => simp only [Machine.readWord, ht, h.irqen (ht ▸ hw.symm)]
  | balTol => simp only [Machine.readWord, ht, h.balTol (ht ▸ hw.symm)]
  | const => simp only [Machine.readWord, ht, settled, h.busy, h.const (ht ▸ hw.symm)]
  | mat k => simp only [Machine.readWord, ht, settled, h.busy, h.mat k (ht ▸ hw.symm)]
  | key k => simp only [Machine.readWord, ht, h.key k (ht ▸ hw.symm)]
  | blk k => simp only [Machine.readWord, ht, settled, h.busy, h.blk k (ht ▸ hw.symm)]
  | sbox k => simp only [Machine.readWord, ht, settled, h.busy, h.sbox k draw (ht ▸ hw.symm)]
  | _ =>
    simp only [Machine.readWord, ht, settled, h.busy, h.result0, h.result1, h.errInfo, h.errAddr, h.balw, h.isbox, h.rk,
      h.wspec, h.ddtr]

/-- A write while idle to a word other than CTRL and CMD keeps to its word. -/
theorem agreesOutside_hostWrite {s : State} (hb : s.busy = false) {off : Offset} (hctrl : locate off ≠ .ctrl)
    (hcmd : locate off ≠ .cmd) (v : Word) : AgreesOutside (locate off) s (hostWrite off v s) := by
  cases ht : locate off with
  | ctrl => exact absurd ht hctrl
  | cmd => exact absurd ht hcmd
  | irqen =>
    simp only [hostWrite, ht]
    exact { AgreesOutside.refl .irqen s with irqen := fun h => absurd rfl h }
  | balTol =>
    simp only [hostWrite, ht, whenIdle_idle _ _ _ hb]
    exact { AgreesOutside.refl .balTol s with balTol := fun h => absurd rfl h }
  | const =>
    simp only [hostWrite, ht, whenIdle_idle _ _ _ hb]
    exact { AgreesOutside.refl .const s with const := fun h => absurd rfl h }
  | mat k =>
    simp only [hostWrite, ht, whenIdle_idle _ _ _ hb]
    exact { AgreesOutside.refl (.mat k) s with
      mat := fun j hj => wordOf_putWord_other _ _ _ _ (by omega) (Fin.val_ne_of_ne fun e => hj (e ▸ rfl)) }
  | key k =>
    simp only [hostWrite, ht, whenIdle_idle _ _ _ hb]
    exact { AgreesOutside.refl (.key k) s with
      key := fun j hj => wordOf_putWord_other _ _ _ _ (by omega) (Fin.val_ne_of_ne fun e => hj (e ▸ rfl)) }
  | blk k =>
    simp only [hostWrite, ht, whenIdle_idle _ _ _ hb]
    exact { AgreesOutside.refl (.blk k) s with
      blk := fun j hj => wordOf_putWord_other _ _ _ _ (by omega) (Fin.val_ne_of_ne fun e => hj (e ▸ rfl)) }
  | sbox k =>
    simp only [hostWrite, ht, whenIdle_idle _ _ _ hb]
    exact { AgreesOutside.refl (.sbox k) s with
      sbox := fun j _ hj => tableWord_putTableWord_other _ _ _ _ _ (by omega) (Fin.val_ne_of_ne fun e => hj (e ▸ rfl)) }
  | _ => simpa only [hostWrite, ht] using AgreesOutside.refl _ s

/-- Settles O19: a write keeps to its word, and another word is another target unless it is reserved. -/
theorem writesLeaveOtherWordsAlone : Obligations.WritesLeaveOtherWordsAlone := by
  intro s off other v draw hb hctrl hcmd hne hstatus
  have status : locate other ≠ .status := locate_ne_of_word_ne (off := 0x008) (by decide) hstatus
  by_cases hr : locate off = .reserved
  · simp only [hostWrite, hr]
  · have ctrl : locate off ≠ .ctrl := locate_ne_of_word_ne (off := 0x004) (by decide) hctrl
    have cmd : locate off ≠ .cmd := locate_ne_of_word_ne (off := 0x00C) (by decide) hcmd
    exact (agreesOutside_hostWrite hb ctrl cmd v).readWord status (locate_ne_of_word_ne hr hne) draw

/-! ### Reads and repeated writes (20_memory.md R73) -/

/-- A busy-checked write that leaves BUSY alone and repeats as itself repeats as itself when checked, refused or not. -/
theorem whenIdle_twice {off : Offset} {s : State} {act : State → State} (busy : (act s).busy = s.busy)
    (twice : act (act s) = act s) : whenIdle off (whenIdle off s act) act = whenIdle off s act := by
  obtain ⟨hb, e⟩ | ⟨hb, e⟩ := whenIdle_cases off s act
  · rw [e]; exact whenIdle_busy _ _ _ hb
  · rw [e, whenIdle_idle _ _ _ (busy.trans hb), twice]

/-- Settles O28: a read moves the draw count alone, and every register or table word written twice is written once. -/
theorem readsChangeNothingAndWritesRepeat : Obligations.ReadsChangeNothingAndWritesRepeat := by
  refine ⟨fun s off other draw => ⟨hostRead_state off s, rfl⟩, fun s off v hcmd hctrl => ?_⟩
  cases ht : locate off with
  | ctrl => exact absurd ht (locate_ne_of_word_ne (off := 0x004) (by decide) hctrl)
  | cmd => exact absurd ht (locate_ne_of_word_ne (off := 0x00C) (by decide) hcmd)
  | irqen => simp only [hostWrite, ht, writeIrqen]
  | balTol | const =>
    simp only [hostWrite, ht]
    exact whenIdle_twice rfl (by simp only [writeBalTol, writeConst])
  | mat k | key k | blk k =>
    simp only [hostWrite, ht]
    exact whenIdle_twice rfl (by simp only [writeMat, writeKey, writeBlk, putWord_putWord])
  | sbox k =>
    simp only [hostWrite, ht]
    exact whenIdle_twice rfl (by simp only [writeSbox, putTableWord_putTableWord])
  | _ => simp only [hostWrite, ht]

/-! ### Refused and ignored writes (20_memory.md R69, R71) -/

/-- Settles O22, by what stands at the offset; CTRL acts as R25 says. -/
theorem busyWritesAreRefused : Obligations.BusyWritesAreRefused := by
  intro s off v hb
  have control (range : 0x004 ≤ off.toNat ∧ off.toNat < 0x008) : hostWrite off v s = hostWrite 0x004 v s := by
    have ht : locate off = .ctrl := (locate_eq_iff _ _).mpr (by omega)
    simp only [hostWrite, ht, locate_ctrl]
  obtain ⟨reset, fields, -⟩ := controlFieldsAct s v 0
  refine ⟨fun range => ?_, fun range => ?_, fun range h0 => ?_, fun range h0 => ?_⟩
  · cases ht : locate off with
    | cmd | balTol | const | mat k | key k | blk k | sbox k =>
      simp only [hostWrite, ht, whenIdle_busy _ _ _ hb, State.refuseWrite]
    | _ => have := standsAt_of_locate ht; omega
  · have ht : locate off = .irqen := (locate_eq_iff _ _).mpr (by omega)
    simp only [hostWrite, ht, writeIrqen]
  · exact (control range).trans (fields h0)
  · exact (control range).trans (reset h0)

/-- Settles O23, by what stands at the offset. -/
theorem readOnlyAndReservedWritesAreIgnored : Obligations.ReadOnlyAndReservedWritesAreIgnored := by
  intro s off v draw
  refine ⟨fun range => ?_, fun range => ?_⟩
  · cases ht : locate off with
    | ctrl | cmd | irqen | balTol | const | mat k | key k | blk k | sbox k => have := standsAt_of_locate ht; omega
    | _ => simp only [hostWrite, ht]
  · have ht : locate off = .reserved := (locate_eq_iff _ _).mpr (by omega)
    simp only [hostWrite, readWord, ht, and_self]

/-! ### Reads while busy and while idle (20_memory.md R64 to R72) -/

theorem settled_busy {s : State} (h : s.busy = true) (draw v : Word) : settled s draw v = draw := by
  simp [settled, h]

/-- The bits of the mask of STATUS[15:8]. -/
theorem getLsbD_validityMask (n : Nat) : (0x0000FF00 : Word).getLsbD n = decide (8 ≤ n ∧ n ≤ 15) := by
  by_cases h : n < 32
  · exact (by decide : ∀ i : Fin 32, (0x0000FF00 : Word).getLsbD i.val = decide (8 ≤ i.val ∧ i.val ≤ 15)) ⟨n, h⟩
  · rw [BitVec.getLsbD_of_ge _ _ (by omega), eq_comm, decide_eq_false_iff_not]; omega

/-- What STATUS reads while busy, bit by bit (R72). -/
theorem getLsbD_statusWhileBusy (draw : Word) (s : State) (n : Nat) :
    (statusWhileBusy draw s).getLsbD n =
      (decide (n = 0) || decide (n = 3) && s.esticky || decide (n = 16) && s.busyViol ||
        decide (8 ≤ n ∧ n ≤ 15) && draw.getLsbD n) := by
  rw [statusWhileBusy, BitVec.getLsbD_or, BitVec.getLsbD_or, BitVec.getLsbD_or, BitVec.getLsbD_and, getLsbD_validityMask,
    getLsbD_flagBit _ _ _ (by decide), getLsbD_flagBit _ _ _ (by decide), getLsbD_flagBit _ _ _ (by decide),
    Bool.and_true, Bool.or_right_comm, Bool.and_comm (draw.getLsbD n)]

/-- Settles O25, by what stands at each offset. -/
theorem readsWhileBusy : Obligations.ReadsWhileBusy := by
  intro s draw hb
  have drawn := settled_busy hb
  refine ⟨?_, ?_, ?_, ?_, fun k m => ?_, fun n => ?_, fun off range => ?_, ?_, fun k => ?_, fun off range => ?_⟩
  · simp only [readWord, locate_id, idWord]
  · simp only [readWord, locate_irqen, irqenWord]
  · simp only [readWord, locate_balTol]
  · simp only [readWord, locate_errAddr]
  · simp only [readWord, locate_key, extractLsb'_wordOf]; exact entry_eq ..
  · simp only [readWord, locate_status, hb, if_true, getLsbD_statusWhileBusy]
  · cases ht : locate off with
    | result0 | result1 | errInfo | mat k | blk k | sbox k | isbox k | rk k | wspec k | ddtr k =>
      simp only [readWord, ht, drawn]
    | _ => have := standsAt_of_locate ht; omega
  · simp only [readWord, locate_const, drawn]
  · simp only [readWord, locate_balw, drawn]
  · cases ht : locate off with
    | ctrl | cmd | reserved => simp only [readWord, ht]
    | _ => have := standsAt_of_locate ht; omega

/-- Settles O26: a window word is its entries, with the draw where a mark is 0. -/
theorem windowsReadTheirEntries : Obligations.WindowsReadTheirEntries := by
  intro s draw hb
  have idle (v : Word) := settled_idle s draw v hb
  refine ⟨fun k m => ⟨?_, ?_⟩, fun k m => ?_, fun a => ⟨?_, ?_⟩, fun off => ⟨rfl, rfl, rfl, rfl, rfl⟩⟩
  · simp only [readWord, locate_sbox, idle]; exact extractLsb'_tableWord ..
  · simp only [readWord, locate_isbox, idle]; exact extractLsb'_tableWord ..
  · simp only [readWord, locate_rk, idle]; exact extractLsb'_tableWord ..
  · simp only [readWord, locate_wspec, idle]
  · simp only [readWord, locate_ddtr, idle]

end Sys2Proof.Machine
end

section
/-! PROOF. What no command writes (20_memory.md R72): the registers of the host's own, and, MSEL apart, the matrix and the
constant. Every command is made of a few updates of the state, and each of them keeps these fields. -/

namespace Sys2Proof.Machine

/-- Nothing of the host's own differs between s and t: the registers no command writes, the host agent, the schedule and the
draws. -/
structure KeepsHostState (s t : State) : Prop where
  key : t.key = s.key
  doneIe : t.doneIe = s.doneIe
  errIe : t.errIe = s.errIe
  balTol : t.balTol = s.balTol
  errAddr : t.errAddr = s.errAddr
  busyViol : t.busyViol = s.busyViol
  host : t.host = s.host
  turns : t.turns = s.turns
  draws : t.draws = s.draws

/-- The matrix and the constant are kept too. -/
structure KeepsOperands (s t : State) : Prop extends KeepsHostState s t where
  mrow : t.mrow = s.mrow
  const : t.const = s.const

theorem KeepsOperands.refl (s : State) : KeepsOperands s s := by
  repeat' constructor

/-! ### The updates that commands are made of -/

section
variable {s e : State} (h : KeepsOperands s e)
include h

theorem KeepsOperands.complete (k : ErrCode) (w : Word) : KeepsOperands s (e.complete k w) := { h with }
theorem KeepsOperands.withResults (r0 r1 : Word) : KeepsOperands s (e.withResults r0 r1) := { h with }
theorem KeepsOperands.withBlk (b : Block) : KeepsOperands s (e.withBlk b) := { h with }
theorem KeepsOperands.scratchWspec : KeepsOperands s e.scratchWspec := { h with }
theorem KeepsOperands.scratchDdtr : KeepsOperands s e.scratchDdtr := { h with }
theorem KeepsOperands.checkTable (tbl : Table) : KeepsOperands s (e.checkTable tbl) := { h with }
theorem KeepsOperands.checkRank {b : Bool} : KeepsOperands s { e with matOk := b } := { h with }
theorem KeepsOperands.validate : KeepsOperands s { e with sboxValid := true } := { h with }

theorem KeepsOperands.storeTable {tbl : Vector (Option Byte) 256} :
    KeepsOperands s { e with sbox := tbl, sboxValid := true, keyReady := false } := { h with }

theorem KeepsOperands.storeWspec (w : Vector (Option (BitVec 10)) 256) :
    KeepsOperands s { e with wspec := w, wspecValid := true } := { h with }

theorem KeepsOperands.storeDdtr (d : Vector (Option (BitVec 9)) 256) :
    KeepsOperands s { e with ddtr := d, ddtrValid := true } := { h with }

theorem KeepsOperands.storeKeys (rk : Vector (Option Byte) 176) :
    KeepsOperands s { e with rk := rk, keyReady := true } := { h with }

theorem KeepsOperands.finishCheck {tbl : Table} {i : Instr} {t : State} (hn : finishCheck tbl i e = .next t) :
    KeepsOperands s t := by
  obtain ⟨-, rfl⟩ | ⟨-, rfl⟩ := (finishCheck_next tbl i e t).mp hn
  · exact (h.checkTable tbl).complete _ _
  · exact (h.checkTable tbl).complete _ _

end

/-! ### The commands -/

/-- A command other than MSEL keeps the matrix and the constant, and all that is the host's. -/
theorem exec_keepsOperands {i : Instr} {s t : State} (hi : ∀ v, i ≠ .msel v) (hn : exec i s = .next t) :
    KeepsOperands s t := by
  have kept := KeepsOperands.refl s
  cases i with
  | nop => obtain rfl := (execNop_next s t).mp hn; exact kept.complete _ _
  | gfmul a b => obtain rfl := (execGfmul_next a b s t).mp hn; exact (kept.withResults _ _).complete _ _
  | gfinv a => obtain rfl := (execGfinv_next a s t).mp hn; exact (kept.withResults _ _).complete _ _
  | affine y => obtain rfl := (execAffine_next y s t).mp hn; exact (kept.withResults _ _).complete _ _
  | msel v => exact absurd rfl (hi v)
  | mrank => obtain rfl := (execMrank_next s t).mp hn; exact (kept.withResults _ _).checkRank.complete _ _
  | sbuild =>
    obtain ⟨-, hf⟩ | ⟨-, rfl⟩ := (execSbuild_next s t).mp hn
    · exact kept.storeTable.finishCheck hf
    · exact kept.complete _ _
  | sverify => exact kept.validate.finishCheck ((execSverify_next s t).mp hn).2
  | wht b =>
    obtain ⟨-, -, rfl⟩ | ⟨-, rfl⟩ := (execWht_next b s t).mp hn
    · exact ((kept.withResults _ _).storeWspec _).complete _ _
    · exact kept.complete _ _
  | nl =>
    obtain ⟨-, -, rfl⟩ | ⟨-, rfl⟩ := (execNl_next s t).mp hn
    · exact (kept.withResults _ _).scratchWspec.complete _ _
    · exact kept.complete _ _
  | lap =>
    obtain ⟨-, -, rfl⟩ | ⟨-, rfl⟩ := (execLap_next s t).mp hn
    · exact (kept.withResults _ _).scratchWspec.complete _ _
    · exact kept.complete _ _
  | ddtrow dx =>
    obtain ⟨-, -, rfl⟩ | ⟨-, rfl⟩ := (execDdtrow_next dx s t).mp hn
    · exact ((kept.withResults _ _).storeDdtr _).complete _ _
    · exact kept.complete _ _
  | du =>
    obtain ⟨-, -, rfl⟩ | ⟨-, rfl⟩ := (execDu_next s t).mp hn
    · exact (kept.withResults _ _).scratchDdtr.complete _ _
    · exact kept.complete _ _
  | kexp =>
    obtain ⟨-, -, rfl⟩ | ⟨-, rfl⟩ := (execKexp_next s t).mp hn
    · exact (kept.storeKeys _).complete _ _
    · exact kept.complete _ _
  | enc =>
    obtain ⟨-, -, -, -, rfl⟩ | ⟨-, rfl⟩ := (execEnc_next s t).mp hn
    · exact (kept.withBlk _).complete _ _
    · exact kept.complete _ _
  | dec =>
    obtain ⟨-, -, -, -, rfl⟩ | ⟨-, rfl⟩ := (execDec_next s t).mp hn
    · exact (kept.withBlk _).complete _ _
    · exact kept.complete _ _
  | subb =>
    obtain ⟨-, -, rfl⟩ | ⟨-, rfl⟩ := (execSubb_next s t).mp hn
    · exact (kept.withBlk _).complete _ _
    · exact kept.complete _ _
  | isubb =>
    obtain ⟨-, -, rfl⟩ | ⟨-, rfl⟩ := (execIsubb_next s t).mp hn
    · exact (kept.withBlk _).complete _ _
    · exact kept.complete _ _
  | shr => obtain rfl := (execShr_next s t).mp hn; exact (kept.withBlk _).complete _ _
  | ishr => obtain rfl := (execIshr_next s t).mp hn; exact (kept.withBlk _).complete _ _
  | mixc => obtain rfl := (execMixc_next s t).mp hn; exact (kept.withBlk _).complete _ _
  | imixc => obtain rfl := (execImixc_next s t).mp hn; exact (kept.withBlk _).complete _ _
  | ark r =>
    obtain ⟨-, -, -, rfl⟩ | ⟨-, -, rfl⟩ | ⟨-, rfl⟩ := (execArk_next r s t).mp hn
    · exact (kept.withBlk _).complete _ _
    · exact kept.complete _ _
    · exact kept.complete _ _

theorem execMsel_keepsHostState {v : Byte} {s t : State} (hn : execMsel v s = .next t) : KeepsHostState s t := by
  obtain ⟨-, rfl⟩ | ⟨-, rfl⟩ := (execMsel_next v s t).mp hn
  · exact { (KeepsOperands.refl s).toKeepsHostState with }
  · exact ((KeepsOperands.refl s).complete _ _).toKeepsHostState

theorem exec_keepsHostState {i : Instr} {s t : State} (hn : exec i s = .next t) : KeepsHostState s t := by
  by_cases hi : ∀ v, i ≠ .msel v
  · exact (exec_keepsOperands hi hn).toKeepsHostState
  · obtain ⟨v, rfl⟩ : ∃ v, i = .msel v := by simpa using hi
    exact execMsel_keepsHostState hn

/-- Settles O11: MSEL keeps the host's state, every other command the matrix and the constant as well. -/
theorem commandsLeaveTheHostsRegistersAlone : Obligations.CommandsLeaveTheHostsRegistersAlone := by
  intro i s t hn
  obtain ⟨key, doneIe, errIe, balTol, errAddr, busyViol, host, turns, draws⟩ := exec_keepsHostState hn
  refine ⟨key, doneIe, errIe, balTol, errAddr, busyViol, host, turns, draws, fun hi => ?_⟩
  have kept := exec_keepsOperands hi hn
  exact ⟨kept.mrow, kept.const⟩

end Sys2Proof.Machine
end

section
/-! PROOF. The encoding (30_encoding.md R90 to R97): each command's word decodes to it, what the decoder makes of every word,
and the match and mask rows of the opcode table. -/

namespace Sys2Proof

/-! ### From commands to words (R90, R93) -/

/-- Every command's word decodes to the command, operands included. -/
theorem decode_encode (i : Instr) : decode (encode i) = .ok i :=
  match i with
  | .nop => Laws.RoundTrip.nop
  | .gfmul a b => Laws.RoundTrip.gfmul a b
  | .gfinv a => Laws.RoundTrip.gfinv a
  | .affine y => Laws.RoundTrip.affine y
  | .msel v => Laws.RoundTrip.msel v
  | .mrank => Laws.RoundTrip.mrank
  | .sbuild => Laws.RoundTrip.sbuild
  | .sverify => Laws.RoundTrip.sverify
  | .wht b => Laws.RoundTrip.wht b
  | .nl => Laws.RoundTrip.nl
  | .lap => Laws.RoundTrip.lap
  | .ddtrow dx => Laws.RoundTrip.ddtrow dx
  | .du => Laws.RoundTrip.du
  | .kexp => Laws.RoundTrip.kexp
  | .enc => Laws.RoundTrip.enc
  | .dec => Laws.RoundTrip.dec
  | .subb => Laws.RoundTrip.subb
  | .isubb => Laws.RoundTrip.isubb
  | .shr => Laws.RoundTrip.shr
  | .ishr => Laws.RoundTrip.ishr
  | .mixc => Laws.RoundTrip.mixc
  | .imixc => Laws.RoundTrip.imixc
  | .ark r => Laws.RoundTrip.ark r

/-- The opcode table's number of a 32-bit word is the word. -/
theorem decodeTableWord_toNat (w : Word) (i : Instr) : decodeTableWord 32 w.toNat = some i ↔ decode w = .ok i := by
  rw [decodeTableWord, Nat.mod_eq_of_lt w.isLt, if_pos w.isLt, BitVec.ofNat_toNat, BitVec.setWidth_eq]
  cases decode w <;> simp

/-- Settles O1: the round trip of each command, read as a word and as the table's number. -/
theorem encodedCommandDecodesToItself : Obligations.EncodedCommandDecodesToItself := fun i =>
  ⟨decode_encode i, (decodeTableWord_toNat _ _).mpr (decode_encode i)⟩

/-! ### What the decoder makes of every word (R92, R94, R96) -/

open Machine (unassignedOpcode listsOpa breaksReserved)

theorem unassignedOpcode_opcode (i : Instr) : unassignedOpcode i.opcode.toNat = false := by
  cases i <;> rfl

theorem listsOpa_opcode (i : Instr) : listsOpa i.opcode.toNat = decide (i.operandCount ≠ 0) := by
  cases i <;> rfl

theorem opcode_eq_one_iff (i : Instr) : i.opcode.toNat = 1 ↔ i.operandCount = 2 := by
  cases i <;> simp [Instr.opcode, Instr.operandCount]

/-- The reserved fields of a word with the opcode of the command i (R92). -/
theorem breaksReserved_eq_false {w : Word} {i : Instr} (opcode : (opcField w).toNat = i.opcode.toNat) :
    breaksReserved w = false ↔
      rsvField w = 0 ∧ (i.operandCount = 0 → opaField w = 0) ∧ (i.operandCount ≠ 2 → opbField w = 0) := by
  simp [breaksReserved, opcode, listsOpa_opcode, opcode_eq_one_iff]

/-- A command is the word with its fields. -/
theorem encode_eq_of_fields {w : Word} {i : Instr} (opcode : (opcField w).toNat = i.opcode.toNat)
    (opa : opaField w = i.opa) (opb : opbField w = i.opb) (rsv : rsvField w = 0) : encode i = w := by
  rw [encode, ← BitVec.eq_of_toNat_eq opcode, ← opa, ← opb, commandWord_fields w rsv]

/-- Everything a word can decode to: an error of R96 or of R92, in the order of R244, or the command whose word it is. -/
inductive DecodesTo (w : Word) : Except DecodeError Instr → Prop where
  | unassigned (opcode : unassignedOpcode (opcField w).toNat = true) : DecodesTo w (.error .illegalOpcode)
  | reserved (opcode : unassignedOpcode (opcField w).toNat = false) (fields : breaksReserved w = true) :
    DecodesTo w (.error .reservedField)
  | command (i : Instr) (opcode : unassignedOpcode (opcField w).toNat = false) (fields : breaksReserved w = false)
    (word : encode i = w) : DecodesTo w (.ok i)

/-- A row of the map: the check c of its reserved fields, then the command i. -/
theorem decodesTo_row {w : Word} {i : Instr} {c : Prop} [Decidable c] (opcode : (opcField w).toNat = i.opcode.toNat)
    (check : c ↔ breaksReserved w = false) (word : c → encode i = w) :
    DecodesTo w (if c then .ok i else .error .reservedField) := by
  have assigned : unassignedOpcode (opcField w).toNat = false := opcode ▸ unassignedOpcode_opcode i
  by_cases hc : c
  · rw [if_pos hc]
    exact .command i assigned (check.mp hc) (word hc)
  · rw [if_neg hc]
    exact .reserved assigned (by simpa [check] using hc)

theorem noOperand_decodesTo {w : Word} {i : Instr} (opcode : (opcField w).toNat = i.opcode.toNat)
    (count : i.operandCount = 0) (opa : i.opa = 0) (opb : i.opb = 0) : DecodesTo w (noOperand w i) := by
  refine decodesTo_row opcode ?_ fun ⟨ha, hb, hr⟩ =>
    encode_eq_of_fields opcode (ha.trans opa.symm) (hb.trans opb.symm) hr
  simp [breaksReserved_eq_false opcode, count, and_rotate]

theorem oneOperand_decodesTo {w : Word} {mk : Byte → Instr}
    (opcode : (opcField w).toNat = (mk (opaField w)).opcode.toNat) (count : (mk (opaField w)).operandCount = 1)
    (opa : opaField w = (mk (opaField w)).opa) (opb : (mk (opaField w)).opb = 0) : DecodesTo w (oneOperand w mk) := by
  refine decodesTo_row opcode ?_ fun ⟨hb, hr⟩ => encode_eq_of_fields opcode opa (hb.trans opb.symm) hr
  simp [breaksReserved_eq_false opcode, count, and_comm]

theorem gfmul_decodesTo {w : Word} (opcode : (opcField w).toNat = 0x01) : DecodesTo w (twoOperands w .gfmul) := by
  have row : (opcField w).toNat = (Instr.gfmul (opaField w) (opbField w)).opcode.toNat := opcode
  refine decodesTo_row row ?_ fun hr => encode_eq_of_fields row rfl rfl hr
  simp [breaksReserved_eq_false row, Instr.operandCount]

/-- The decoder, row by row of the map of R95. -/
theorem decodesTo_decode (w : Word) : DecodesTo w (decode w) := by
  unfold decode
  split
  case h_2 opcode => exact gfmul_decodesTo opcode
  case h_3 opcode | h_4 opcode | h_5 opcode | h_9 opcode | h_12 opcode | h_23 opcode =>
    exact oneOperand_decodesTo opcode rfl rfl rfl
  case h_24 =>
    refine .unassigned ?_
    simp only [imp_false] at *
    have := (opcField w).isLt
    simp only [unassignedOpcode, decide_eq_true_eq]
    omega
  all_goals exact noOperand_decodesTo (by assumption) rfl rfl rfl

/-- Which words are commands: those with an assigned opcode and 0 in their reserved fields (R92, R96). -/
theorem exists_decode_iff (w : Word) :
    (∃ i, decode w = .ok i) ↔ unassignedOpcode (opcField w).toNat = false ∧ breaksReserved w = false := by
  have out := decodesTo_decode w
  generalize decode w = r at out
  cases out with
  | unassigned opcode => simp [opcode]
  | reserved _ fields => simp [fields]
  | command i opcode fields => simp [opcode, fields]

/-- Decoding reads a command from its word alone. -/
theorem decode_eq_ok_iff (w : Word) (i : Instr) : decode w = .ok i ↔ encode i = w := by
  refine ⟨fun h => ?_, fun h => h ▸ decode_encode i⟩
  have out : DecodesTo w (.ok i) := h ▸ decodesTo_decode w
  cases out with
  | command _ _ _ word => exact word

/-- Settles O2: the word of a command is its encoding, whose fields are the command's. -/
theorem decodedWordIsItsEncoding : Obligations.DecodedWordIsItsEncoding := by
  intro w i h
  obtain rfl := (decode_eq_ok_iff w i).mp h
  exact ⟨rfl, opcField_commandWord .., opbField_commandWord .., opaField_commandWord .., rsvField_commandWord ..⟩

/-! ### The rows of the opcode table (R94) -/

/-- A word fits a row, field by field. -/
theorem fits_iff (r : OpcodeRow) (w : Word) :
    r.fits w = true ↔
      opcField w &&& opcField r.mask = opcField r.value ∧ opbField w &&& opbField r.mask = opbField r.value ∧
      opaField w &&& opaField r.mask = opaField r.value ∧ rsvField w &&& rsvField r.mask = rsvField r.value := by
  simp only [OpcodeRow.fits, beq_iff_eq, opcField, opbField, opaField, rsvField, ← BitVec.extractLsb'_and]
  exact ⟨fun h => by simp only [h, and_self], fun ⟨h1, h2, h3, h4⟩ => word_eq_of_fields _ _ h1 h2 h3 h4⟩

/-- Each row of the table has an assigned opcode and asks for it, and for 0 in every field its row of R95 does not list. -/
theorem opcodeRows_fields : ∀ r ∈ opcodeRows,
    unassignedOpcode (opcField r.value).toNat = false ∧ opcField r.mask = BitVec.allOnes 8 ∧
    opbField r.value = 0 ∧ opbField r.mask = (if (opcField r.value).toNat = 0x01 then 0 else BitVec.allOnes 8) ∧
    opaField r.value = 0 ∧ opaField r.mask = (if listsOpa (opcField r.value).toNat then 0 else BitVec.allOnes 8) ∧
    rsvField r.value = 0 ∧ rsvField r.mask = BitVec.allOnes 8 := by
  decide

/-- Each command has the row of its opcode and its name. -/
theorem exists_row (i : Instr) : ∃ r ∈ opcodeRows, opcField r.value = i.opcode ∧ r.mnemonic = i.mnemonic := by
  cases i <;> exact of_decide_eq_true rfl

/-- No two rows have the same opcode. -/
theorem opcodeRows_inj {r q : OpcodeRow} (hr : r ∈ opcodeRows) (hq : q ∈ opcodeRows)
    (h : opcField r.value = opcField q.value) : r = q := by
  have distinct : (opcodeRows.map fun r => opcField r.value).Nodup := by decide
  exact List.inj_on_of_nodup_map distinct hr hq h

/-- The mask of an operand field asks for 0 there unless the field is listed. -/
theorem and_mask_eq_zero_iff (b : Byte) (listed : Prop) [Decidable listed] :
    b &&& (if listed then 0 else BitVec.allOnes 8) = 0 ↔ (¬listed → b = 0) := by
  by_cases h : listed
  · simp [h]
  · rw [if_neg h, BitVec.and_allOnes]; simp [h]

/-- A word fits a row of the table when it has the row's opcode and 0 in its reserved fields. -/
theorem fits_row_iff {r : OpcodeRow} (hr : r ∈ opcodeRows) (w : Word) :
    r.fits w = true ↔ opcField w = opcField r.value ∧ breaksReserved w = false := by
  obtain ⟨-, opcMask, opbValue, opbMask, opaValue, opaMask, rsvValue, rsvMask⟩ := opcodeRows_fields r hr
  rw [fits_iff, opcMask, opbValue, opbMask, opaValue, opaMask, rsvValue, rsvMask, BitVec.and_allOnes, BitVec.and_allOnes]
  refine and_congr_right fun opcode => ?_
  simp only [and_mask_eq_zero_iff, breaksReserved, opcode, decide_eq_false_iff_not, Bool.not_eq_true]
  tauto

/-- The word of a command fits the command's row. -/
theorem decode_fits_row {w : Word} {i : Instr} (h : decode w = .ok i) :
    ∃ r ∈ opcodeRows, r.fits w = true ∧ r.mnemonic = i.mnemonic := by
  obtain ⟨r, hr, rowOpcode, name⟩ := exists_row i
  obtain ⟨-, opcode, -⟩ := decodedWordIsItsEncoding w i h
  obtain ⟨-, fields⟩ := (exists_decode_iff w).mp ⟨i, h⟩
  exact ⟨r, hr, (fits_row_iff hr w).mpr ⟨opcode.trans rowOpcode.symm, fields⟩, name⟩

theorem fits_row_unique {w : Word} {r q : OpcodeRow} (hr : r ∈ opcodeRows) (hq : q ∈ opcodeRows)
    (fitr : r.fits w = true) (fitq : q.fits w = true) : r = q :=
  opcodeRows_inj hr hq (((fits_row_iff hr w).mp fitr).1.symm.trans ((fits_row_iff hq w).mp fitq).1)

/-- Settles O3: a word fits a row exactly when it is a command with the row's opcode, and no two rows share an opcode. -/
theorem decodeFollowsTheOpcodeTable : Obligations.DecodeFollowsTheOpcodeTable := by
  refine ⟨fun w i => decode_fits_row, fun w r hr fit => ?_, fun w r hr q hq => fits_row_unique hr hq⟩
  obtain ⟨opcode, fields⟩ := (fits_row_iff hr w).mp fit
  obtain ⟨assigned, -⟩ := opcodeRows_fields r hr
  obtain ⟨i, hi⟩ := (exists_decode_iff w).mpr ⟨opcode ▸ assigned, fields⟩
  obtain ⟨q, hq, fitq, name⟩ := decode_fits_row hi
  exact ⟨i, hi, fits_row_unique hq hr fitq fit ▸ name.symm⟩

/-! ### Samples -/

/-- Settles O5: the decoder evaluated at each word. -/
theorem sampleWordsDecode : Obligations.SampleWordsDecode :=
  ⟨rfl, rfl, rfl, rfl, rfl, rfl, rfl, rfl, rfl⟩

end Sys2Proof
end

section
/-! PROOF. How a word that is no command ends (30_encoding.md R92, R96, R97). -/

namespace Sys2Proof.Machine

/-- What a completion leaves in the command-status fields (R50, R280). -/
theorem completed_complete (k : ErrCode) (w : Word) (s e : State) (sticky : e.esticky = s.esticky)
    (info : e.errInfo = s.errInfo) : Completed k w s (e.complete k w) where
  latch := complete_pcmd ..
  busy := complete_busy ..
  done := complete_done ..
  code := complete_errCode ..
  err := isError_iff k
  sticky := by simp [sticky, isError_iff]
  info := by cases k <;> simp [info, ErrCode.isError]

/-- A completion changes the command-status fields alone (R245). -/
theorem complete_withStatusOf (k : ErrCode) (w : Word) (s : State) : s.complete k w = (s.complete k w).withStatusOf s := rfl

theorem wordEndsWith_of_decode_error {w : Word} {e : DecodeError} (h : decode w = .error e) (s : State) :
    WordEndsWith w s (decodeErrorCode e) :=
  ⟨s.complete (decodeErrorCode e) w, by rw [runWord, h], completed_complete _ _ _ _ rfl rfl, complete_withStatusOf ..⟩

/-- Settles O4, by what the decoder makes of the word. -/
theorem wordsThatAreNoCommandsEndWithTheirCode : Obligations.WordsThatAreNoCommandsEndWithTheirCode := by
  intro w s
  have out := decodesTo_decode w
  generalize hd : decode w = r at out
  cases out with
  | unassigned opcode => exact ⟨fun _ => wordEndsWith_of_decode_error hd s, by simp [opcode], by simp [opcode]⟩
  | reserved opcode fields =>
    exact ⟨by simp [opcode], fun _ _ => wordEndsWith_of_decode_error hd s, by simp [fields]⟩
  | command i opcode fields =>
    exact ⟨by simp [opcode], by simp [fields], fun _ _ => ⟨i, rfl, by rw [runWord, hd]⟩⟩

end Sys2Proof.Machine
end

section
/-! PROOF. A turn of the host (30_encoding.md R101). -/

namespace Sys2Proof.Machine

/-- What a read returns does not depend on the schedule. -/
@[simp] theorem readWord_popTurn (off : Offset) (draw : Word) (s : State) :
    readWord off draw s.popTurn = readWord off draw s := by
  cases h : locate off <;> simp only [readWord, h] <;> rfl

theorem step_of_host_turn {s : State} (h : nextTurn s = .host) : step s = hostTurn s.popTurn := by
  rw [step, h, takeTurn]

/-- A host that has halted, or has no further line, does nothing in its turn. -/
theorem hostTurn_done {s : State} (h : s.host.halted = true ∨ s.host.prog[s.host.pos]? = none) : hostTurn s = .next s := by
  rw [hostTurn]
  obtain h | h := h <;> simp [h]

theorem hostTurn_line {s : State} {line : HostLine} (running : s.host.halted = false)
    (next : s.host.prog[s.host.pos]? = some line) : hostTurn s = runLine line s := by
  simp [hostTurn, running, next]

/-- Settles O7: the turn's line, read from its table in R101. -/
theorem hostTurnRunsTheNextLine : Obligations.HostTurnRunsTheNextLine := by
  refine ⟨fun s turn done => ?_, fun s line turn running next => ?_⟩
  · rw [step_of_host_turn turn]
    exact hostTurn_done done
  have run : step s = runLine line s.popTurn := (step_of_host_turn turn).trans (hostTurn_line running next)
  cases line with
  | read off n => simp only [run, runLine, runRead, hostRead, readWord_popTurn, popTurn_draws]
  | bnz n mask l =>
    simp only [run, runLine, runBnz, popTurn_host]
    refine ⟨fun zero => if_pos zero, fun p nonzero found => ?_, fun nonzero missing => ?_⟩
    · rw [if_neg nonzero, found]
    · rw [if_neg nonzero, missing]
  | _ => exact run

end Sys2Proof.Machine
end

section
/-! PROOF. Which commands write each array, each validity flag and the results (10_state.md R36 to R49, 30_encoding.md R99). -/

namespace Sys2Proof.Machine

/-- Settles O12, command by command: each next state is written as an update of s that names what the command writes. -/
theorem arraysFlagsAndResultsHaveTheirWriters : Obligations.ArraysFlagsAndResultsHaveTheirWriters := by
  intro i s t hn
  cases i with
  | nop => obtain rfl := (execNop_next s t).mp hn; simp
  | gfmul a b => obtain rfl := (execGfmul_next a b s t).mp hn; simp
  | gfinv a => obtain rfl := (execGfinv_next a s t).mp hn; simp
  | affine y => obtain rfl := (execAffine_next y s t).mp hn; simp
  | msel v => obtain ⟨-, rfl⟩ | ⟨-, rfl⟩ := (execMsel_next v s t).mp hn <;> simp
  | mrank => obtain rfl := (execMrank_next s t).mp hn; simp
  | sbuild =>
    obtain ⟨-, hf⟩ | ⟨-, rfl⟩ := (execSbuild_next s t).mp hn
    · obtain ⟨-, rfl⟩ | ⟨-, rfl⟩ := (finishCheck_next _ _ _ t).mp hf <;> simp
    · simp
  | sverify =>
    obtain ⟨-, hf⟩ := (execSverify_next s t).mp hn
    obtain ⟨-, rfl⟩ | ⟨-, rfl⟩ := (finishCheck_next _ _ _ t).mp hf <;> simp
  | wht b => obtain ⟨-, -, rfl⟩ | ⟨-, rfl⟩ := (execWht_next b s t).mp hn <;> simp
  | nl => obtain ⟨-, -, rfl⟩ | ⟨-, rfl⟩ := (execNl_next s t).mp hn <;> simp
  | lap => obtain ⟨-, -, rfl⟩ | ⟨-, rfl⟩ := (execLap_next s t).mp hn <;> simp
  | ddtrow dx => obtain ⟨-, -, rfl⟩ | ⟨-, rfl⟩ := (execDdtrow_next dx s t).mp hn <;> simp
  | du => obtain ⟨-, -, rfl⟩ | ⟨-, rfl⟩ := (execDu_next s t).mp hn <;> simp
  | kexp => obtain ⟨-, -, rfl⟩ | ⟨-, rfl⟩ := (execKexp_next s t).mp hn <;> simp
  | enc => obtain ⟨-, -, -, -, rfl⟩ | ⟨-, rfl⟩ := (execEnc_next s t).mp hn <;> simp
  | dec => obtain ⟨-, -, -, -, rfl⟩ | ⟨-, rfl⟩ := (execDec_next s t).mp hn <;> simp
  | subb => obtain ⟨-, -, rfl⟩ | ⟨-, rfl⟩ := (execSubb_next s t).mp hn <;> simp
  | isubb => obtain ⟨-, -, rfl⟩ | ⟨-, rfl⟩ := (execIsubb_next s t).mp hn <;> simp
  | shr => obtain rfl := (execShr_next s t).mp hn; simp
  | ishr => obtain rfl := (execIshr_next s t).mp hn; simp
  | mixc => obtain rfl := (execMixc_next s t).mp hn; simp
  | imixc => obtain rfl := (execImixc_next s t).mp hn; simp
  | ark r => obtain ⟨-, -, -, rfl⟩ | ⟨-, -, rfl⟩ | ⟨-, rfl⟩ := (execArk_next r s t).mp hn <;> simp

end Sys2Proof.Machine
end

section
/-! PROOF. How a command that succeeds completes, and NOP (40_gf256.md R124). -/

namespace Sys2Proof.Machine

/-- A command that succeeds with the data of e, which has the sticky flag and ERRINFO of s, completes with code 0 (R50). -/
theorem completesWith_of_succeed {i : Instr} {s e : State} (run : exec i s = succeed i e) (sticky : e.esticky = s.esticky)
    (info : e.errInfo = s.errInfo) : CompletesWith i s .noError e :=
  ⟨e.complete .noError (encode i), run, completed_complete _ _ _ _ sticky info, complete_withStatusOf ..⟩

/-- Settles O33: NOP succeeds with the data it finds. -/
theorem nopOnlyCompletes : Obligations.NopOnlyCompletes := fun _ => completesWith_of_succeed rfl rfl rfl

/-- A command that only answers two result words completes with them (R99). -/
theorem completesWith_results {i : Instr} {s : State} {r0 r1 : Word} (run : exec i s = succeed i (s.withResults r0 r1)) :
    CompletesWith i s .noError { s with result0 := r0, result1 := r1 } :=
  completesWith_of_succeed run rfl rfl

end Sys2Proof.Machine
end

section
/-! PROOF. Bytes as polynomials over GF(2) (40_gf256.md R120). A byte is read as the sum of powers of r at its set bits, in
any ring of characteristic 2: r = X gives its polynomial, and a root r of the modulus gives its value in the field, where
`gfmul` is the ring's product. -/

namespace Sys2Proof.Machine

/-- The sum of the powers of r at the set bits of b below bit n. -/
def bitSum {R : Type} [CommRing R] (r : R) (n : Nat) (b : Byte) : R :=
  ∑ i ∈ Finset.range n, if b.getLsbD i then r ^ i else 0

section
variable {R : Type} [CommRing R] (r : R)

theorem bitSum_zero (n : Nat) : bitSum r n 0 = 0 := by simp [bitSum]

theorem bitSum_one : bitSum r 8 1 = 1 := by simp [bitSum]

theorem bitSum_two : bitSum r 8 2 = r := by simp [bitSum, Finset.sum_range_succ]

theorem bitSum_reduction : bitSum r 8 0x1B = r ^ 4 + r ^ 3 + r + 1 := by
  simp [bitSum, Finset.sum_range_succ]; ring

theorem bitSum_maskBy (n : Nat) (c : Bool) (b : Byte) : bitSum r n (maskBy c b) = if c then bitSum r n b else 0 := by
  cases c
  · exact bitSum_zero r n
  · rfl

/-- The lowest bit and the bits above it. -/
theorem bitSum_succ (n : Nat) (b : Byte) :
    bitSum r (n + 1) b = (if b.getLsbD 0 then 1 else 0) + r * bitSum r n (b >>> 1) := by
  rw [bitSum, Finset.sum_range_succ', bitSum, Finset.mul_sum, add_comm]
  simp [pow_succ', Nat.add_comm]

/-- A shift multiplies by r, except for the bit that falls out. -/
theorem bitSum_shiftLeft (b : Byte) :
    bitSum r 8 (b <<< 1) + (if b.getLsbD 7 then r ^ 8 else 0) = r * bitSum r 8 b := by
  simp only [bitSum, Finset.sum_range_succ, Finset.sum_range_zero, BitVec.getLsbD_shiftLeft]
  simp [mul_add, ← pow_succ', ← pow_two]

variable [CharP R 2]

/-- Exclusive or is addition. -/
theorem bitSum_xor (n : Nat) (a b : Byte) : bitSum r n (a ^^^ b) = bitSum r n a + bitSum r n b := by
  rw [bitSum, bitSum, bitSum, ← Finset.sum_add_distrib]
  refine Finset.sum_congr rfl fun i _ => ?_
  rw [BitVec.getLsbD_xor]
  cases a.getLsbD i <;> cases b.getLsbD i <;> simp [CharTwo.add_self_eq_zero]

/-! ### The product at a root of the modulus -/

variable {r} (root : r ^ 8 + r ^ 4 + r ^ 3 + r + 1 = 0)
include root

/-- Doubling is multiplication by the root. -/
theorem bitSum_xtime (a : Byte) : bitSum r 8 (xtime a) = r * bitSum r 8 a := by
  have reduced : bitSum r 8 0x1B = r ^ 8 := by
    rw [bitSum_reduction, eq_comm, ← CharTwo.add_eq_zero, ← root]
    ring
  rw [← bitSum_shiftLeft, xtime]
  split
  · rw [bitSum_xor, reduced]
  · rw [add_zero]

theorem bitSum_gfmulLoop (n : Nat) (a b : Byte) : bitSum r 8 (gfmulLoop n a b 0) = bitSum r 8 a * bitSum r n b := by
  induction n generalizing a b with
  | zero => simp [gfmulLoop, bitSum]
  | succ n ih =>
    rw [gfmulLoop_step, bitSum_xor, bitSum_maskBy, ih, bitSum_xtime root, bitSum_succ r n b]
    split <;> ring

theorem bitSum_gfmul (a b : Byte) : bitSum r 8 (gfmul a b) = bitSum r 8 a * bitSum r 8 b :=
  bitSum_gfmulLoop root 8 a b

theorem bitSum_gfpowLoop (n : Nat) (a p : Byte) : bitSum r 8 (gfpowLoop n a p) = bitSum r 8 p * bitSum r 8 a ^ n := by
  induction n generalizing p with
  | zero => simp [gfpowLoop]
  | succ n ih => rw [gfpowLoop, ih, bitSum_gfmul root, pow_succ']; ring

theorem bitSum_squarings (n : Nat) (a : Byte) : bitSum r 8 ((fun v => gfmul v v)^[n] a) = bitSum r 8 a ^ 2 ^ n := by
  induction n with
  | zero => simp
  | succ n ih => rw [Function.iterate_succ_apply', bitSum_gfmul root, ih, pow_succ, pow_mul, sq]

/-- Eight squarings give every value back: they are a ring homomorphism, and they fix the root. -/
theorem bitSum_pow_256 (a : Byte) : bitSum r 8 a ^ 2 ^ 8 = bitSum r 8 a := by
  have fixed : r ^ 2 ^ 8 = r := by
    have two : (fun v => gfmul v v)^[8] 2 = 2 := by decide +kernel
    rw [← bitSum_two r, ← bitSum_squarings root, two]
  rw [bitSum, sum_pow_char_pow]
  refine Finset.sum_congr rfl fun i _ => ?_
  split
  · rw [pow_right_comm, fixed]
  · exact zero_pow (by decide)

end

end Sys2Proof.Machine
end

section
/-! PROOF. The field of the bytes (40_gf256.md R120, R121): polynomials over GF(2) modulo x^8 + x^4 + x^3 + x + 1. Each byte has a
value of its own there, so the laws of the ring are the laws of `gfmul`. -/

namespace Sys2Proof.Machine

/-- The polynomial x^8 + x^4 + x^3 + x + 1 over GF(2) (R120). -/
noncomputable def fieldModulus : Polynomial (ZMod 2) :=
  Polynomial.X ^ 8 + Polynomial.X ^ 4 + Polynomial.X ^ 3 + Polynomial.X + 1

/-- The polynomial of a byte, bit i its coefficient of x^i (R120). -/
noncomputable def bytePolynomial (v : Byte) : Polynomial (ZMod 2) := bitSum Polynomial.X 8 v

theorem degree_fieldModulus : fieldModulus.degree = 8 := by
  rw [fieldModulus]
  compute_degree!

/-- The value of a byte modulo the polynomial of R120. -/
noncomputable def fieldValue (v : Byte) : AdjoinRoot fieldModulus := bitSum (AdjoinRoot.root fieldModulus) 8 v

theorem charP_field : CharP (AdjoinRoot fieldModulus) 2 :=
  charP_of_injective_algebraMap
    (AdjoinRoot.of.injective_of_degree_ne_zero (by rw [degree_fieldModulus]; decide)) 2

theorem root_fieldModulus : letI r := AdjoinRoot.root fieldModulus; r ^ 8 + r ^ 4 + r ^ 3 + r + 1 = 0 := by
  have zero : AdjoinRoot.mk fieldModulus
      (Polynomial.X ^ 8 + Polynomial.X ^ 4 + Polynomial.X ^ 3 + Polynomial.X + 1) = 0 := AdjoinRoot.mk_self
  simpa only [map_add, map_pow, map_one, AdjoinRoot.mk_X] using zero

/-- The value is the polynomial, taken modulo the modulus. -/
theorem fieldValue_eq_mk (v : Byte) : fieldValue v = AdjoinRoot.mk fieldModulus (bytePolynomial v) := by
  simp [fieldValue, bytePolynomial, bitSum, apply_ite]

/-- The polynomial's coefficients are the byte's bits. -/
theorem coeff_bytePolynomial (v : Byte) (i : Nat) : (bytePolynomial v).coeff i = if v.getLsbD i then 1 else 0 := by
  have term (j : Nat) : (if v.getLsbD j then (Polynomial.X ^ j : Polynomial (ZMod 2)) else 0).coeff i =
      if i = j then (if v.getLsbD j then 1 else 0) else 0 := by
    cases v.getLsbD j <;> simp [Polynomial.coeff_X_pow]
  rw [bytePolynomial, bitSum, Polynomial.finsetSum_coeff, Finset.sum_congr rfl fun j _ => term j, Finset.sum_ite_eq]
  refine ite_eq_left_iff.mpr fun above => ?_
  rw [BitVec.getLsbD_of_ge v i (by simpa using above), if_neg Bool.false_ne_true]

theorem degree_bytePolynomial_lt (v : Byte) : (bytePolynomial v).degree < 8 := by
  refine (Polynomial.degree_lt_iff_coeff_zero _ 8).mpr fun i above => ?_
  rw [coeff_bytePolynomial, BitVec.getLsbD_of_ge v i above, if_neg Bool.false_ne_true]

theorem bytePolynomial_injective : Function.Injective bytePolynomial := by
  intro a b same
  have bit (v : Byte) (i : Nat) : v.getLsbD i = true ↔ (bytePolynomial v).coeff i = 1 := by simp [coeff_bytePolynomial]
  refine BitVec.eq_of_getLsbD_eq fun i _ => Bool.eq_iff_iff.mpr ?_
  rw [bit, bit, same]

/-- Different bytes have different values: the difference of their polynomials has a degree below the modulus. -/
theorem fieldValue_injective : Function.Injective fieldValue := by
  intro a b same
  rw [fieldValue_eq_mk, fieldValue_eq_mk, AdjoinRoot.mk_eq_mk] at same
  have small : (bytePolynomial a - bytePolynomial b).degree < fieldModulus.degree := by
    rw [degree_fieldModulus]
    exact (Polynomial.degree_sub_le _ _).trans_lt (max_lt (degree_bytePolynomial_lt a) (degree_bytePolynomial_lt b))
  exact bytePolynomial_injective (sub_eq_zero.mp (Polynomial.eq_zero_of_dvd_of_degree_lt same small))

theorem fieldValue_gfmul (a b : Byte) : fieldValue (gfmul a b) = fieldValue a * fieldValue b :=
  have := charP_field
  bitSum_gfmul root_fieldModulus a b

theorem fieldValue_zero : fieldValue 0 = 0 := bitSum_zero ..

theorem fieldValue_one : fieldValue 1 = 1 := bitSum_one ..

/-- Settles O34: in the field the product's value is the product of the values. -/
theorem gfmulIsTheProductOfPolynomials : Obligations.GfmulIsTheProductOfPolynomials := by
  intro a b s
  have congruent : fieldModulus ∣ bytePolynomial a * bytePolynomial b - bytePolynomial (gfmul a b) := by
    rw [← AdjoinRoot.mk_eq_mk, map_mul, ← fieldValue_eq_mk, ← fieldValue_eq_mk, ← fieldValue_eq_mk, fieldValue_gfmul]
  exact ⟨gfmul a b, congruent, completesWith_results rfl⟩

/-! ### The laws of the product (40_gf256.md R123) -/

theorem gfmul_comm (a b : Byte) : gfmul a b = gfmul b a :=
  fieldValue_injective (by rw [fieldValue_gfmul, fieldValue_gfmul, mul_comm])

theorem gfmul_assoc (a b c : Byte) : gfmul (gfmul a b) c = gfmul a (gfmul b c) :=
  fieldValue_injective (by simp only [fieldValue_gfmul, mul_assoc])

theorem gfmul_one (a : Byte) : gfmul a 1 = a :=
  fieldValue_injective (by rw [fieldValue_gfmul, fieldValue_one, mul_one])

theorem gfmul_zero (a : Byte) : gfmul a 0 = 0 :=
  fieldValue_injective (by rw [fieldValue_gfmul, fieldValue_zero, mul_zero])

theorem gfmul_two (a : Byte) : gfmul a 2 = xtime a :=
  have := charP_field
  fieldValue_injective
    (by rw [fieldValue_gfmul, fieldValue, fieldValue, fieldValue, bitSum_two, bitSum_xtime root_fieldModulus, mul_comm])

theorem xtime_eq (a : Byte) : xtime a = (a <<< 1) ^^^ (if a.getLsbD 7 then 0x1B else 0) := by
  rw [xtime]; split
  · rfl
  · exact BitVec.xor_zero.symm

/-! ### The inverse (40_gf256.md R121) -/

theorem gfpowLoop_eq_iterate (n : Nat) (a p : Byte) : gfpowLoop n a p = (fun r => gfmul r a)^[n] p := by
  induction n generalizing p with
  | zero => rfl
  | succ n ih => exact ih _

theorem fieldValue_gfpowLoop (n : Nat) (a : Byte) : fieldValue (gfpowLoop n a 1) = fieldValue a ^ n := by
  have := charP_field
  rw [fieldValue, bitSum_gfpowLoop root_fieldModulus, bitSum_one, one_mul, fieldValue]

theorem fieldValue_pow_256 (a : Byte) : fieldValue a ^ 256 = fieldValue a :=
  have := charP_field
  bitSum_pow_256 root_fieldModulus a

/-- 0 to the power 254 is 0 too, so the special case of R121 has the same form. -/
theorem fieldValue_gfinv (a : Byte) : fieldValue (gfinv a) = fieldValue a ^ 254 := by
  rw [gfinv]; split
  next zero => rw [zero, fieldValue_zero, zero_pow (by decide)]
  next => exact fieldValue_gfpowLoop 254 a

/-- The modulus has no factors, in the form of Berlekamp's criterion: only 0 and 1 are their own squares. -/
theorem eq_zero_or_one_of_gfmul_self : ∀ e : Byte, gfmul e e = e → e = 0 ∨ e = 1 := by decide +kernel

/-- Every value but 0 has the inverse that R121 computes: its 255th power is its own square, hence 1. -/
theorem fieldValue_pow_255 {a : Byte} (ha : a ≠ 0) : fieldValue a ^ 255 = 1 := by
  have square : gfmul (gfpowLoop 255 a 1) (gfpowLoop 255 a 1) = gfpowLoop 255 a 1 := by
    apply fieldValue_injective
    rw [fieldValue_gfmul, fieldValue_gfpowLoop]
    calc fieldValue a ^ 255 * fieldValue a ^ 255 = fieldValue a ^ 256 * fieldValue a ^ 254 := by ring
      _ = fieldValue a ^ 255 := by rw [fieldValue_pow_256]; ring
  rw [← fieldValue_gfpowLoop]
  obtain zero | one := eq_zero_or_one_of_gfmul_self _ square
  · refine absurd (fieldValue_injective ?_) ha
    calc fieldValue a = fieldValue a * fieldValue (gfpowLoop 255 a 1) := by
          rw [fieldValue_gfpowLoop, ← pow_succ', fieldValue_pow_256]
      _ = fieldValue 0 := by rw [zero, fieldValue_zero, mul_zero]
  · rw [one, fieldValue_one]

theorem gfmul_gfinv {a : Byte} (ha : a ≠ 0) : gfmul a (gfinv a) = 1 :=
  fieldValue_injective
    (by rw [fieldValue_gfmul, fieldValue_gfinv, ← pow_succ', fieldValue_pow_255 ha, fieldValue_one])

theorem gfinv_zero : gfinv 0 = 0 := if_pos rfl

theorem gfmul_gfinv_eq (a : Byte) : gfmul a (gfinv a) = if a = 0 then 0 else 1 := by
  split
  next zero => rw [zero, gfinv_zero, gfmul_zero]
  next nonzero => exact gfmul_gfinv nonzero

theorem gfmul_eq_one_iff {a : Byte} (ha : a ≠ 0) (c : Byte) : gfmul a c = 1 ↔ c = gfinv a := by
  refine ⟨fun one => ?_, fun inv => inv ▸ gfmul_gfinv ha⟩
  calc c = gfmul (gfmul a (gfinv a)) c := by rw [gfmul_gfinv ha, gfmul_comm, gfmul_one]
    _ = gfmul (gfmul a c) (gfinv a) := by rw [gfmul_assoc, gfmul_comm (gfinv a), gfmul_assoc]
    _ = gfinv a := by rw [one, gfmul_comm, gfmul_one]

theorem gfinv_gfinv (a : Byte) : gfinv (gfinv a) = a := by
  by_cases ha : a = 0
  · rw [ha, gfinv_zero, gfinv_zero]
  · have one : gfmul (gfinv a) a = 1 := by rw [gfmul_comm, gfmul_gfinv ha]
    have hi : gfinv a ≠ 0 := fun zero => by
      rw [zero, gfmul_comm, gfmul_zero] at one
      exact absurd one (by decide)
    exact ((gfmul_eq_one_iff hi a).mp one).symm

/-- Settles O35: the inverse is the 254th power, and it is unique in the field. -/
theorem gfinvIsTheInverse : Obligations.GfinvIsTheInverse := by
  intro a s
  refine ⟨gfinv a, fun zero => zero ▸ gfinv_zero, gfmul_eq_one_iff, fun ha => ?_, completesWith_results rfl⟩
  rw [gfinv, if_neg ha, gfpowLoop_eq_iterate]

end Sys2Proof.Machine
end

section
/-! PROOF. The affine map bit by bit (40_gf256.md R122). -/

namespace Sys2Proof.Machine

/-- An exclusive or over a list is the parity of a count. -/
theorem foldl_xor_eq_odd_countP (f : Nat → Bool) (l : List Nat) (b : Bool) :
    l.foldl (fun acc j => acc ^^ f j) b = (b ^^ decide (l.countP f % 2 = 1)) := by
  induction l generalizing b with
  | nil => simp
  | cons j l ih =>
    rw [List.foldl_cons, ih, List.countP_cons]
    obtain even | odd := Nat.mod_two_eq_zero_or_one (l.countP f)
    · cases f j <;> simp [even, Nat.add_mod]
    · cases f j <;> simp [odd, Nat.add_mod]

/-- `parity` counts the set bits (R7). -/
theorem parity_eq_odd_countP (v : Byte) : parity v = decide ((List.range 8).countP v.getLsbD % 2 = 1) := by
  have fold := foldl_xor_eq_odd_countP v.getLsbD (List.range 8) false
  rw [Bool.false_xor] at fold
  rw [← fold, parity]
  simp [List.range_succ]

/-- Settles O37: the parity of a row AND y, as a count. -/
theorem affineMapsBitByBit : Obligations.AffineMapsBitByBit := by
  intro y s
  refine ⟨affine s.mrow s.const y, fun i => ?_, completesWith_results rfl⟩
  rw [affine_getLsbD _ _ _ _ i.isLt, parity_eq_odd_countP, entry_eq _ _ i.isLt]
  have bits : (s.mrow[i] &&& y).getLsbD = fun j => (s.mrow[i]).getLsbD j && y.getLsbD j := funext fun _ => BitVec.getLsbD_and
  rw [← bits]
  rfl

end Sys2Proof.Machine
end

section
/-! PROOF. The affine map is a bijection exactly at rank 8 (40_gf256.md R123): the elimination of 41_matrix_sbox.md R142 keeps the
bytes that every row sends to 0. At rank 8 it ends with the identity, which sends 0 alone to 0; below rank 8 it ends with a
last row of 0, whose map is not onto. -/

namespace Sys2Proof.Machine

/-! ### The kernel of a matrix -/

theorem dot_xor_left (a b y : Byte) : dot (a ^^^ b) y = (dot a y ^^ dot b y) := by
  rw [dot_comm, dot_xor_right, dot_comm, dot_comm y]

theorem dot_twoPow (i : Fin 8) (y : Byte) : dot (BitVec.twoPow 8 i.val) y = y.getLsbD i.val := by
  have one : ∀ i : Fin 8, parity (BitVec.twoPow 8 i.val) = true := by decide
  rw [dot, BitVec.twoPow_and]
  split
  next bit => rw [one, bit]
  next bit => exact (Bool.eq_false_of_not_eq_true bit).symm

/-- Every row sends y to 0. -/
def Kills (rows : Vector Byte 8) (y : Byte) : Prop := ∀ i : Fin 8, dot rows[i] y = false

/-- Output bit i of the affine map, by the row's `dot`. -/
theorem affine_bit (m : Vector Byte 8) (c y : Byte) (i : Fin 8) :
    (affine m c y).getLsbD i = (dot m[i] y ^^ c.getLsbD i) := by
  rw [affine_getLsbD _ _ _ _ i.isLt, entry_eq _ _ i.isLt]; rfl

theorem byte_ext_iff {a b : Byte} : a = b ↔ ∀ i : Fin 8, a.getLsbD i = b.getLsbD i :=
  ⟨fun h _ => h ▸ rfl, fun h => BitVec.eq_of_getLsbD_eq fun i hi => h ⟨i, hi⟩⟩

/-- Two bytes have one image exactly when the rows send their sum to 0. -/
theorem affine_eq_affine_iff (m : Vector Byte 8) (c y z : Byte) :
    affine m c y = affine m c z ↔ Kills m (y ^^^ z) := by
  simp only [byte_ext_iff, affine_bit, Kills, dot_xor_right, Bool.xor_left_inj]
  simp

/-- The affine map is linear where the constant is 0 (R123). -/
theorem affine_xor (m : Vector Byte 8) (y z : Byte) : affine m 0 (y ^^^ z) = affine m 0 y ^^^ affine m 0 z := by
  refine byte_ext_iff.mpr fun i => ?_
  simp only [BitVec.getLsbD_xor, affine_bit, dot_xor_right]
  simp

theorem affine_injective_iff (m : Vector Byte 8) (c : Byte) :
    Function.Injective (affine m c) ↔ ∀ y, Kills m y → y = 0 := by
  constructor
  · intro injective y kills
    exact injective ((affine_eq_affine_iff m c y 0).mpr (BitVec.xor_zero.symm ▸ kills))
  · intro trivial y z same
    exact BitVec.xor_eq_zero_iff.mp (trivial _ ((affine_eq_affine_iff m c y z).mp same))

/-! ### One column of the elimination (41_matrix_sbox.md R142) -/

theorem swapRows_getElem (rows : Vector Byte 8) (r p i : Fin 8) :
    (swapRows rows r p)[i] = rows[Equiv.swap r p i] := by
  simp only [swapRows, tabulate_getElem_fin, entry_eq _ _ p.isLt, entry_eq _ _ r.isLt, Equiv.swap_apply_def, Fin.val_inj]
  split_ifs <;> rfl

theorem clearColumn_getElem (rows : Vector Byte 8) (r i : Fin 8) (c : Nat) :
    (clearColumn rows r c)[i] = if i ≠ r ∧ rows[i].getLsbD c then rows[i] ^^^ rows[r] else rows[i] := by
  rw [clearColumn, tabulate_getElem_fin, entry_eq _ _ r.isLt]
  simp only [ne_eq, Fin.val_inj]; rfl

theorem kills_swapRows (rows : Vector Byte 8) (r p : Fin 8) (y : Byte) :
    Kills (swapRows rows r p) y ↔ Kills rows y := by
  simp only [Kills, swapRows_getElem]
  exact (Equiv.swap r p).forall_congr_right (q := fun i => dot rows[i] y = false)

/-- Adding row r to other rows keeps the kernel: row r itself stays. -/
theorem kills_clearColumn (rows : Vector Byte 8) (r : Fin 8) (c : Nat) (y : Byte) :
    Kills (clearColumn rows r c) y ↔ Kills rows y := by
  have row (i : Fin 8) (hr : dot rows[r] y = false) : dot (clearColumn rows r c)[i] y = dot rows[i] y := by
    rw [clearColumn_getElem]
    split
    · rw [dot_xor_left, hr, Bool.xor_false]
    · rfl
  constructor
  · intro kills
    have same : (clearColumn rows r c)[r] = rows[r] := by rw [clearColumn_getElem, if_neg fun h => h.1 rfl]
    have hr : dot rows[r] y = false := same ▸ kills r
    exact fun i => row i hr ▸ kills i
  · exact fun kills i => (row i (kills r)).trans (kills i)

/-- A row without a pivot: no row from r on has the column's bit. -/
theorem pivotRow_eq_none {rows : Vector Byte 8} {r c : Nat} (h : pivotRow rows r c = none) (i : Fin 8) (hi : r ≤ i) :
    rows[i].getLsbD c = false := by
  have refused := List.find?_eq_none.mp h i (List.mem_range.mpr i.isLt)
  rw [entry_eq _ _ i.isLt] at refused
  simpa [hi] using refused

theorem pivotRow_eq_some {rows : Vector Byte 8} {r c p : Nat} (h : pivotRow rows r c = some p) :
    ∃ q : Fin 8, q.val = p ∧ r ≤ p ∧ rows[q].getLsbD c = true := by
  have hp : p < 8 := List.mem_range.mp (List.mem_of_find?_eq_some h)
  have found := List.find?_some h
  rw [entry_eq _ _ hp, Bool.and_eq_true, decide_eq_true_eq] at found
  exact ⟨⟨p, hp⟩, rfl, found.1, found.2⟩

/-- One column: without a pivot it only records the failure, with one it brings the pivot to row r and clears the column. -/
theorem eliminateColumn_cases (e : Elimination) (c : Nat) :
    ((eliminateColumn e c).rows = e.rows ∧ (eliminateColumn e c).r = e.r ∧
      ∀ i : Fin 8, e.r ≤ i → e.rows[i].getLsbD c = false) ∨
    ∃ r p : Fin 8, r.val = e.r ∧ r ≤ p ∧ e.rows[p].getLsbD c = true ∧
      (eliminateColumn e c).rows = clearColumn (swapRows e.rows r p) r c ∧ (eliminateColumn e c).r = e.r + 1 := by
  cases h : pivotRow e.rows e.r c with
  | none =>
    refine .inl ⟨?_, ?_, pivotRow_eq_none h⟩ <;> rw [eliminateColumn, h]
  | some p =>
    obtain ⟨q, rfl, le, bit⟩ := pivotRow_eq_some h
    refine .inr ⟨⟨e.r, le.trans_lt q.isLt⟩, q, rfl, le, bit, ?_⟩
    rw [eliminateColumn, h]
    exact ⟨rfl, rfl⟩

/-- A swap of two rows from r on leaves the rows from r on among themselves. -/
theorem le_swap {r p i : Fin 8} (hp : r ≤ p) (hi : r ≤ i) : r ≤ Equiv.swap r p i := by
  rw [Equiv.swap_apply_def]
  split_ifs
  · exact hp
  · exact le_rfl
  · exact hi

theorem clearColumn_bit_of_zero {rows : Vector Byte 8} {r i : Fin 8} {c j : Nat} (zero : rows[r].getLsbD j = false) :
    (clearColumn rows r c)[i].getLsbD j = rows[i].getLsbD j := by
  rw [clearColumn_getElem]
  split
  · rw [BitVec.getLsbD_xor, zero, Bool.xor_false]
  · rfl

theorem clearColumn_bit_pivot {rows : Vector Byte 8} {r i : Fin 8} {c : Nat} (pivot : rows[r].getLsbD c = true) :
    (clearColumn rows r c)[i].getLsbD c = decide (i = r) := by
  rw [clearColumn_getElem]
  by_cases hi : i = r
  · rw [if_neg fun h => h.1 hi, hi, pivot, decide_eq_true rfl]
  · rw [decide_eq_false hi]
    split
    next h => rw [BitVec.getLsbD_xor, h.2, pivot, Bool.xor_self]
    next h => exact Bool.eq_false_of_not_eq_true fun bit => h ⟨hi, bit⟩

/-! ### The pivot step on the bits

In the columns before c the rows from r on are 0, so the step changes nothing there; column c becomes that of the identity. -/

section
variable {rows : Vector Byte 8} {r p : Fin 8} {c : Nat}

theorem swapRows_zero_below (zero : ∀ i : Fin 8, r ≤ i → ∀ j < c, rows[i].getLsbD j = false) (rp : r ≤ p) (i : Fin 8)
    (hi : r ≤ i) (j : Nat) (hj : j < c) : (swapRows rows r p)[i].getLsbD j = false := by
  rw [swapRows_getElem]
  exact zero _ (le_swap rp hi) j hj

theorem clearColumn_swapRows_below (zero : ∀ i : Fin 8, r ≤ i → ∀ j < c, rows[i].getLsbD j = false) (rp : r ≤ p)
    (i : Fin 8) (hi : r ≤ i) (j : Nat) (hj : j < c) : (clearColumn (swapRows rows r p) r c)[i].getLsbD j = false := by
  rw [clearColumn_bit_of_zero (swapRows_zero_below zero rp r le_rfl j hj), swapRows_zero_below zero rp i hi j hj]

theorem clearColumn_swapRows_above (zero : ∀ i : Fin 8, r ≤ i → ∀ j < c, rows[i].getLsbD j = false) (rp : r ≤ p)
    (i : Fin 8) (hi : i < r) (j : Nat) (hj : j < c) :
    (clearColumn (swapRows rows r p) r c)[i].getLsbD j = rows[i].getLsbD j := by
  have fixed : Equiv.swap r p i = i := Equiv.swap_apply_of_ne_of_ne hi.ne (hi.trans_le rp).ne
  rw [clearColumn_bit_of_zero (swapRows_zero_below zero rp r le_rfl j hj), swapRows_getElem]
  simp only [fixed]

theorem clearColumn_swapRows_pivot (pivot : rows[p].getLsbD c = true) (i : Fin 8) :
    (clearColumn (swapRows rows r p) r c)[i].getLsbD c = decide (i = r) := by
  refine clearColumn_bit_pivot ?_
  simp only [swapRows_getElem, Equiv.swap_apply_left, pivot]

end

/-! ### The whole elimination -/

/-- Where the elimination of m stands after c columns: the kernel of m is kept, the rows from r on are 0 in these columns,
and, as long as every column had its pivot, the rows above are those of the identity. -/
structure EliminatedTo (m : Vector Byte 8) (c : Nat) (e : Elimination) : Prop where
  rank_le : e.r ≤ c
  kernel : ∀ y, Kills e.rows y ↔ Kills m y
  below : ∀ i : Fin 8, e.r ≤ i → ∀ j < c, e.rows[i].getLsbD j = false
  identity : e.r = c → ∀ i : Fin 8, i < c → ∀ j < c, e.rows[i].getLsbD j = decide (i.val = j)

theorem EliminatedTo.of_no_pivot {m : Vector Byte 8} {c : Nat} {e e' : Elimination} (h : EliminatedTo m c e)
    (rows : e'.rows = e.rows) (rank : e'.r = e.r) (zero : ∀ i : Fin 8, e.r ≤ i → e.rows[i].getLsbD c = false) :
    EliminatedTo m (c + 1) e' := by
  obtain ⟨le, kernel, below, -⟩ := h
  rw [← rank] at le below zero
  rw [← rows] at kernel below zero
  refine ⟨by omega, kernel, fun i hi j hj => ?_, fun full => by omega⟩
  obtain hj | rfl := Nat.lt_succ_iff_lt_or_eq.mp hj
  · exact below i hi j hj
  · exact zero i hi

theorem EliminatedTo.of_pivot {m : Vector Byte 8} {c : Nat} {e e' : Elimination} (h : EliminatedTo m c e) {r p : Fin 8}
    (hr : r.val = e.r) (rp : r ≤ p) (pivot : e.rows[p].getLsbD c = true)
    (rows : e'.rows = clearColumn (swapRows e.rows r p) r c) (rank : e'.r = e.r + 1) : EliminatedTo m (c + 1) e' := by
  obtain ⟨le, kernel, below, identity⟩ := h
  rw [← hr] at le below identity rank
  refine ⟨by omega, fun y => ?_, fun i hi j hj => ?_, fun full i hi j hj => ?_⟩
  · rw [rows, kills_clearColumn, kills_swapRows, kernel]
  · obtain hj | rfl := Nat.lt_succ_iff_lt_or_eq.mp hj
    · rw [rows, clearColumn_swapRows_below below rp i (by omega) j hj]
    · rw [rows, clearColumn_swapRows_pivot pivot, decide_eq_false (by omega)]
  · obtain hj | rfl := Nat.lt_succ_iff_lt_or_eq.mp hj
    · obtain hi | hi := Nat.lt_succ_iff_lt_or_eq.mp hi
      · rw [rows, clearColumn_swapRows_above below rp i (by omega) j hj, identity (by omega) i hi j hj]
      · rw [rows, clearColumn_swapRows_below below rp i (by omega) j hj, decide_eq_false (by omega)]
    · rw [rows, clearColumn_swapRows_pivot pivot, decide_eq_decide]
      omega

theorem EliminatedTo.step {m : Vector Byte 8} {c : Nat} {e : Elimination} (h : EliminatedTo m c e) :
    EliminatedTo m (c + 1) (eliminateColumn e c) := by
  obtain ⟨rows, rank, zero⟩ | ⟨r, p, hr, rp, pivot, rows, rank⟩ := eliminateColumn_cases e c
  · exact h.of_no_pivot rows rank zero
  · exact h.of_pivot hr rp pivot rows rank

theorem eliminatedTo_rankCheck (m : Vector Byte 8) : EliminatedTo m 8 (rankCheck m) := by
  have columns (c : Nat) : EliminatedTo m c ((List.range c).foldl eliminateColumn { rows := m, r := 0, fail := none }) := by
    induction c with
    | zero => exact ⟨le_rfl, fun _ => .rfl, by simp, by simp⟩
    | succ c ih => rw [List.range_succ, List.foldl_append]; exact ih.step
  exact columns 8

/-- At rank 8 the rows end as the identity, which sends a byte to its bits. -/
theorem kernel_trivial_of_rank_eight {m : Vector Byte 8} (rank : rankOf m = 8) (y : Byte) (kills : Kills m y) : y = 0 := by
  obtain ⟨-, kernel, -, identity⟩ := eliminatedTo_rankCheck m
  refine byte_ext_iff.mpr fun i => ?_
  have row : (rankCheck m).rows[i] = BitVec.twoPow 8 i.val :=
    byte_ext_iff.mpr fun j => by rw [identity rank i i.isLt j j.isLt, BitVec.getLsbD_twoPow]; simp
  have bit := (kernel y).mpr kills i
  rw [row, dot_twoPow] at bit
  exact bit.trans BitVec.getLsbD_zero.symm

/-- Below rank 8 the last row ends as 0, so the map of the rows is not onto, and some byte other than 0 is sent to 0. -/
theorem rank_eight_of_kernel_trivial {m : Vector Byte 8} (trivial : ∀ y, Kills m y → y = 0) : rankOf m = 8 := by
  obtain ⟨le, kernel, below, -⟩ := eliminatedTo_rankCheck m
  by_contra rank
  have last : (rankCheck m).rows[(7 : Fin 8)] = 0 :=
    byte_ext_iff.mpr fun j => by
      rw [below 7 (Nat.le_of_lt_succ (Nat.lt_of_le_of_ne le rank)) j j.isLt]
      exact BitVec.getLsbD_zero.symm
  have onto : Function.Surjective (affine (rankCheck m).rows 0) :=
    Finite.injective_iff_surjective.mp
      ((affine_injective_iff _ 0).mpr fun y kills => trivial y ((kernel y).mp kills))
  obtain ⟨y, image⟩ := onto 0x80
  have bit := affine_bit (rankCheck m).rows 0 y 7
  rw [image, last] at bit
  simp [dot, parity] at bit

/-- The affine map is a bijection exactly at rank 8 (R123). -/
theorem affine_bijective_iff (m : Vector Byte 8) (c : Byte) : Function.Bijective (affine m c) ↔ rankOf m = 8 := by
  rw [← Finite.injective_iff_bijective, affine_injective_iff]
  exact ⟨rank_eight_of_kernel_trivial, kernel_trivial_of_rank_eight⟩

/-- Settles O36, law by law. -/
theorem fieldLaws : Obligations.FieldLaws :=
  ⟨gfmul_comm, gfmul_assoc, gfmul_xor_right, fun a => ⟨gfmul_one a, gfmul_zero a, (gfmul_two a).trans (xtime_eq a)⟩,
    gfinv_gfinv, gfmul_gfinv_eq, affine_xor, affine_bijective_iff⟩

end Sys2Proof.Machine
end

section
/-! PROOF. The rank checker (41_matrix_sbox.md R142, R143): how many bytes the matrix sends to 0, and which column is the first
to depend on the columns before it. Column by column, the bytes below 2^c that are sent to 0 double where column c has no
pivot, and stay the same where it has one. -/

namespace Sys2Proof.Machine

/-! ### Bytes by their top bit -/

theorem getLsbD_of_lt_two_pow {y : Byte} {c j : Nat} (hy : y.toNat < 2 ^ c) (hj : c ≤ j) : y.getLsbD j = false :=
  Nat.testBit_lt_two_pow (hy.trans_le (Nat.pow_le_pow_right (by decide) hj))

theorem lt_two_pow_of_getLsbD {y : Byte} {c : Nat} (zero : ∀ i : Fin 8, c ≤ i → y.getLsbD i = false) :
    y.toNat < 2 ^ c := by
  refine Nat.lt_pow_two_of_testBit _ fun j hj => ?_
  by_cases inside : j < 8
  · exact zero ⟨j, inside⟩ hj
  · exact BitVec.getLsbD_of_ge y j (Nat.le_of_not_lt inside)

theorem le_of_getLsbD {y : Byte} {c : Nat} (bit : y.getLsbD c = true) : 2 ^ c ≤ y.toNat := Nat.ge_two_pow_of_testBit bit

/-- Below 2^(c+1), bit c says on which side of 2^c a byte is. -/
theorem lt_two_pow_iff {y : Byte} {c : Nat} (hy : y.toNat < 2 ^ (c + 1)) : y.toNat < 2 ^ c ↔ y.getLsbD c = false := by
  refine ⟨fun below => getLsbD_of_lt_two_pow below le_rfl, fun bit => lt_of_not_ge fun above => ?_⟩
  have top : y.getLsbD c = true := Nat.testBit_of_two_pow_le_and_two_pow_add_one_gt above hy
  exact absurd (top.symm.trans bit) (by decide)

theorem xor_lt_two_pow {y z : Byte} {c : Nat} (hy : y.toNat < 2 ^ c) (hz : z.toNat < 2 ^ c) :
    (y ^^^ z).toNat < 2 ^ c := by
  rw [BitVec.toNat_xor]; exact Nat.xor_lt_two_pow hy hz

/-- Two bytes below 2^(c+1) that both have bit c differ by a byte below 2^c. -/
theorem xor_lt_two_pow_of_top {y z : Byte} {c : Nat} (hy : y.toNat < 2 ^ (c + 1)) (hz : z.toNat < 2 ^ (c + 1))
    (ty : y.getLsbD c = true) (tz : z.getLsbD c = true) : (y ^^^ z).toNat < 2 ^ c :=
  (lt_two_pow_iff (xor_lt_two_pow hy hz)).mpr (by rw [BitVec.getLsbD_xor, ty, tz]; rfl)

theorem lt_two_pow_succ {y : Byte} {c : Nat} (hy : y.toNat < 2 ^ c) : y.toNat < 2 ^ (c + 1) :=
  hy.trans (Nat.pow_lt_pow_right (by decide) c.lt_succ_self)

theorem twoPow_lt (c : Fin 8) : (BitVec.twoPow 8 c.val).toNat < 2 ^ (c.val + 1) :=
  lt_two_pow_of_getLsbD fun i hi => by rw [BitVec.getLsbD_twoPow]; simp; omega

theorem twoPow_top (c : Fin 8) : (BitVec.twoPow 8 c.val).getLsbD c = true := by
  rw [BitVec.getLsbD_twoPow]; simp

/-! ### The bytes sent to 0, by their top bit -/

theorem affine_zero (m : Vector Byte 8) : affine m 0 0 = 0 := by
  have sum := affine_xor m 0 0
  rwa [BitVec.xor_self, BitVec.xor_self] at sum

theorem affine_eq_zero_iff (m : Vector Byte 8) (y : Byte) : affine m 0 y = 0 ↔ Kills m y := by
  have same := affine_eq_affine_iff m 0 y 0
  rwa [affine_zero, show y ^^^ 0 = y from BitVec.xor_zero] at same

/-- Two bytes with one image differ by a byte that is sent to 0. -/
theorem affine_xor_eq_zero {m : Vector Byte 8} {y z : Byte} (same : affine m 0 y = affine m 0 z) :
    affine m 0 (y ^^^ z) = 0 :=
  (affine_eq_zero_iff m _).mpr ((affine_eq_affine_iff m 0 y z).mp same)

/-- The bytes below 2^c that m sends to 0: the dependencies among the first c columns. -/
def kernelBelow (m : Vector Byte 8) (c : Nat) : Finset Byte :=
  Finset.univ.filter fun y => y.toNat < 2 ^ c ∧ affine m 0 y = 0

theorem mem_kernelBelow {m : Vector Byte 8} {c : Nat} {y : Byte} :
    y ∈ kernelBelow m c ↔ y.toNat < 2 ^ c ∧ affine m 0 y = 0 := by simp [kernelBelow]

/-- Column c depends on the columns before it. -/
def ColumnDepends (m : Vector Byte 8) (c : Nat) : Prop :=
  ∃ y : Byte, affine m 0 y = 0 ∧ 2 ^ c ≤ y.toNat ∧ y.toNat < 2 ^ (c + 1)

/-- No column before c depends on the columns before it. -/
def ColumnsIndependent (m : Vector Byte 8) (c : Nat) : Prop := ∀ y : Byte, y ≠ 0 → affine m 0 y = 0 → 2 ^ c ≤ y.toNat

/-- With one dependency w of column c, the dependencies with top bit c are w added to those below. -/
theorem card_kernelBelow_of_depends {m : Vector Byte 8} {c : Nat} (h : ColumnDepends m c) :
    (kernelBelow m (c + 1)).card = 2 * (kernelBelow m c).card := by
  obtain ⟨w, zero, above, below⟩ := h
  have top : w.getLsbD c = true := Nat.testBit_of_two_pow_le_and_two_pow_add_one_gt above below
  have split : kernelBelow m (c + 1) = kernelBelow m c ∪ (kernelBelow m c).image (w ^^^ ·) := by
    ext y
    simp only [Finset.mem_union, Finset.mem_image, mem_kernelBelow]
    constructor
    · rintro ⟨hy, ky⟩
      cases bit : y.getLsbD c with
      | false => exact .inl ⟨(lt_two_pow_iff hy).mpr bit, ky⟩
      | true =>
        have back : w ^^^ (w ^^^ y) = y := by rw [← BitVec.xor_assoc, BitVec.xor_self, BitVec.zero_xor]
        exact .inr ⟨w ^^^ y, ⟨xor_lt_two_pow_of_top below hy top bit, affine_xor_eq_zero (zero.trans ky.symm)⟩, back⟩
    · rintro (⟨hy, ky⟩ | ⟨y, ⟨hy, ky⟩, rfl⟩)
      · exact ⟨lt_two_pow_succ hy, ky⟩
      · exact ⟨xor_lt_two_pow below (lt_two_pow_succ hy), affine_xor_eq_zero (zero.trans ky.symm)⟩
  have apart : Disjoint (kernelBelow m c) ((kernelBelow m c).image (w ^^^ ·)) := by
    refine Finset.disjoint_left.mpr fun y hy hw => ?_
    obtain ⟨z, hz, rfl⟩ := Finset.mem_image.mp hw
    have bit := getLsbD_of_lt_two_pow (mem_kernelBelow.mp hy).1 le_rfl
    rw [BitVec.getLsbD_xor, top, getLsbD_of_lt_two_pow (mem_kernelBelow.mp hz).1 le_rfl] at bit
    exact absurd bit (by decide)
  rw [split, Finset.card_union_of_disjoint apart,
    Finset.card_image_of_injective _ fun y z same => (BitVec.xor_right_inj w).mp same, two_mul]

theorem kernelBelow_of_not_depends {m : Vector Byte 8} {c : Nat} (h : ¬ ColumnDepends m c) :
    kernelBelow m (c + 1) = kernelBelow m c := by
  ext y
  rw [mem_kernelBelow, mem_kernelBelow]
  exact ⟨fun ⟨hy, ky⟩ => ⟨lt_of_not_ge fun above => h ⟨y, ky, above, hy⟩, ky⟩,
    fun ⟨hy, ky⟩ => ⟨lt_two_pow_succ hy, ky⟩⟩

/-- A kernel of one byte holds 0 alone. -/
theorem columnsIndependent_of_card {m : Vector Byte 8} {c : Nat} (card : (kernelBelow m c).card = 1) :
    ColumnsIndependent m c := by
  obtain ⟨z, single⟩ := Finset.card_eq_one.mp card
  have only {y : Byte} (hy : y.toNat < 2 ^ c) (ky : affine m 0 y = 0) : y = z :=
    Finset.mem_singleton.mp (single ▸ mem_kernelBelow.mpr ⟨hy, ky⟩)
  intro y nonzero ky
  exact le_of_not_gt fun hy => nonzero <| (only hy ky).trans (only (y := 0) (Nat.two_pow_pos c) (affine_zero m)).symm

/-! ### One column of the elimination on the map of the rows -/

/-- `dot` looks at a row only where the byte may have bits. -/
theorem dot_congr_below {a b y : Byte} {c : Nat} (hy : y.toNat < 2 ^ c) (h : ∀ j < c, a.getLsbD j = b.getLsbD j) :
    dot a y = dot b y := by
  have same : a &&& y = b &&& y := BitVec.eq_of_getLsbD_eq fun j _ => by
    rw [BitVec.getLsbD_and, BitVec.getLsbD_and]
    obtain below | above := lt_or_ge j c
    · rw [h j below]
    · rw [getLsbD_of_lt_two_pow hy above, Bool.and_false, Bool.and_false]
  rw [dot, same, dot]

/-- Bit i of the image of column c's byte is row i's bit c. -/
theorem affine_twoPow_bit (m : Vector Byte 8) (c i : Fin 8) :
    (affine m 0 (BitVec.twoPow 8 c.val)).getLsbD i = m[i].getLsbD c := by
  rw [affine_bit, dot_comm, dot_twoPow]
  exact (congrArg _ BitVec.getLsbD_zero).trans (Bool.xor_false _)

/-- Where the elimination of m stands after c columns, on the map of the rows: the first c columns reach every byte below 2^r,
and have 2^(c-r) dependencies. As long as every column had its pivot nothing is reported, else the first that had none,
under a row of the same number. -/
structure RankedTo (m : Vector Byte 8) (c : Nat) (e : Elimination) : Prop extends EliminatedTo m c e where
  card : (kernelBelow m c).card * 2 ^ e.r = 2 ^ c
  onto : ∀ z : Byte, z.toNat < 2 ^ e.r → ∃ y : Byte, y.toNat < 2 ^ c ∧ affine e.rows 0 y = z
  report : (e.fail = none ∧ e.r = c) ∨
    ∃ k, e.fail = some (k, k) ∧ e.r < c ∧ ColumnDepends m k ∧ ColumnsIndependent m k

theorem EliminatedTo.affine_eq_zero_iff {m : Vector Byte 8} {c : Nat} {e : Elimination} (h : EliminatedTo m c e) (y : Byte) :
    affine e.rows 0 y = 0 ↔ affine m 0 y = 0 := by
  rw [Machine.affine_eq_zero_iff, h.kernel, Machine.affine_eq_zero_iff]

theorem eliminateColumn_fail (e : Elimination) (c : Nat) :
    (eliminateColumn e c).fail = if (eliminateColumn e c).r = e.r then e.fail.or (some (e.r, c)) else e.fail := by
  cases h : pivotRow e.rows e.r c with
  | none => simp only [eliminateColumn, h, if_true]; cases e.fail <;> rfl
  | some p => simp [eliminateColumn, h]

section
variable {m : Vector Byte 8} {c r p : Fin 8} {e : Elimination}

/-- A column without a pivot depends on the columns before it: they reach its byte. -/
theorem RankedTo.columnDepends (h : RankedTo m c e) (zero : ∀ i : Fin 8, e.r ≤ i → e.rows[i].getLsbD c = false) :
    ColumnDepends m c := by
  have small : (affine e.rows 0 (BitVec.twoPow 8 c.val)).toNat < 2 ^ e.r :=
    lt_two_pow_of_getLsbD fun i hi => by rw [affine_twoPow_bit, zero i hi]
  obtain ⟨y, hy, image⟩ := h.onto _ small
  refine ⟨y ^^^ BitVec.twoPow 8 c.val, ?_, le_of_getLsbD ?_, xor_lt_two_pow (lt_two_pow_succ hy) (twoPow_lt c)⟩
  · exact (h.affine_eq_zero_iff _).mp (affine_xor_eq_zero image)
  · rw [BitVec.getLsbD_xor, twoPow_top, getLsbD_of_lt_two_pow hy le_rfl]; rfl

theorem RankedTo.of_no_pivot (h : RankedTo m c e) (rows : (eliminateColumn e c).rows = e.rows)
    (rank : (eliminateColumn e c).r = e.r) (zero : ∀ i : Fin 8, e.r ≤ i → e.rows[i].getLsbD c = false) :
    RankedTo m (c + 1) (eliminateColumn e c) := by
  have depends := h.columnDepends zero
  obtain ⟨eliminated, card, onto, report⟩ := h
  refine ⟨eliminated.step, ?_, ?_, .inr ?_⟩
  · rw [rank, card_kernelBelow_of_depends depends, Nat.mul_assoc, card, Nat.pow_succ']
  · rw [rank, rows]
    intro z hz
    obtain ⟨y, hy, image⟩ := onto z hz
    exact ⟨y, lt_two_pow_succ hy, image⟩
  · rw [eliminateColumn_fail, if_pos rank, rank]
    obtain ⟨fail, full⟩ | ⟨k, fail, less, first⟩ := report
    · rw [full] at card
      have single := Nat.eq_of_mul_eq_mul_right (Nat.two_pow_pos c.val) (card.trans (Nat.one_mul _).symm)
      exact ⟨c, by rw [fail, full]; rfl, by omega, depends, columnsIndependent_of_card single⟩
    · exact ⟨k, by rw [fail]; rfl, by omega, first⟩

/-- The first c columns reach only bytes below 2^r. -/
theorem EliminatedTo.affine_lt (he : EliminatedTo m c e) {y : Byte} (hy : y.toNat < 2 ^ c.val) :
    (affine e.rows 0 y).toNat < 2 ^ e.r := by
  refine lt_two_pow_of_getLsbD fun i hi => ?_
  rw [affine_bit, dot_congr_below (b := 0) hy fun j hj => (he.below i hi j hj).trans BitVec.getLsbD_zero.symm]
  simp [dot, parity]

/-- A pivot step leaves the map of the rows on the first c columns as it was. -/
theorem affine_pivot_below (he : EliminatedTo m c e) (hr : r.val = e.r) (rp : r ≤ p) {y : Byte} (hy : y.toNat < 2 ^ c.val) :
    affine (clearColumn (swapRows e.rows r p) r c) 0 y = affine e.rows 0 y := by
  have below := he.below
  rw [← hr] at below
  refine byte_ext_iff.mpr fun i => ?_
  rw [affine_bit, affine_bit, dot_congr_below hy fun j hj => ?_]
  obtain hi | hi := lt_or_ge i r
  · exact clearColumn_swapRows_above below rp i hi j hj
  · rw [clearColumn_swapRows_below below rp i hi j hj, below i hi j hj]

/-- A pivot step makes column c that of the identity. -/
theorem affine_pivot_twoPow (pivot : e.rows[p].getLsbD c = true) :
    affine (clearColumn (swapRows e.rows r p) r c) 0 (BitVec.twoPow 8 c.val) = BitVec.twoPow 8 r.val := by
  refine byte_ext_iff.mpr fun i => ?_
  rw [affine_twoPow_bit, clearColumn_swapRows_pivot pivot, BitVec.getLsbD_twoPow, decide_eq_true r.isLt, Bool.true_and,
    decide_eq_decide]
  exact ⟨fun same => same ▸ rfl, fun same => Fin.ext same.symm⟩

/-- A column with a pivot does not depend on the columns before it: they do not reach its byte, which is 2^r. -/
theorem not_columnDepends_of_pivot (he : EliminatedTo m c e) (hr : r.val = e.r) (rp : r ≤ p)
    (pivot : e.rows[p].getLsbD c = true) (rows : (eliminateColumn e c).rows = clearColumn (swapRows e.rows r p) r c) :
    ¬ ColumnDepends m c := by
  rintro ⟨y, zero, above, hy⟩
  have top : y.getLsbD c = true := Nat.testBit_of_two_pow_le_and_two_pow_add_one_gt above hy
  have small := xor_lt_two_pow_of_top hy (twoPow_lt c) top (twoPow_top c)
  have image : affine e.rows 0 (y ^^^ BitVec.twoPow 8 c.val) = BitVec.twoPow 8 r.val := by
    rw [← affine_pivot_below he hr rp small, affine_xor, affine_pivot_twoPow pivot, ← rows,
      (he.step.affine_eq_zero_iff y).mpr zero]
    exact BitVec.zero_xor
  have reached := he.affine_lt small
  rw [image, ← hr] at reached
  exact absurd (le_of_getLsbD (twoPow_top r)) (not_le_of_gt reached)

/-- With column c the first columns reach the bytes below 2^(r+1). -/
theorem RankedTo.onto_of_pivot (h : RankedTo m c e) (hr : r.val = e.r) (rp : r ≤ p)
    (pivot : e.rows[p].getLsbD c = true) {z : Byte} (hz : z.toNat < 2 ^ (r.val + 1)) :
    ∃ y : Byte, y.toNat < 2 ^ (c.val + 1) ∧ affine (clearColumn (swapRows e.rows r p) r c) 0 y = z := by
  have onto := h.onto
  rw [← hr] at onto
  cases bit : z.getLsbD r with
  | false =>
    obtain ⟨y, hy, image⟩ := onto z ((lt_two_pow_iff hz).mpr bit)
    exact ⟨y, lt_two_pow_succ hy, (affine_pivot_below h.toEliminatedTo hr rp hy).trans image⟩
  | true =>
    obtain ⟨y, hy, image⟩ := onto _ (xor_lt_two_pow_of_top hz (twoPow_lt r) bit (twoPow_top r))
    refine ⟨y ^^^ BitVec.twoPow 8 c.val, xor_lt_two_pow (lt_two_pow_succ hy) (twoPow_lt c), ?_⟩
    rw [affine_xor, affine_pivot_below h.toEliminatedTo hr rp hy, image, affine_pivot_twoPow pivot, BitVec.xor_assoc,
      BitVec.xor_self, BitVec.xor_zero]

theorem RankedTo.of_pivot (h : RankedTo m c e) (hr : r.val = e.r) (rp : r ≤ p)
    (pivot : e.rows[p].getLsbD c = true) (rows : (eliminateColumn e c).rows = clearColumn (swapRows e.rows r p) r c)
    (rank : (eliminateColumn e c).r = e.r + 1) : RankedTo m (c + 1) (eliminateColumn e c) := by
  refine ⟨h.toEliminatedTo.step, ?_, ?_, ?_⟩
  · rw [kernelBelow_of_not_depends (not_columnDepends_of_pivot h.toEliminatedTo hr rp pivot rows), rank, Nat.pow_succ,
      ← Nat.mul_assoc, h.card, Nat.pow_succ]
  · rw [rank, ← hr, rows]
    exact fun z hz => h.onto_of_pivot hr rp pivot hz
  · rw [eliminateColumn_fail, rank, if_neg e.r.succ_ne_self]
    obtain ⟨fail, full⟩ | ⟨k, fail, less, first⟩ := h.report
    · exact .inl ⟨fail, by rw [full]⟩
    · exact .inr ⟨k, fail, by omega, first⟩

theorem RankedTo.step (h : RankedTo m c e) : RankedTo m (c + 1) (eliminateColumn e c) := by
  obtain ⟨rows, rank, zero⟩ | ⟨r, p, hr, rp, pivot, rows, rank⟩ := eliminateColumn_cases e c
  · exact h.of_no_pivot rows rank zero
  · exact h.of_pivot hr rp pivot rows rank

end

theorem eq_zero_of_lt_two_pow_zero {y : Byte} (hy : y.toNat < 2 ^ 0) : y = 0 :=
  BitVec.eq_of_toNat_eq (Nat.lt_one_iff.mp hy)

theorem rankedTo_start (m : Vector Byte 8) : RankedTo m 0 { rows := m, r := 0, fail := none } := by
  refine ⟨⟨le_rfl, fun _ => .rfl, by simp, by simp⟩, ?_, fun z hz => ⟨0, hz.trans_eq' ?_, ?_⟩, .inl ⟨rfl, rfl⟩⟩
  · have only : kernelBelow m 0 = {0} := by
      ext y
      rw [mem_kernelBelow, Finset.mem_singleton]
      exact ⟨fun h => eq_zero_of_lt_two_pow_zero h.1, fun h => by rw [h]; exact ⟨Nat.one_pos, affine_zero m⟩⟩
    rw [only]; rfl
  · rw [eq_zero_of_lt_two_pow_zero hz]
  · rw [affine_zero, eq_zero_of_lt_two_pow_zero hz]

theorem rankedTo_rankCheck (m : Vector Byte 8) : RankedTo m 8 (rankCheck m) := by
  have columns (c : Nat) (hc : c ≤ 8) :
      RankedTo m c ((List.range c).foldl eliminateColumn { rows := m, r := 0, fail := none }) := by
    induction c with
    | zero => exact rankedTo_start m
    | succ c ih =>
      rw [List.range_succ, List.foldl_append]
      exact RankedTo.step (c := ⟨c, hc⟩) (ih (Nat.le_of_succ_le hc))
  exact columns 8 le_rfl

/-! ### The report of the rank checker (41_matrix_sbox.md R143) -/

/-- A count over all bytes is the size of a set. -/
theorem countP_allBytes (p : Byte → Bool) : allBytes.countP p = (Finset.univ.filter (p · = true)).card := by
  rw [List.countP_eq_length_filter, ← List.toFinset_card_of_nodup (nodup_allBytes.filter p)]
  congr 1
  ext y
  simp [mem_allBytes]

/-- A matrix of rank r sends 2^(8-r) bytes to 0. -/
theorem countP_affine_eq_zero (m : Vector Byte 8) :
    (allBytes.countP fun y => affine m 0 y == 0) = 2 ^ (8 - rankOf m) := by
  have kernel : (allBytes.countP fun y => affine m 0 y == 0) = (kernelBelow m 8).card := by
    rw [countP_allBytes]
    congr 1
    ext y
    simpa [mem_kernelBelow] using fun _ => y.isLt
  have h := rankedTo_rankCheck m
  have le : rankOf m ≤ 8 := h.rank_le
  refine Nat.eq_of_mul_eq_mul_right (Nat.two_pow_pos (rankOf m)) ?_
  rw [kernel, ← Nat.pow_add, Nat.sub_add_cancel le]
  exact h.card

theorem ColumnDepends.lt {m : Vector Byte 8} {c : Nat} (h : ColumnDepends m c) : c < 8 := by
  obtain ⟨y, -, above, -⟩ := h
  exact (Nat.pow_lt_pow_iff_right (by decide)).mp (above.trans_lt y.isLt)

/-- Settles O39: after all eight columns the elimination has counted the bytes sent to 0, and it has kept the first column
without a pivot. -/
theorem mrankFindsTheRank : Obligations.MrankFindsTheRank := by
  intro s
  have h := rankedTo_rankCheck s.mrow
  have run : exec .mrank s = succeed .mrank { s with
      result0 := BitVec.ofNat 32 (rankOf s.mrow), result1 := failWord (rankCheck s.mrow)
      matOk := decide (rankOf s.mrow = 8) } := by
    simp only [exec, execMrank, State.withResults, beq_eq_decide]
  refine ⟨rankOf s.mrow, failWord (rankCheck s.mrow), h.rank_le, countP_affine_eq_zero s.mrow, fun full => ?_, fun less => ?_,
    completesWith_of_succeed run rfl rfl⟩
  · obtain ⟨fail, -⟩ | ⟨k, -, less, -⟩ := h.report
    · rw [failWord, fail]
    · exact absurd full less.ne
  · obtain ⟨-, full⟩ | ⟨k, fail, -, depends, independent⟩ := h.report
    · exact absurd full less.ne
    · exact ⟨⟨k, depends.lt⟩, by rw [failWord, fail], depends, independent⟩

end Sys2Proof.Machine
end

section
/-! PROOF. Tables of 256 bytes (41_matrix_sbox.md R147 to R151): the forms of bijectivity, the column weights and the balance. -/

namespace Sys2Proof.Machine

/-! ### The values of a table -/

theorem toList_eq_map_look (t : Table) : t.toList = allBytes.map t.look := by
  refine List.ext_getElem (by simp) fun i hi _ => ?_
  have small : i % 256 = i := Nat.mod_eq_of_lt (by simpa using hi)
  simp [allBytes, Table.look, small]

theorem mem_toList_iff_look {t : Table} {v : Byte} : v ∈ t.toList ↔ ∃ x, t.look x = v := by
  simp [toList_eq_map_look, mem_allBytes]

theorem occurs_iff {t : Table} {v : Byte} : occurs t v = true ↔ v ∈ t.toList := List.contains_iff_mem

/-- R147 counts the distinct values by looking for each byte in turn. -/
theorem distinctCount_eq_card (t : Table) : distinctCount t = t.toList.toFinset.card := by
  rw [distinctCount, ← List.toFinset_card_of_nodup (nodup_allBytes.filter _)]
  congr 1
  ext v
  simp [mem_allBytes, occurs_iff]

/-! ### Forms of bijectivity (41_matrix_sbox.md R150) -/

theorem bijective_eq_decide (t : Table) : bijective t = decide (distinctCount t = 256) := beq_eq_decide _ _

theorem bijective_iff_card (t : Table) : bijective t = true ↔ t.toList.toFinset.card = 256 := by
  rw [bijective_eq_decide, decide_eq_true_iff, distinctCount_eq_card]

theorem bijective_iff_forall_mem (t : Table) : bijective t = true ↔ ∀ v : Byte, v ∈ t.toList := by
  refine ⟨fun h v => occurs_iff.mp (occurs_of_bijective t h v), fun all => ?_⟩
  have kept : allBytes.filter (occurs t) = allBytes := List.filter_eq_self.mpr fun v _ => occurs_iff.mpr (all v)
  rw [bijective_eq_decide, distinctCount, kept, length_allBytes, decide_eq_true rfl]

theorem bijective_iff_injective (t : Table) : bijective t = true ↔ Function.Injective t.look := by
  refine ⟨look_injective_of_bijective t, fun injective => (bijective_iff_forall_mem t).mpr fun v => ?_⟩
  exact mem_toList_iff_look.mpr (Finite.injective_iff_surjective.mp injective v)

theorem nodup_of_bijective {t : Table} (h : bijective t = true) : t.toList.Nodup := by
  rw [toList_eq_map_look]
  exact nodup_allBytes.map (look_injective_of_bijective t h)

theorem bijective_iff_count (t : Table) : bijective t = true ↔ ∀ v : Byte, t.toList.count v = 1 := by
  refine ⟨fun h v => ?_, fun once => (bijective_iff_forall_mem t).mpr fun v => ?_⟩
  · exact List.count_eq_one_of_mem (nodup_of_bijective h) ((bijective_iff_forall_mem t).mp h v)
  · exact List.count_pos_iff.mp (once v ▸ Nat.one_pos)

/-- A bijective table holds the bytes in some order. -/
theorem perm_of_bijective {t : Table} (h : bijective t = true) : t.toList.Perm allBytes :=
  (List.perm_ext_iff_of_nodup (nodup_of_bijective h) nodup_allBytes).mpr fun v =>
    iff_of_true ((bijective_iff_forall_mem t).mp h v) (mem_allBytes v)

/-! ### Column weights and balance (41_matrix_sbox.md R151) -/

theorem columnWeight_eq_countP (t : Table) (i : Nat) :
    columnWeight t i = allBytes.countP fun x => (t.look x).getLsbD i := by
  rw [columnWeight, toList_eq_map_look, List.countP_map]; rfl

/-- Half of all bytes have a bit set. -/
theorem countP_allBytes_getLsbD : ∀ i : Fin 8, (allBytes.countP fun v => v.getLsbD i) = 128 := by decide +kernel

theorem columnWeight_of_bijective {t : Table} (h : bijective t = true) (i : Fin 8) : columnWeight t i = 128 :=
  ((perm_of_bijective h).countP_eq _).trans (countP_allBytes_getLsbD i)

theorem balanced_iff (tol : Byte) (t : Table) :
    balanced tol t = true ↔ ∀ i : Fin 8, ((columnWeight t i : Int) - 128).natAbs ≤ tol.toNat := by
  simp only [balanced, List.all_eq_true, List.mem_range, columnBalanced, decide_eq_true_eq]
  exact ⟨fun h i => h i i.isLt, fun h i hi => h ⟨i, hi⟩⟩

theorem balanced_of_bijective {t : Table} (h : bijective t = true) (tol : Byte) : balanced tol t = true :=
  (balanced_iff tol t).mpr fun i => by rw [columnWeight_of_bijective h]; exact Nat.zero_le _

/-- A weight is between 0 and 256, so it is never more than 128 away from 128. -/
theorem balanced_of_tolerance {tol : Byte} (h : 128 ≤ tol.toNat) (t : Table) : balanced tol t = true :=
  (balanced_iff tol t).mpr fun i => by have := columnWeight_le t i; omega

/-- Settles O43, form by form. -/
theorem bijectiveTables : Obligations.BijectiveTables := fun t =>
  ⟨bijective_iff_card t, bijective_iff_count t, bijective_iff_forall_mem t, bijective_iff_injective t,
    columnWeight_of_bijective, fun tol h => h.elim (balanced_of_bijective · tol) (balanced_of_tolerance · t)⟩

/-! ### The smallest missing value and the inverse table (41_matrix_sbox.md R147, R152) -/

theorem firstMissing_of_bijective {t : Table} (h : bijective t = true) : firstMissing t = 0x100 := by
  have found : allBytes.find? (fun v => !occurs t v) = none :=
    List.find?_eq_none.mpr fun v _ => by simp [occurs_of_bijective t h v]
  rw [firstMissing, found]

/-- The scan in ascending order stops at the smallest value that does not occur. -/
theorem firstMissing_of_not_bijective {t : Table} (h : bijective t ≠ true) :
    ∃ v : Byte, firstMissing t = v.setWidth 32 ∧ v ∉ t.toList ∧ ∀ u : Byte, u.toNat < v.toNat → u ∈ t.toList := by
  cases found : allBytes.find? (fun v => !occurs t v) with
  | none =>
    refine absurd ((bijective_iff_forall_mem t).mpr fun v => occurs_iff.mp ?_) h
    simpa using List.find?_eq_none.mp found v (mem_allBytes v)
  | some v =>
    obtain ⟨absent, before, after, split, present⟩ := List.find?_eq_some_iff_append.mp found
    refine ⟨v, by rw [firstMissing, found], fun mem => by simp [occurs_iff.mpr mem] at absent, fun u below => ?_⟩
    have sorted := sorted_allBytes
    rw [split] at sorted
    have mem := mem_allBytes u
    rw [split, List.mem_append, List.mem_cons] at mem
    obtain early | rfl | late := mem
    · exact occurs_iff.mp (by simpa using present u early)
    · exact absurd below (lt_irrefl _)
    · have above := (List.pairwise_cons.mp (List.pairwise_append.mp sorted).2.1).1 u late
      exact absurd below above.asymm

theorem look_look_inverseTable {t : Table} (h : bijective t = true) (x : Byte) : t.look ((inverseTable t).look x) = x := by
  obtain ⟨y, rfl⟩ := mem_toList_iff_look.mp ((bijective_iff_forall_mem t).mp h x)
  rw [look_inverseTable t h]

end Sys2Proof.Machine
end

section
/-! PROOF. The commands MSEL, SBUILD and SVERIFY (41_matrix_sbox.md R140 to R149): each completes with the table check's results,
which the laws of tables name. -/

namespace Sys2Proof.Machine

/-! ### Completion with any code -/

/-- A command that ends with code k and the data of e, which has the sticky flag and ERRINFO of s, completes so (R50). -/
theorem completesWith_of_complete {i : Instr} {s e : State} {k : ErrCode} (run : exec i s = .next (e.complete k (encode i)))
    (sticky : e.esticky = s.esticky) (info : e.errInfo = s.errInfo) : CompletesWith i s k e :=
  ⟨e.complete k (encode i), run, completed_complete _ _ _ _ sticky info, complete_withStatusOf ..⟩

/-- The table check at the end of SBUILD and SVERIFY decides the code (R146, R148). -/
theorem completesWith_of_finishCheck {i : Instr} {s e : State} {t : Table} (run : exec i s = finishCheck t i e)
    (sticky : e.esticky = s.esticky) (info : e.errInfo = s.errInfo) :
    CompletesWith i s (if bijective t then .noError else .nonBijectiveSbox) (e.checkTable t) := by
  refine completesWith_of_complete ?_ sticky info
  rw [run, finishCheck]
  split <;> rfl

/-! ### MSEL (41_matrix_sbox.md R140, R141) -/

theorem completesWith_msel {v : Byte} (h : variantExists v = true) (s : State) :
    CompletesWith (.msel v) s .noError { s with mrow := variantMatrix v, const := variantConst v, matOk := false } :=
  completesWith_of_succeed (if_pos h) rfl rfl

/-- What a host reads of the AES variant after MSEL 0. -/
theorem readWord_after_msel_zero {s t : State} (run : exec (.msel 0) s = .next t) (draw : Word) :
    readWord 0x030 draw t = 0x8FC7E3F1 ∧ readWord 0x034 draw t = 0xF87C3E1F ∧ readWord 0x028 draw t = 0x63 := by
  obtain ⟨-, rfl⟩ | ⟨missing, -⟩ := (execMsel_next 0 s t).mp run
  · have idle (u : State) (d w : Word) : settled (u.complete .noError (encode (.msel 0))) d w = w :=
      settled_idle _ _ _ rfl
    have low : locate 0x030 = .mat 0 := locate_mat 0
    have high : locate 0x034 = .mat 1 := locate_mat 1
    simp only [readWord, low, high, locate_const, idle, complete_mrow, complete_const]
    decide
  · exact absurd missing (by decide)

/-- Settles O38, variant by variant. -/
theorem mselLoadsAVariant : Obligations.MselLoadsAVariant := fun s =>
  ⟨completesWith_msel (v := 0) (by decide) s, completesWith_msel (v := 1) (by decide) s,
    fun v above => completesWith_of_complete (if_neg (by simp [variantExists]; omega)) rfl rfl,
    fun _ draw run => readWord_after_msel_zero run draw⟩

/-! ### SBUILD (41_matrix_sbox.md R144 to R146) -/

theorem look_sboxOf (m : Vector Byte 8) (c x : Byte) : (sboxOf m c).look x = affine m c (gfinv x) := look_tabulate ..

/-- The inverse and, at rank 8, the affine map are bijections, and so is the table of both. -/
theorem bijective_sboxOf {m : Vector Byte 8} (rank : rankOf m = 8) (c : Byte) : bijective (sboxOf m c) = true := by
  rw [bijective_iff_injective, funext (look_sboxOf m c)]
  exact ((affine_bijective_iff m c).mpr rank).injective.comp (Function.Involutive.injective gfinv_gfinv)

/-- The check of a bijective table writes the same values whatever the tolerance (R147, R151). -/
theorem checkTable_of_bijective {t : Table} (h : bijective t = true) (s : State) : s.checkTable t =
    { s with
      result0 := 256, result1 := 0x100, balw := Vector.replicate 8 128, balOk := true, sboxBij := true
      isbox := written (inverseTable t), isboxValid := true } := by
  have count : distinctCount t = 256 := by simpa [bijective_eq_decide] using h
  have weights : columnWeights t = Vector.replicate 8 128 := vector_ext fun i => by
    rw [columnWeights, tabulate_getElem_fin, columnWeight_of_bijective h]; simp
  simp only [State.checkTable, h, count, weights, firstMissing_of_bijective h, balanced_of_bijective h, if_true]
  rfl

/-- Settles O40: the table built at rank 8 is bijective, so its check succeeds with fixed results. -/
theorem sbuildBuildsABijectiveTable : Obligations.SbuildBuildsABijectiveTable := by
  intro s ok rank
  have bij := bijective_sboxOf rank s.const
  have completes := completesWith_of_finishCheck (i := .sbuild) (s := s) (t := sboxOf s.mrow s.const) (if_pos ok) rfl rfl
  rw [checkTable_of_bijective bij, if_pos bij] at completes
  exact ⟨sboxOf s.mrow s.const, inverseTable (sboxOf s.mrow s.const), look_sboxOf _ _,
    fun x => ⟨look_inverseTable _ bij x, look_look_inverseTable bij x⟩, completes⟩

/-! ### SVERIFY (41_matrix_sbox.md R147 to R149) -/

/-- Settles O41: SVERIFY checks the table whose marks are all set. -/
theorem sverifyChecksTheTable : Obligations.SverifyChecksTheTable := by
  intro s t complete
  have run : exec .sverify s = finishCheck t .sverify { s with sboxValid := true } := by
    rw [exec, execSverify, complete, withTable_of_allWritten _ _ (allWritten_written t), entriesOf_written]
  have bij : bijective t = true ↔ distinctCount t = 256 := by rw [bijective_eq_decide, decide_eq_true_iff]
  have balance : balanced s.balTol t =
      decide (∀ i : Fin 8, ((((columnWeights t)[i]).toNat : Int) - 128).natAbs ≤ s.balTol.toNat) := by
    simp only [columnWeights_toNat, ← balanced_iff, Bool.decide_eq_true]
  have completes := completesWith_of_finishCheck run rfl rfl
  simp only [State.checkTable, balance, bijective_eq_decide, decide_eq_true_iff] at completes
  refine ⟨distinctCount t, firstMissing t, columnWeights t,
    if distinctCount t = 256 then written (inverseTable t) else s.isbox, distinctCount_eq_card t, ?_, fun i => ?_,
    fun all => ⟨inverseTable t, if_pos all, look_inverseTable t (bij.mpr all)⟩, fun few => if_neg few, completes⟩
  · by_cases all : distinctCount t = 256
    · exact .inl ⟨all, firstMissing_of_bijective (bij.mpr all)⟩
    · exact .inr ⟨all, firstMissing_of_not_bijective (mt bij.mp all)⟩
  · rw [columnWeights_toNat, columnWeight_eq_countP]

/-- Settles O42: one unwritten entry is enough for the fault. -/
theorem sverifyFaultsOnAnUnwrittenEntry : Obligations.SverifyFaultsOnAnUnwrittenEntry := by
  intro s i unwritten
  have incomplete : allWritten s.sbox = false := Bool.eq_false_of_not_eq_true fun all => by
    have mark := (allWritten_iff s.sbox).mp all i
    rw [unwritten] at mark
    exact absurd mark (by decide)
  have fault : exec .sverify s = .fault .unwrittenTableEntry := by
    rw [exec, execSverify, withTable_of_unwritten _ _ incomplete]
  exact ⟨fault, by rw [fault, faultSet], by rw [fault, goodEnd]⟩

end Sys2Proof.Machine
end

section
/-! PROOF. Sums over all bytes and the spectrum as a sum of signs (42_analysis.md R171). -/

namespace Sys2Proof.Machine

/-! ### Sums over all bytes -/

theorem toFinset_allBytes : allBytes.toFinset = Finset.univ := by
  ext x
  simp [mem_allBytes]

/-- A sum in ascending order is a sum over the type. -/
theorem sum_allBytes {M : Type} [AddCommMonoid M] (f : Byte → M) : (allBytes.map f).sum = ∑ x, f x := by
  rw [← toFinset_allBytes, List.sum_toFinset f nodup_allBytes]

theorem card_byte : Fintype.card Byte = 256 := by
  rw [← Finset.card_univ, ← toFinset_allBytes, List.toFinset_card_of_nodup nodup_allBytes, length_allBytes]

/-- p holds or fails at each of the 256 bytes. -/
theorem countP_not_allBytes (p : Byte → Bool) : (allBytes.countP fun x => !p x) = 256 - allBytes.countP p := by
  have total := List.length_eq_countP_add_countP p (l := allBytes)
  simp only [length_allBytes, Bool.not_eq_true, Bool.decide_eq_false] at total
  omega

/-! ### Signs -/

/-- `(-1)^b` (R171). -/
def sign (b : Bool) : Int := if b then -1 else 1

@[simp] theorem sign_false : sign false = 1 := rfl

@[simp] theorem sign_true : sign true = -1 := rfl

@[simp] theorem sign_not (b : Bool) : sign (!b) = -sign b := by cases b <;> rfl

theorem sign_xor (b c : Bool) : sign (b ^^ c) = sign b * sign c := by cases b <;> cases c <;> rfl

theorem sign_mul_self (b : Bool) : sign b * sign b = 1 := by cases b <;> rfl

/-- A sum of signs counts the minus signs. -/
theorem sum_sign {α : Type} (p : α → Bool) (l : List α) :
    (l.map fun x => sign (p x)).sum = l.length - 2 * (l.countP p : Int) := by
  induction l with
  | nil => rfl
  | cons x l ih =>
    rw [List.map_cons, List.sum_cons, ih, List.countP_cons, List.length_cons]
    cases p x <;> simp <;> omega

theorem walsh_eq_sum_sign (t : Table) (b a : Byte) :
    walsh t b a = (allBytes.map fun x => sign (component t b x ^^ dot a x)).sum := rfl

/-- A spectrum value is 256 less two for every disagreement. -/
theorem walsh_eq_disagreements (t : Table) (b a : Byte) :
    walsh t b a = 256 - 2 * ((allBytes.countP fun x => component t b x ^^ dot a x : Nat) : Int) := by
  rw [walsh_eq_sum_sign, sum_sign, length_allBytes]; rfl

/-- A spectrum value is two for every agreement, less 256 (R171). -/
theorem walsh_eq_agreements (t : Table) (b a : Byte) :
    walsh t b a = 2 * ((allBytes.countP fun x => dot a x == dot b (t.look x) : Nat) : Int) - 256 := by
  have agree (x : Byte) : (dot a x == dot b (t.look x)) = !(component t b x ^^ dot a x) := by
    rw [component]; cases dot a x <;> cases dot b (t.look x) <;> rfl
  have few := List.countP_le_length (p := fun x => component t b x ^^ dot a x) (l := allBytes)
  rw [length_allBytes] at few
  simp only [walsh_eq_disagreements, agree, countP_not_allBytes]
  omega

/-- Settles O44: the count of agreements is between 0 and 256. -/
theorem spectrumCountsAgreements : Obligations.SpectrumCountsAgreements := by
  intro t b a
  have range := walsh_natAbs_le t b a
  exact ⟨walsh_eq_agreements t b a, by rw [walsh_eq_agreements]; omega, by omega, by omega⟩

end Sys2Proof.Machine
end

section
/-! PROOF. The laws of the spectrum (42_analysis.md R174), Parseval's among them. All of them rest on one fact: the signs of
`dot a z` cancel over a, unless z is 0. -/

namespace Sys2Proof.Machine

/-! ### Orthogonality -/

theorem dot_zero_left (x : Byte) : dot 0 x = false := by
  have masked : (0 : Byte) &&& x = 0 := BitVec.zero_and
  rw [dot, masked]; rfl

theorem dot_zero_right (a : Byte) : dot a 0 = false := by rw [dot_comm, dot_zero_left]

/-- Where bit i of z is set, adding the byte with bit i alone to a turns the sign. -/
theorem sum_sign_dot_of_bit {z : Byte} {i : Fin 8} (bit : z.getLsbD i = true) : ∑ a : Byte, sign (dot a z) = 0 := by
  have turns (a : Byte) : dot (a ^^^ BitVec.twoPow 8 i) z = !dot a z := by
    rw [dot_xor_left, dot_twoPow, bit, Bool.xor_true]
  refine Finset.sum_involution (fun a _ => a ^^^ BitVec.twoPow 8 i) (fun a _ => ?_) (fun a _ _ same => ?_)
    (fun _ _ => Finset.mem_univ _) (fun a _ => ?_)
  · rw [turns, sign_not, add_neg_cancel]
  · have := turns a
    simp [same] at this
  · rw [BitVec.xor_assoc, BitVec.xor_self, BitVec.xor_zero]

theorem sum_sign_dot (z : Byte) : ∑ a : Byte, sign (dot a z) = if z = 0 then 256 else 0 := by
  split
  next zero =>
    simp only [zero, dot_zero_right]
    simp [card_byte]
  next nonzero =>
    obtain ⟨i, bit⟩ : ∃ i : Fin 8, z.getLsbD i = true := by
      by_contra none
      exact nonzero (byte_ext_iff.mpr fun i => by simpa using fun bit => none ⟨i, bit⟩)
    exact sum_sign_dot_of_bit bit

/-! ### Parseval -/

theorem walsh_eq_sum (t : Table) (b a : Byte) : walsh t b a = ∑ x, sign (component t b x) * sign (dot a x) := by
  simp only [walsh_eq_sum_sign, sum_allBytes, sign_xor]

/-- The squares of a spectrum sum to 65536: only the products of a value with itself survive the sum over a. -/
theorem sum_walsh_sq (t : Table) (b : Byte) : ∑ a, walsh t b a ^ 2 = 65536 := by
  have square (a : Byte) : walsh t b a ^ 2 =
      ∑ x, ∑ y, sign (component t b x) * sign (component t b y) * sign (dot a (x ^^^ y)) := by
    rw [pow_two, walsh_eq_sum, Finset.sum_mul_sum]
    refine Finset.sum_congr rfl fun x _ => Finset.sum_congr rfl fun y _ => ?_
    rw [dot_xor_right, sign_xor]; ring
  calc ∑ a, walsh t b a ^ 2
      = ∑ x, ∑ y, sign (component t b x) * sign (component t b y) * ∑ a, sign (dot a (x ^^^ y)) := by
        simp only [square, Finset.mul_sum]
        rw [Finset.sum_comm]
        exact Finset.sum_congr rfl fun x _ => Finset.sum_comm
    _ = ∑ x : Byte, sign (component t b x) * sign (component t b x) * 256 := by
        refine Finset.sum_congr rfl fun x _ => ?_
        simp [sum_sign_dot, BitVec.xor_eq_zero_iff]
    _ = 65536 := by simp [sign_mul_self, card_byte]

/-- Some value of every spectrum is at least 16 in magnitude: 256 squares below 256 do not reach 65536. -/
theorem exists_walsh_ge (t : Table) (b : Byte) : ∃ a : Byte, 16 ≤ (walsh t b a).natAbs := by
  by_contra small
  have below : ∑ a, walsh t b a ^ 2 ≤ ∑ _a : Byte, 15 ^ 2 := Finset.sum_le_sum fun a _ => by
    have : (walsh t b a).natAbs ≤ 15 := by by_contra big; exact small ⟨a, by omega⟩
    exact sq_le_sq' (by omega) (by omega)
  rw [sum_walsh_sq] at below
  simp [card_byte] at below

/-! ### The value at 0 and the mask 0 -/

theorem walsh_at_zero (t : Table) (b : Byte) :
    walsh t b 0 = 256 - 2 * ((allBytes.countP fun x => dot b (t.look x) : Nat) : Int) := by
  simp only [walsh_eq_disagreements, component, dot_zero_left, Bool.xor_false]

theorem walsh_mask_zero (t : Table) (a : Byte) : walsh t 0 a = if a = 0 then 256 else 0 := by
  rw [← sum_sign_dot, walsh_eq_sum]
  simp only [component, dot_zero_left, sign_false, one_mul, dot_comm a]

end Sys2Proof.Machine
end

section
/-! PROOF. The in-place butterfly (42_analysis.md R173). After the passes with strides below 2^c, entry j is the signed sum over
the block of 2^c entries around j; the pass with stride 2^c joins two neighbouring blocks. -/

namespace Sys2Proof.Machine

/-! ### The bits of an index -/

theorem getLsbD_ofNat_eq (n : Nat) (c : Fin 8) : (BitVec.ofNat 8 n).getLsbD c = decide (n / 2 ^ c.val % 2 = 1) := by
  rw [BitVec.getLsbD_ofNat, decide_eq_true c.isLt, Bool.true_and, Nat.testBit_eq_decide_div_mod_eq]

/-- Adding a bit that is not there is exclusive or. -/
theorem twoPow_add_eq_xor {x : Byte} {c : Nat} (clear : x.getLsbD c = false) :
    BitVec.twoPow 8 c + x = BitVec.twoPow 8 c ^^^ x := by
  have disjoint : BitVec.twoPow 8 c &&& x = 0#8 := by rw [BitVec.twoPow_and, clear]; rfl
  rw [BitVec.add_eq_or_of_and_eq_zero _ _ disjoint]
  ext i hi
  rw [BitVec.getElem_or, BitVec.getElem_xor, BitVec.getElem_twoPow]
  by_cases at_c : i = c
  · have zero : x[i] = false := by rw [← BitVec.getLsbD_eq_getElem, at_c, clear]
    rw [zero, Bool.or_false, Bool.xor_false]
  · rw [decide_eq_false at_c, Bool.false_or, Bool.false_xor]

/-- The index one stride further, where the bit of the stride is 0. -/
theorem ofNat_two_pow_add {n : Nat} {c : Fin 8} (clear : n / 2 ^ c.val % 2 = 0) :
    BitVec.ofNat 8 (2 ^ c.val + n) = BitVec.twoPow 8 c ^^^ BitVec.ofNat 8 n := by
  have stride : BitVec.ofNat 8 (2 ^ c.val) = BitVec.twoPow 8 c :=
    BitVec.eq_of_toNat_eq (by rw [BitVec.toNat_ofNat, BitVec.toNat_twoPow])
  rw [← twoPow_add_eq_xor (by rw [getLsbD_ofNat_eq, clear]; rfl), BitVec.ofNat_add, stride]

theorem dot_two_pow_add {n : Nat} {c : Fin 8} (clear : n / 2 ^ c.val % 2 = 0) (a : Byte) :
    dot a (BitVec.ofNat 8 (2 ^ c.val + n)) = (a.getLsbD c ^^ dot a (BitVec.ofNat 8 n)) := by
  rw [ofNat_two_pow_add clear, dot_xor_right, dot_comm a, dot_twoPow]

/-! ### Block sums -/

/-- The signed sum of v over the block of 2^c indices around j. -/
def blockSum (v : Byte → Int) (c j : Nat) : Int :=
  ∑ y ∈ Finset.range (2 ^ c), sign (dot (BitVec.ofNat 8 j) (BitVec.ofNat 8 y)) * v (BitVec.ofNat 8 (2 ^ c * (j / 2 ^ c) + y))

theorem blockSum_zero (v : Byte → Int) (j : Nat) : blockSum v 0 j = v (BitVec.ofNat 8 j) := by
  simp [blockSum, show dot (BitVec.ofNat 8 j) 0#8 = false from dot_zero_right _]

/-- The only block of 256 indices gives the whole signed sum. -/
theorem blockSum_eight (v : Byte → Int) {j : Nat} (hj : j < 256) :
    blockSum v 8 j = (allBytes.map fun x => sign (dot (BitVec.ofNat 8 j) x) * v x).sum := by
  have first : j / 2 ^ 8 = 0 := Nat.div_eq_of_lt hj
  simp only [blockSum, first, Nat.mul_zero, Nat.zero_add, allBytes, List.map_map]
  rw [← List.sum_toFinset _ List.nodup_range, List.toFinset_range]
  rfl

/-! ### Two neighbouring blocks

Below, bit c of j is 0, and i is j or the index one stride further. -/

section
variable {c : Fin 8} {i j : Nat} (clear : j / 2 ^ c.val % 2 = 0) (pair : i = j ∨ i = 2 ^ c.val + j)
include clear pair

/-- Both indices lie in the block of 2^(c+1) indices that starts where j's block of 2^c does. -/
theorem block_start : 2 ^ (c.val + 1) * (i / 2 ^ (c.val + 1)) = 2 ^ c.val * (j / 2 ^ c.val) := by
  have next : (2 ^ c.val + j) / 2 ^ c.val = j / 2 ^ c.val + 1 := by rw [Nat.add_div_left _ (Nat.two_pow_pos _)]
  have half : i / 2 ^ (c.val + 1) = j / 2 ^ c.val / 2 := by
    rw [pow_succ, ← Nat.div_div_eq_div_mul]
    obtain rfl | rfl := pair <;> omega
  rw [half, pow_succ, Nat.mul_assoc, Nat.mul_div_cancel' (Nat.dvd_of_mod_eq_zero clear)]

/-- Inside a block the two indices have the same signs. -/
theorem dot_pair {y : Nat} (hy : y / 2 ^ c.val = 0) :
    dot (BitVec.ofNat 8 i) (BitVec.ofNat 8 y) = dot (BitVec.ofNat 8 j) (BitVec.ofNat 8 y) := by
  obtain rfl | rfl := pair
  · rfl
  · rw [dot_comm, dot_two_pow_add clear, getLsbD_ofNat_eq, hy, dot_comm, decide_eq_false (by decide), Bool.false_xor]

/-- The block of 2^(c+1) indices is the two blocks of 2^c; the sign of the second is that of bit c. -/
theorem blockSum_succ (v : Byte → Int) : blockSum v (c + 1) i =
    blockSum v c j + sign ((BitVec.ofNat 8 i).getLsbD c) * blockSum v c (2 ^ c.val + j) := by
  have low {y : Nat} (hy : y ∈ Finset.range (2 ^ c.val)) : y / 2 ^ c.val = 0 := Nat.div_eq_of_lt (Finset.mem_range.mp hy)
  have double : 2 ^ (c.val + 1) = 2 ^ c.val + 2 ^ c.val := by omega
  unfold blockSum
  rw [block_start clear pair, double, Finset.sum_range_add, Finset.mul_sum]
  congr 1
  · exact Finset.sum_congr rfl fun y hy => by rw [dot_pair clear pair (low hy)]
  · refine Finset.sum_congr rfl fun y hy => ?_
    rw [dot_two_pow_add (by rw [low hy]), dot_pair clear pair (low hy), dot_pair clear (.inr rfl) (low hy), sign_xor,
      Nat.add_div_left _ (Nat.two_pow_pos _), Nat.mul_succ, Nat.add_assoc, mul_assoc]

end

/-! ### The passes -/

theorem getD_map_range {n j : Nat} (f : Nat → Int) (hj : j < n) : ((List.range n).map f).getD j 0 = f j := by
  rw [List.getD_eq_getElem _ _ (by simpa using hj)]; simp

/-- The index one stride further is inside, where the bit of the stride is 0. -/
theorem two_pow_add_lt {j : Nat} {c : Fin 8} (hj : j < 256) (clear : j / 2 ^ c.val % 2 = 0) : 2 ^ c.val + j < 256 := by
  obtain ⟨m, hm⟩ : 2 ^ (c.val + 1) ∣ 2 ^ 8 := Nat.pow_dvd_pow 2 c.isLt
  have blocks : 256 = 2 * m * 2 ^ c.val := by rw [show 256 = 2 ^ 8 from rfl, hm, pow_succ]; ring
  have pos := Nat.two_pow_pos c.val
  rw [blocks, ← Nat.div_lt_iff_lt_mul pos] at hj ⊢
  rw [Nat.add_div_left _ pos]
  omega

/-- The pass with stride 2^c joins the blocks of 2^c indices in pairs. -/
theorem butterflyPass_blockSum (v : Byte → Int) (c : Fin 8) :
    butterflyPass ((List.range 256).map (blockSum v c)) (2 ^ c.val) = (List.range 256).map (blockSum v (c + 1)) := by
  refine List.map_congr_left fun i hi => ?_
  rw [List.mem_range] at hi
  split
  next clear =>
    rw [blockSum_succ clear (.inl rfl), getLsbD_ofNat_eq, clear, Nat.add_comm i, getD_map_range _ hi,
      getD_map_range _ (two_pow_add_lt hi clear)]
    simp
  next odd =>
    obtain ⟨j, rfl⟩ := Nat.exists_eq_add_of_le (Nat.le_of_not_lt fun below => odd (by rw [Nat.div_eq_of_lt below]))
    rw [Nat.add_div_left _ (Nat.two_pow_pos _)] at odd
    have clear : j / 2 ^ c.val % 2 = 0 := by omega
    have bit : (BitVec.ofNat 8 (2 ^ c.val + j)).getLsbD c = true := by
      rw [getLsbD_ofNat_eq, Nat.add_div_left _ (Nat.two_pow_pos _)]; simp; omega
    rw [blockSum_succ clear (.inr rfl), bit, Nat.add_sub_cancel_left, getD_map_range _ hi,
      getD_map_range _ ((Nat.le_add_left ..).trans_lt hi)]
    simp [sub_eq_add_neg]

theorem foldl_butterflyPass (v : Byte → Int) {c : Nat} (hc : c ≤ 8) :
    ((List.range c).map (2 ^ ·)).foldl butterflyPass (allBytes.map v) = (List.range 256).map (blockSum v c) := by
  induction c with
  | zero => simp [allBytes, blockSum_zero]
  | succ c ih =>
    rw [List.range_succ, List.map_append, List.foldl_append, ih (Nat.le_of_succ_le hc)]
    exact butterflyPass_blockSum v ⟨c, hc⟩

/-- Settles O46: after all eight passes each entry is the sum over its block of 256 indices, which is the direct sum. -/
theorem butterflyGivesTheSpectrum : Obligations.ButterflyGivesTheSpectrum := by
  intro t b
  have passes : butterfly t b = (List.range 256).map (blockSum (fun x => sign (component t b x)) 8) :=
    foldl_butterflyPass _ le_rfl
  rw [passes, allBytes, List.map_map]
  refine List.map_congr_left fun j hj => ?_
  rw [blockSum_eight _ (List.mem_range.mp hj), Function.comp, walsh_eq_sum_sign]
  simp only [sign_xor, mul_comm]

end Sys2Proof.Machine
end

section
/-! PROOF. The commands WHT, NL and LAP (42_analysis.md R172 to R179): a scan in ascending order keeps the first of the best. -/

namespace Sys2Proof.Machine

/-! ### Scans of lists in ascending order -/

/-- In a list that rises by R, an item that does not stand before z is z or comes after it. -/
theorem eq_or_after_of_sorted {α : Type} {R : α → α → Prop} {l₁ l₂ : List α} {x z : α}
    (sorted : (l₁ ++ z :: l₂).Pairwise R) (mem : x ∈ l₁ ++ z :: l₂) (notBefore : x ∉ l₁) : z = x ∨ R z x := by
  obtain before | rfl | after := by simpa using mem
  · exact absurd before notBefore
  · exact .inl rfl
  · exact .inr ((List.pairwise_cons.mp (List.pairwise_append.mp sorted).2.1).1 x after)

section
variable {α : Type} {R : α → α → Prop} {l : List α} (nonempty : l ≠ []) (sorted : l.Pairwise R)
  (f : α → Nat) (d : Nat × α)
include nonempty sorted

/-- The scan for the greatest value finds the first item attaining it. -/
theorem firstMax_of_sorted : ∃ z ∈ l, (firstMax f l).getD d = (f z, z) ∧ (∀ x ∈ l, f x ≤ f z) ∧
    ∀ x ∈ l, f x = f z → z = x ∨ R z x := by
  obtain ⟨z, l₁, l₂, found, rfl, greatest, before⟩ := firstMax_spec f l nonempty
  exact ⟨z, by simp, by rw [found]; rfl, greatest,
    fun x mem same => eq_or_after_of_sorted sorted mem fun early => (before x early).ne same⟩

/-- The scan for the least value finds the first item attaining it. -/
theorem firstMin_of_sorted : ∃ z ∈ l, (firstMin f l).getD d = (f z, z) ∧ (∀ x ∈ l, f z ≤ f x) ∧
    ∀ x ∈ l, f x = f z → z = x ∨ R z x := by
  obtain ⟨z, l₁, l₂, found, rfl, least, before⟩ := firstMin_spec f l nonempty
  exact ⟨z, by simp, by rw [found]; rfl, least,
    fun x mem same => eq_or_after_of_sorted sorted mem fun early => (before x early).ne' same⟩

end

theorem allBytes_ne_nil : allBytes ≠ [] := List.ne_nil_of_mem (mem_allBytes 0)

theorem nonzeroBytes_ne_nil : nonzeroBytes ≠ [] := List.ne_nil_of_mem ((mem_nonzeroBytes 1).mpr (by decide))

/-- The scan over all bytes: the greatest value and the smallest byte attaining it. -/
theorem firstMax_allBytes (f : Byte → Nat) (d : Nat × Byte) : ∃ a, (firstMax f allBytes).getD d = (f a, a) ∧
    (∀ x, f x ≤ f a) ∧ ∀ x, f x = f a → a.toNat ≤ x.toNat := by
  obtain ⟨a, -, found, greatest, first⟩ := firstMax_of_sorted allBytes_ne_nil sorted_allBytes f d
  refine ⟨a, found, fun x => greatest x (mem_allBytes x), fun x same => ?_⟩
  obtain rfl | before := first x (mem_allBytes x) same
  · exact le_rfl
  · exact before.le

/-! ### Pairs of bytes, the outer one first -/

theorem mem_bytePairs {outer inner : List Byte} {p : Byte × Byte} :
    p ∈ bytePairs outer inner ↔ p.1 ∈ outer ∧ p.2 ∈ inner := by
  simp [bytePairs, Prod.ext_iff]

theorem sorted_bytePairs {outer inner : List Byte} (ho : outer.Pairwise fun a b => a.toNat < b.toNat)
    (hi : inner.Pairwise fun a b => a.toNat < b.toNat) :
    (bytePairs outer inner).Pairwise fun p q => p.1.toNat < q.1.toNat ∨ (p.1 = q.1 ∧ p.2.toNat < q.2.toNat) := by
  refine List.pairwise_flatMap.mpr ⟨fun o _ => List.pairwise_map.mpr (hi.imp fun lt => .inr ⟨rfl, lt⟩),
    ho.imp fun lt p hp q hq => ?_⟩
  obtain ⟨-, -, rfl⟩ := List.mem_map.mp hp
  obtain ⟨-, -, rfl⟩ := List.mem_map.mp hq
  exact .inl lt

/-- The scan over the pairs with an outer byte other than 0: the greatest value and the first pair attaining it. -/
theorem firstMax_bytePairs {inner : List Byte} (nonempty : inner ≠ []) (sorted : inner.Pairwise fun a b => a.toNat < b.toNat)
    (f : Byte × Byte → Nat) (e : Nat × (Byte × Byte)) : ∃ b a, b ≠ 0 ∧ a ∈ inner ∧
      (firstMax f (bytePairs nonzeroBytes inner)).getD e = (f (b, a), (b, a)) ∧
      (∀ c d, c ≠ 0 → d ∈ inner → f (c, d) ≤ f (b, a)) ∧
      ∀ c d, c ≠ 0 → d ∈ inner → f (c, d) = f (b, a) → b.toNat < c.toNat ∨ (b = c ∧ a.toNat ≤ d.toNat) := by
  have mem {c d : Byte} (hc : c ≠ 0) (hd : d ∈ inner) : (c, d) ∈ bytePairs nonzeroBytes inner :=
    mem_bytePairs.mpr ⟨(mem_nonzeroBytes c).mpr hc, hd⟩
  obtain ⟨i, hi⟩ := List.exists_mem_of_ne_nil inner nonempty
  obtain ⟨⟨b, a⟩, hba, found, greatest, first⟩ := firstMax_of_sorted (List.ne_nil_of_mem (mem (c := 1) (by decide) hi))
    (sorted_bytePairs sorted_nonzeroBytes sorted) f e
  obtain ⟨hb, ha⟩ := mem_bytePairs.mp hba
  refine ⟨b, a, (mem_nonzeroBytes b).mp hb, ha, found, fun c d hc hd => greatest _ (mem hc hd), fun c d hc hd same => ?_⟩
  obtain same | outer | ⟨same, inner⟩ := first _ (mem hc hd) same
  · cases same; exact .inr ⟨rfl, le_rfl⟩
  · exact .inl outer
  · exact .inr ⟨same, inner.le⟩

/-! ### The commands work on the table whose marks are all set -/

theorem withValidSbox_written {s : State} {t : Table} (valid : s.sboxValid = true) (complete : s.sbox = written t)
    (i : Instr) (run : Table → Result) : withValidSbox i s run = run t := by
  rw [withValidSbox_of_valid _ _ _ valid (by rw [complete, allWritten_written]), complete, entriesOf_written]

/-! ### WHT (42_analysis.md R172) -/

theorem spectrumPeak_spec (t : Table) (b : Byte) : ∃ a, spectrumPeak t b = ((walsh t b a).natAbs, a) ∧
    (∀ x, (walsh t b x).natAbs ≤ (walsh t b a).natAbs) ∧
    ∀ x, (walsh t b x).natAbs = (walsh t b a).natAbs → a.toNat ≤ x.toNat := firstMax_allBytes (walshAbs t b) (0, 0)

/-- Settles O45: the stored spectrum reads back the sums, and the scan finds its peak. -/
theorem whtStoresTheSpectrum : Obligations.WhtStoresTheSpectrum := by
  intro b s t valid complete
  obtain ⟨a, peak, greatest, first⟩ := spectrumPeak_spec t b
  refine ⟨spectrum t b, (walsh t b a).natAbs, a, spectrum_toInt t b, rfl, greatest, first,
    completesWith_of_succeed ?_ rfl rfl⟩
  rw [exec, execWht, withValidSbox_written valid complete, peak]; rfl

/-! ### NL (42_analysis.md R174 to R177) -/

/-- A spectrum value is even and at most 256 in magnitude, so R175's halving is exact. -/
theorem two_mul_componentNl (t : Table) (b : Byte) : ∃ m,
    (∃ a, (walsh t b a).natAbs = m) ∧ (∀ a, (walsh t b a).natAbs ≤ m) ∧ 2 * componentNl t b + m = 256 := by
  obtain ⟨a, peak, greatest, -⟩ := spectrumPeak_spec t b
  obtain ⟨-, even, -, -⟩ := spectrumCountsAgreements t b a
  have range := walsh_natAbs_le t b a
  refine ⟨_, ⟨a, rfl⟩, greatest, ?_⟩
  simp only [componentNl, peak]
  omega

theorem componentNl_le (t : Table) (b : Byte) : componentNl t b ≤ 120 := by
  obtain ⟨m, -, greatest, double⟩ := two_mul_componentNl t b
  obtain ⟨a, large⟩ := exists_walsh_ge t b
  have := greatest a
  omega

theorem nonlinearity_spec (t : Table) : ∃ b, b ≠ 0 ∧ nonlinearity t = (componentNl t b, b) ∧
    (∀ c, c ≠ 0 → componentNl t b ≤ componentNl t c) ∧
    ∀ c, c ≠ 0 → componentNl t c = componentNl t b → b.toNat ≤ c.toNat := by
  obtain ⟨b, hb, found, least, first⟩ :=
    firstMin_of_sorted nonzeroBytes_ne_nil sorted_nonzeroBytes (componentNl t) (0, 0)
  simp only [mem_nonzeroBytes] at hb least first
  refine ⟨b, hb, found, least, fun c hc same => ?_⟩
  obtain rfl | before := first c hc same
  · exact le_rfl
  · exact before.le

/-- Settles O47: Parseval and what follows from it. -/
theorem spectrumLaws : Obligations.SpectrumLaws := by
  intro t
  refine ⟨fun b => by rw [sum_allBytes, sum_walsh_sq], walsh_at_zero t, fun b => ?_, walsh_mask_zero t, exists_walsh_ge t, ?_⟩
  · rw [walsh_at_zero]; omega
  · obtain ⟨b, -, found, -, -⟩ := nonlinearity_spec t
    rw [found]
    exact componentNl_le t b

/-- Settles O48: the scan over the masks other than 0 finds the least component nonlinearity. -/
theorem nlGivesTheWorstComponent : Obligations.NlGivesTheWorstComponent := by
  intro s t valid complete
  obtain ⟨b, nonzero, found, least, first⟩ := nonlinearity_spec t
  refine ⟨componentNl t, b, two_mul_componentNl t, nonzero, least, first, completesWith_of_succeed ?_ rfl rfl⟩
  rw [exec, execNl, withValidSbox_written valid complete, found]; rfl

/-! ### LAP (42_analysis.md R178, R179) -/

/-- Half the magnitude is the distance of the count of agreements from 128 (R179). -/
theorem two_mul_half_walshAbs (t : Table) (b a : Byte) : 2 * (walshAbs t b a / 2) = (walsh t b a).natAbs ∧
    walshAbs t b a / 2 = (((allBytes.countP fun x => dot a x == dot b (t.look x) : Nat) : Int) - 128).natAbs := by
  rw [walshAbs, walsh_eq_agreements]
  omega

/-- Settles O49: the scan over the pairs of masks other than 0 finds the greatest distance. -/
theorem lapGivesTheBestApproximation : Obligations.LapGivesTheBestApproximation := by
  intro s t valid complete
  obtain ⟨b, a, hb, ha, found, greatest, first⟩ :=
    firstMax_bytePairs nonzeroBytes_ne_nil sorted_nonzeroBytes (fun p => walshAbs t p.1 p.2 / 2) (0, (0, 0))
  simp only [mem_nonzeroBytes] at ha greatest first
  refine ⟨fun c d => walshAbs t c d / 2, b, a, two_mul_half_walshAbs t, hb, ha, greatest, first,
    completesWith_of_succeed ?_ rfl rfl⟩
  rw [exec, execLap, withValidSbox_written valid complete, lapPeak, found]; rfl

end Sys2Proof.Machine
end

section
/-! PROOF. The difference table and the commands DDTROW and DU (42_analysis.md R180 to R186). -/

namespace Sys2Proof.Machine

/-! ### The laws of the table (42_analysis.md R181) -/

theorem ddt_eq_card (t : Table) (dx dy : Byte) :
    ddt t dx dy = (Finset.univ.filter fun x => t.look (x ^^^ dx) ^^^ t.look x = dy).card := by
  rw [ddt, countP_allBytes]; simp only [beq_iff_eq]

/-- Every byte counts in exactly one entry of a row. -/
theorem sum_ddt (t : Table) (dx : Byte) : (allBytes.map (ddt t dx)).sum = 256 := by
  rw [sum_allBytes, ← card_byte, ← Finset.card_univ]
  simp only [ddt_eq_card]
  exact (Finset.card_eq_sum_card_fiberwise fun _ _ => Finset.mem_coe.mpr (Finset.mem_univ _)).symm

theorem ddt_zero (t : Table) (dy : Byte) : ddt t 0 dy = if dy = 0 then 256 else 0 := by
  have same (x : Byte) : t.look (x ^^^ 0) ^^^ t.look x = 0 := by
    rw [show x ^^^ 0 = x from BitVec.xor_zero, BitVec.xor_self]; rfl
  simp only [ddt_eq_card, same]
  split
  next zero => simp [zero, card_byte]
  next nonzero => exact Finset.card_eq_zero.mpr (Finset.filter_eq_empty_iff.mpr fun _ _ => Ne.symm nonzero)

theorem xor_ne_self {dx : Byte} (nonzero : dx ≠ 0) (x : Byte) : x ^^^ dx ≠ x := fun same =>
  nonzero (by simpa using same)

/-- x and x ^^^ dx count together. -/
theorem two_dvd_ddt (t : Table) {dx : Byte} (nonzero : dx ≠ 0) (dy : Byte) : 2 ∣ ddt t dx dy := by
  have back (x : Byte) : x ^^^ dx ^^^ dx = x := by rw [BitVec.xor_assoc, BitVec.xor_self, BitVec.xor_zero]
  have pairs : ∑ _x ∈ Finset.univ.filter (fun x => t.look (x ^^^ dx) ^^^ t.look x = dy), (1 : ZMod 2) = 0 :=
    Finset.sum_involution (fun x _ => x ^^^ dx) (fun _ _ => by decide) (fun x _ _ => xor_ne_self nonzero x)
      (fun x hx => by simpa [back, BitVec.xor_comm (t.look x)] using hx) (fun x _ => back x)
  rw [ddt_eq_card, ← ZMod.natCast_eq_zero_iff]
  simpa using pairs

theorem ddt_at_zero_of_injective {t : Table} (injective : Function.Injective t.look) {dx : Byte} (nonzero : dx ≠ 0) :
    ddt t dx 0 = 0 := by
  rw [ddt, List.countP_eq_zero]
  intro x _ same
  exact xor_ne_self nonzero x (injective (BitVec.xor_eq_zero_iff.mp (by simpa using same)))

/-- Settles O52: beside the trivial entry at (0, 0), the row of 0 adds no bound. -/
theorem differenceTableLaws : Obligations.DifferenceTableLaws := by
  intro t
  refine ⟨sum_ddt t, ddt_zero t, fun dx dy nonzero => two_dvd_ddt t nonzero dy,
    fun injective dx nonzero => ddt_at_zero_of_injective injective nonzero, fun m => ⟨fun bound dx dy other => ?_, ?_⟩⟩
  · by_cases zero : dx = 0
    · have nonzero : dy ≠ 0 := fun h => other (by rw [zero, h])
      rw [zero, ddt_zero, if_neg nonzero]
      exact Nat.zero_le m
    · exact bound dx dy zero
  · exact fun bound dx dy nonzero => bound dx dy fun same => nonzero (congrArg Prod.fst same)

/-! ### DDTROW (42_analysis.md R180, R182) -/

/-- Settles O50: the stored row reads back the counts, and the scan finds its peak. -/
theorem ddtrowStoresTheRow : Obligations.DdtrowStoresTheRow := by
  intro dx s t valid complete
  obtain ⟨dy, peak, greatest, first⟩ := firstMax_allBytes (ddt t dx) (0, 0)
  have top : ((ddtRow t dx)[dy.toFin]).toNat = ddt t dx dy := ddtRow_toNat t dx dy.toFin
  refine ⟨ddtRow t dx, dy, ddtRow_toNat t dx, fun d => ?_, fun d same => ?_, completesWith_of_succeed ?_ rfl rfl⟩
  · rw [ddtRow_toNat, top]
    exact greatest _
  · exact first (BitVec.ofFin d) (by rw [← ddtRow_toNat, same, top])
  · rw [exec, execDdtrow, withValidSbox_written valid complete, rowPeak, peak]
    have result : BitVec.ofNat 32 (ddt t dx dy) = ((ddtRow t dx)[dy.toFin]).setWidth 32 := by
      rw [← top, BitVec.ofNat_toNat]
    rw [result]; rfl

/-! ### DU (42_analysis.md R184 to R186) -/

/-- Settles O51: the scan over the rows other than 0 finds the greatest entry. -/
theorem duGivesTheDifferentialUniformity : Obligations.DuGivesTheDifferentialUniformity := by
  intro s t valid complete
  obtain ⟨dx, dy, nonzero, -, found, greatest, first⟩ :=
    firstMax_bytePairs allBytes_ne_nil sorted_allBytes (fun p => ddt t p.1 p.2) (0, (0, 0))
  refine ⟨ddt t, dx, dy, fun _ _ => rfl, nonzero, fun c d hc => greatest c d hc (mem_allBytes d),
    fun c d hc => first c d hc (mem_allBytes d), completesWith_of_succeed ?_ rfl rfl⟩
  rw [exec, execDu, withValidSbox_written valid complete, duPeak, found]; rfl

end Sys2Proof.Machine
end

section
/-! PROOF. The round commands of AES-128 (43_aes.md R203 to R210, R215 to R221): what each does to the cells of the block, which
steps undo each other, and how each command completes. -/

namespace Sys2Proof.Machine

/-! ### Completion of a command that puts a new block in place -/

theorem completesWith_putBlock {i : Instr} {s : State} {b : Block} (run : exec i s = putBlock i b s) :
    CompletesWith i s .noError { s with blk := b } := completesWith_of_succeed run rfl rfl

/-- A command that puts the block of s back completes with s. -/
theorem completesWith_of_blk_restored {i : Instr} {s : State} {b : Block}
    (run : exec i { s with blk := b } = putBlock i s.blk { s with blk := b }) :
    CompletesWith i { s with blk := b } .noError s := completesWith_putBlock run

theorem withTable_written {n : Nat} (t : Vector Byte n) (run : Vector Byte n → Result) :
    withTable (written t) run = run t := by
  rw [withTable_of_allWritten _ _ (allWritten_written t), entriesOf_written]

/-! ### Cells of the block (43_aes.md R203) -/

/-- The byte at index r + 4c stands in row r and column c. -/
theorem getElem_eq_cell (s : Block) {i : Nat} (hi : i < 16) (r c : Nat) (row : r < 4) (index : i = r + 4 * c) :
    s[i] = cell s r c := by
  subst index
  simp only [cell, Nat.mod_eq_of_lt row, Nat.mod_eq_of_lt (show c < 4 by omega)]

/-- Columns count modulo 4. -/
theorem cell_congr (s : Block) (r : Nat) {c d : Nat} (h : c % 4 = d % 4) : cell s r c = cell s r d := by
  rw [← cell_mod, h, cell_mod]

theorem cell_blockOf_of_lt (f : Nat → Nat → Byte) {r c : Nat} (hr : r < 4) (hc : c < 4) : cell (blockOf f) r c = f r c := by
  rw [cell_blockOf, Nat.mod_eq_of_lt hr, Nat.mod_eq_of_lt hc]

/-! ### SubBytes (43_aes.md R204, R205) -/

/-- Each byte of the block is replaced through the table. -/
theorem subBytes_getElem (t : Table) (s : Block) (j : Fin 16) : (subBytes t s)[j] = t.look s[j] := tabulate_getElem_fin ..

theorem cell_subBytes (t : Table) (s : Block) (r c : Nat) : cell (subBytes t s) r c = t.look (cell s r c) :=
  tabulate_getElem ..

/-- A table that undoes another undoes its SubBytes. -/
theorem subBytes_subBytes {t it : Table} (inverse : ∀ x, it.look (t.look x) = x) (s : Block) :
    subBytes it (subBytes t s) = s := vector_ext fun j => by rw [subBytes_getElem, subBytes_getElem, inverse]

theorem exec_subb {s : State} {t : Table} (valid : s.sboxValid = true) (complete : s.sbox = written t) :
    exec .subb s = putBlock .subb (subBytes t s.blk) s := by
  rw [exec, execSubb, withValidSbox_written valid complete]

theorem exec_isubb {s : State} {t : Table} (valid : s.isboxValid = true) (complete : s.isbox = written t) :
    exec .isubb s = putBlock .isubb (subBytes t s.blk) s := by
  rw [exec, execIsubb, if_pos valid, complete, withTable_written]

/-- Settles O54: SUBB and ISUBB put the same function of the block and of their table in place. -/
theorem substituteBytes : Obligations.SubstituteBytes := fun s t =>
  ⟨subBytes t s.blk, subBytes_getElem t s.blk, fun valid complete => completesWith_putBlock (exec_subb valid complete),
    fun valid complete => completesWith_putBlock (exec_isubb valid complete)⟩

/-! ### ShiftRows (43_aes.md R206, R207) -/

theorem cell_shiftRows (s : Block) {r c : Nat} (hr : r < 4) : cell (shiftRows s) r c = cell s r (c + r) := by
  rw [shiftRows, cell_blockOf, Nat.mod_eq_of_lt hr]
  exact cell_congr s r (by omega)

/-- What stands in column c after the rotation to the right stood r columns before it. -/
theorem cell_invShiftRows (s : Block) {r c : Nat} (hr : r < 4) : cell (invShiftRows s) r (c + r) = cell s r c := by
  rw [invShiftRows, cell_blockOf, Nat.mod_eq_of_lt hr]
  exact cell_congr s r (by omega)

theorem invShiftRows_shiftRows (s : Block) : invShiftRows (shiftRows s) = s := by
  refine block_ext fun r c hr hc => ?_
  have column : (c + 4 - r + r) % 4 = c % 4 := by omega
  rw [← cell_congr _ r column, cell_invShiftRows _ hr, cell_shiftRows _ hr, cell_congr _ r column]

theorem shiftRows_invShiftRows (s : Block) : shiftRows (invShiftRows s) = s :=
  block_ext fun r c hr _ => by rw [cell_shiftRows _ hr, cell_invShiftRows _ hr]

theorem shiftRows_subBytes (t : Table) (s : Block) : shiftRows (subBytes t s) = subBytes t (shiftRows s) :=
  block_ext fun r c hr _ => by rw [cell_shiftRows _ hr, cell_subBytes, cell_subBytes, cell_shiftRows _ hr]

/-- Settles O55: in the cells, both rotations move a column index by the row, and each puts back what the other moved. -/
theorem shiftRowsMovesBytes : Obligations.ShiftRowsMovesBytes := by
  intro s
  refine ⟨shiftRows s.blk, invShiftRows s.blk, fun r c => ?_, fun r c => ?_, completesWith_putBlock rfl,
    completesWith_putBlock rfl, completesWith_of_blk_restored ?_, completesWith_of_blk_restored ?_⟩
  · rw [getElem_eq_cell _ _ r.val c.val r.isLt rfl, getElem_eq_cell _ _ r.val ((c.val + r.val) % 4) r.isLt rfl,
      cell_shiftRows _ r.isLt]
    exact cell_congr _ _ (by omega)
  · rw [getElem_eq_cell _ _ r.val c.val r.isLt rfl, getElem_eq_cell _ _ r.val ((c.val + r.val) % 4) r.isLt rfl,
      ← cell_invShiftRows s.blk r.isLt]
    exact cell_congr _ _ (by omega)
  · rw [exec, execIshr, invShiftRows_shiftRows]
  · rw [exec, execShr, shiftRows_invShiftRows]

/-! ### MixColumns (43_aes.md R208, R209) -/

/-- A row of a matrix times a column. -/
def rowTimes (m s : Quad) : Byte := gfmul m.b0 s.b0 ^^^ gfmul m.b1 s.b1 ^^^ gfmul m.b2 s.b2 ^^^ gfmul m.b3 s.b3

/-- Every entry of a row multiplied by c. -/
def Quad.scale (c : Byte) (m : Quad) : Quad := ⟨gfmul c m.b0, gfmul c m.b1, gfmul c m.b2, gfmul c m.b3⟩

theorem rowTimes_scale (c : Byte) (m s : Quad) : gfmul c (rowTimes m s) = rowTimes (m.scale c) s := by
  simp only [rowTimes, Quad.scale, gfmul_xor_right, gfmul_assoc]

theorem rowTimes_add (m n s : Quad) : rowTimes m s ^^^ rowTimes n s = rowTimes (m.add n) s := by
  simp only [rowTimes, Quad.add, gfmul_xor_left]
  ac_rfl

/-- Row r of the matrix of MixColumns (R208). -/
def mixMatrix (r : Nat) : Quad :=
  match r with
  | 0 => ⟨2, 3, 1, 1⟩
  | 1 => ⟨1, 2, 3, 1⟩
  | 2 => ⟨1, 1, 2, 3⟩
  | _ => ⟨3, 1, 1, 2⟩

/-- Row r of the matrix of InvMixColumns (R209). -/
def invMixMatrix (r : Nat) : Quad :=
  match r with
  | 0 => ⟨0x0E, 0x0B, 0x0D, 0x09⟩
  | 1 => ⟨0x09, 0x0E, 0x0B, 0x0D⟩
  | 2 => ⟨0x0D, 0x09, 0x0E, 0x0B⟩
  | _ => ⟨0x0B, 0x0D, 0x09, 0x0E⟩

/-- Row r of the identity matrix. -/
def unitRow (r : Nat) : Quad :=
  match r with
  | 0 => ⟨1, 0, 0, 0⟩
  | 1 => ⟨0, 1, 0, 0⟩
  | 2 => ⟨0, 0, 1, 0⟩
  | _ => ⟨0, 0, 0, 1⟩

/-- A row times the matrix of MixColumns. -/
def timesMix (m : Quad) : Quad :=
  ((((mixMatrix 0).scale m.b0).add ((mixMatrix 1).scale m.b1)).add ((mixMatrix 2).scale m.b2)).add ((mixMatrix 3).scale m.b3)

theorem one_gfmul (a : Byte) : gfmul 1#8 a = a := by rw [gfmul_comm]; exact gfmul_one a

theorem zero_gfmul (a : Byte) : gfmul 0#8 a = 0#8 := by rw [gfmul_comm]; exact gfmul_zero a

theorem mixRow_eq_rowTimes (r : Nat) (s0 s1 s2 s3 : Byte) :
    mixRow r s0 s1 s2 s3 = rowTimes (mixMatrix r) ⟨s0, s1, s2, s3⟩ := by
  unfold mixRow mixMatrix
  split <;> simp [rowTimes, one_gfmul]

theorem invMixRow_eq_rowTimes (r : Nat) (s0 s1 s2 s3 : Byte) :
    invMixRow r s0 s1 s2 s3 = rowTimes (invMixMatrix r) ⟨s0, s1, s2, s3⟩ := by
  unfold invMixRow invMixMatrix
  split <;> simp [rowTimes]

theorem rowTimes_unitRow (r : Nat) (s : Quad) : rowTimes (unitRow r) s = s.byte r := by
  unfold unitRow Quad.byte
  split <;> simp [rowTimes, one_gfmul, zero_gfmul]

/-- Multiplying by a row after MixColumns is multiplying by the row of the product matrix. -/
theorem rowTimes_timesMix (m s : Quad) : rowTimes (timesMix m) s =
    rowTimes m ⟨rowTimes (mixMatrix 0) s, rowTimes (mixMatrix 1) s, rowTimes (mixMatrix 2) s, rowTimes (mixMatrix 3) s⟩ := by
  simp only [timesMix, ← rowTimes_add, ← rowTimes_scale]
  rfl

/-- The two matrices are inverse. -/
theorem timesMix_invMixMatrix : ∀ r : Fin 4, timesMix (invMixMatrix r) = unitRow r := by decide

/-- Multiplying a column by one matrix and then by the other gives its bytes back (R209). -/
theorem invMixRow_mixRow (r : Fin 4) (s0 s1 s2 s3 : Byte) :
    invMixRow r (mixRow 0 s0 s1 s2 s3) (mixRow 1 s0 s1 s2 s3) (mixRow 2 s0 s1 s2 s3) (mixRow 3 s0 s1 s2 s3) =
      Quad.byte ⟨s0, s1, s2, s3⟩ r := by
  simp only [invMixRow_eq_rowTimes, mixRow_eq_rowTimes]
  rw [← rowTimes_timesMix, timesMix_invMixMatrix, rowTimes_unitRow]

/-- The word of index c holds column c (R200, R203). -/
theorem byte_keyWord (k : Block) (c : Nat) : ∀ r : Fin 4, (keyWord k c).byte r = cell k r c
  | 0 | 1 | 2 | 3 => rfl

theorem invMixColumns_mixColumns (s : Block) : invMixColumns (mixColumns s) = s := by
  refine block_ext fun r c hr hc => ?_
  have mixed (k : Nat) (hk : k < 4) :
      cell (mixColumns s) k c = mixRow k (cell s 0 c) (cell s 1 c) (cell s 2 c) (cell s 3 c) :=
    cell_blockOf_of_lt _ hk hc
  rw [invMixColumns, cell_blockOf_of_lt _ hr hc, mixed 0 (by decide), mixed 1 (by decide), mixed 2 (by decide),
    mixed 3 (by decide)]
  exact (invMixRow_mixRow ⟨r, hr⟩ ..).trans (byte_keyWord s c ⟨r, hr⟩)

/-- A block computed column by column, at its indices: MixColumns and InvMixColumns have this form. -/
theorem blockOf_column (f : Nat → Byte → Byte → Byte → Byte → Byte) (s : Block) (c r : Fin 4) :
    (blockOf fun r c => f r (cell s 0 c) (cell s 1 c) (cell s 2 c) (cell s 3 c))[4 * c.val + r.val] =
      f r s[4 * c.val] s[4 * c.val + 1] s[4 * c.val + 2] s[4 * c.val + 3] := by
  have column (k : Nat) (hk : k < 4) : cell s k c = s[4 * c.val + k] :=
    (getElem_eq_cell s _ k c hk (Nat.add_comm ..)).symm
  rw [getElem_eq_cell _ _ r c r.isLt (Nat.add_comm ..), cell_blockOf_of_lt _ r.isLt c.isLt, column 0 (by decide),
    column 1 (by decide), column 2 (by decide), column 3 (by decide)]
  rfl

/-- Settles O56: at the indices of a column the new bytes are its rows, and the two matrices are inverse. -/
theorem mixColumnsMultipliesColumns : Obligations.MixColumnsMultipliesColumns := by
  refine ⟨fun s => ⟨mixColumns s.blk, fun c => ?_, completesWith_putBlock rfl, completesWith_of_blk_restored ?_⟩,
    fun s => ⟨invMixColumns s.blk, fun c => ?_, completesWith_putBlock rfl⟩⟩
  · have row := blockOf_column mixRow s.blk c
    exact ⟨row 0, row 1, row 2, row 3⟩
  · rw [exec, execImixc, invMixColumns_mixColumns]
  · have row := blockOf_column invMixRow s.blk c
    exact ⟨row 0, row 1, row 2, row 3⟩

/-! ### AddRoundKey (43_aes.md R210) -/

theorem addRoundKey_getElem (s k : Block) (j : Fin 16) : (addRoundKey s k)[j] = s[j] ^^^ k[j] := tabulate_getElem_fin ..

theorem addRoundKey_addRoundKey (s k : Block) : addRoundKey (addRoundKey s k) k = s :=
  vector_ext fun j => by
    rw [addRoundKey_getElem, addRoundKey_getElem, BitVec.xor_assoc, BitVec.xor_self, BitVec.xor_zero]

theorem roundKey_getElem (rk : Vector Byte 176) {r : Nat} (hr : r ≤ 10) (j : Fin 16) :
    (roundKey rk r)[j] = rk[16 * r + j.val] := by
  rw [roundKey, tabulate_getElem_fin, entry_eq]

theorem roundExists_iff (r : Byte) : roundExists r = true ↔ r.toNat ≤ 10 := decide_eq_true_iff

theorem exec_ark {s : State} {r : Byte} {keys : Vector Byte 176} (inRange : r.toNat ≤ 10) (ready : s.keyReady = true)
    (stored : s.rk = written keys) : exec (.ark r) s = putBlock (.ark r) (addRoundKey s.blk (roundKey keys r.toNat)) s := by
  rw [exec, execArk, if_pos ((roundExists_iff r).mpr inRange), if_pos ready, stored, withTable_written]

/-- Settles O57, in the order of the checks of R244. -/
theorem addRoundKeyAddsBytewise : Obligations.AddRoundKeyAddsBytewise := by
  intro r s keys stored
  refine ⟨fun inRange ready => ⟨addRoundKey s.blk (roundKey keys r.toNat), fun j => ?_,
      completesWith_putBlock (exec_ark inRange ready stored), completesWith_of_blk_restored ?_⟩,
    fun above => completesWith_of_complete (if_neg ?_) rfl rfl, fun inRange notReady => completesWith_of_complete ?_ rfl rfl⟩
  · rw [addRoundKey_getElem, roundKey_getElem keys inRange]
  · have again := exec_ark (s := s.withBlk (addRoundKey s.blk (roundKey keys r.toNat))) inRange ready stored
    rw [withBlk_blk, addRoundKey_addRoundKey] at again
    exact again
  · rw [roundExists_iff]; omega
  · rw [exec, execArk, if_pos ((roundExists_iff r).mpr inRange), notReady]; rfl

end Sys2Proof.Machine
end

section
/-! PROOF. The key schedule of AES-128 and KEXP (43_aes.md R200 to R202, R212): the loop that stores the newest word first
keeps the recurrence of the words listed oldest first. -/

namespace Sys2Proof.Machine

/-! ### Bytes of words -/

theorem byte_add (p q : Quad) (k : Nat) : (p.add q).byte k = p.byte k ^^^ q.byte k := by
  unfold Quad.byte
  split <;> rfl

theorem byte_subRot (t : Table) (q : Quad) : ∀ k : Fin 4, (subRot t q).byte k = t.look (q.byte ((k + 1) % 4))
  | 0 | 1 | 2 | 3 => rfl

/-- A round constant is added to the first byte of a word alone (R201). -/
theorem byte_constant (c : Byte) : ∀ k : Fin 4, Quad.byte ⟨c, 0, 0, 0⟩ k = if k.val = 0 then c else 0
  | 0 | 1 | 2 | 3 => rfl

/-- Each round constant is the double of the one before (R201). -/
theorem rcon_succ : ∀ j < 10, 1 ≤ j → rcon (j + 1) = gfmul (rcon j) 0x02 := by decide

/-! ### The recurrence (43_aes.md R200) -/

/-- Word i of a list of words, oldest first. -/
def wordAt (ws : List Quad) (i : Nat) : Quad := ws.getD i default

/-- From word 4 on, every word of the list is the sum R200 gives of the words one and four places before it. -/
def FollowsRecurrence (t : Table) (ws : List Quad) : Prop :=
  ∀ i, 4 ≤ i → i < ws.length → wordAt ws i = (wordAt ws (i - 4)).add
    (if i % 4 = 0 then (subRot t (wordAt ws (i - 1))).add ⟨rcon (i / 4), 0, 0, 0⟩ else wordAt ws (i - 1))

theorem wordAt_append_left {ws : List Quad} {i : Nat} (hi : i < ws.length) (new : List Quad) :
    wordAt (ws ++ new) i = wordAt ws i := List.getD_append _ _ _ _ hi

theorem wordAt_reverse {ws : List Quad} {i : Nat} (hi : i < ws.length) :
    wordAt ws.reverse i = ws.getD (ws.length - 1 - i) default := congrFun (List.getD_reverse i hi) default

/-- The words listed newest first give the next one. -/
theorem nextKeyWord_eq (t : Table) {ws : List Quad} (long : 4 ≤ ws.length) :
    nextKeyWord t ws.length ws = (wordAt ws.reverse (ws.length - 4)).add
      (if ws.length % 4 = 0 then (subRot t (wordAt ws.reverse (ws.length - 1))).add ⟨rcon (ws.length / 4), 0, 0, 0⟩
        else wordAt ws.reverse (ws.length - 1)) := by
  rw [wordAt_reverse (by omega), wordAt_reverse (by omega), Nat.sub_self, show ws.length - 1 - (ws.length - 4) = 3 by omega,
    nextKeyWord]

/-- One more word keeps the recurrence. -/
theorem FollowsRecurrence.next {t : Table} {ws : List Quad} (h : FollowsRecurrence t ws.reverse) (long : 4 ≤ ws.length) :
    FollowsRecurrence t (nextKeyWord t ws.length ws :: ws).reverse := by
  intro i hi below
  rw [List.reverse_cons] at below ⊢
  have before (j : Nat) (hj : j < ws.length) :
      wordAt (ws.reverse ++ [nextKeyWord t ws.length ws]) j = wordAt ws.reverse j :=
    wordAt_append_left (by rwa [List.length_reverse]) _
  obtain old | rfl : i < ws.length ∨ i = ws.length := by simp at below; omega
  · rw [before i old, before (i - 4) (by omega), before (i - 1) (by omega)]
    exact h i hi (by rwa [List.length_reverse])
  · rw [before (ws.length - 4) (by omega), before (ws.length - 1) (by omega), ← nextKeyWord_eq t long]
    simp [wordAt]

/-- The loop, started on the words before its index, adds n words that follow the recurrence, and keeps those it found. -/
theorem keyWordsLoop_spec (t : Table) (n : Nat) {ws : List Quad} (long : 4 ≤ ws.length)
    (h : FollowsRecurrence t ws.reverse) :
    (keyWordsLoop t n ws.length ws).length = ws.length + n ∧ FollowsRecurrence t (keyWordsLoop t n ws.length ws).reverse ∧
      ws <:+ keyWordsLoop t n ws.length ws := by
  induction n generalizing ws with
  | zero => exact ⟨rfl, h, List.suffix_rfl⟩
  | succ n ih =>
    obtain ⟨length, follows, kept⟩ := ih (ws := nextKeyWord t ws.length ws :: ws) (by simp; omega) (h.next long)
    rw [List.length_cons] at length follows kept
    rw [keyWordsLoop]
    exact ⟨by omega, follows, (List.suffix_cons ..).trans kept⟩

/-- The key itself, as words newest first. -/
def initialWords (k : Block) : List Quad := [keyWord k 3, keyWord k 2, keyWord k 1, keyWord k 0]

theorem keyWords_spec (k : Block) (t : Table) :
    (keyWords k t).length = 44 ∧ FollowsRecurrence t (keyWords k t) ∧ (initialWords k).reverse <+: keyWords k t := by
  have start : FollowsRecurrence t (initialWords k).reverse := fun i hi below => by simp [initialWords] at below; omega
  obtain ⟨length, follows, kept⟩ := keyWordsLoop_spec t 40 (ws := initialWords k) le_rfl start
  exact ⟨by rw [keyWords, List.length_reverse]; exact length, follows, List.reverse_prefix.mpr kept⟩

/-- The first four words are the key (R200). -/
theorem wordAt_keyWords_initial (k : Block) (t : Table) (c : Fin 4) : wordAt (keyWords k t) c = keyWord k c := by
  obtain ⟨-, -, new, split⟩ := keyWords_spec k t
  rw [← split, wordAt_append_left c.isLt]
  match c with
  | 0 | 1 | 2 | 3 => rfl

/-- Byte k of a word of the key schedule, from word 4 on (R200, R202). -/
theorem byte_wordAt_keyWords (key : Block) (t : Table) {i k : Nat} (hi : 4 ≤ i) (below : i < 44) (hk : k < 4) :
    (wordAt (keyWords key t) i).byte k = (wordAt (keyWords key t) (i - 4)).byte k ^^^
      (if i % 4 = 0 then
        t.look ((wordAt (keyWords key t) (i - 1)).byte ((k + 1) % 4)) ^^^ (if k = 0 then rcon (i / 4) else 0)
        else (wordAt (keyWords key t) (i - 1)).byte k) := by
  obtain ⟨length, follows, -⟩ := keyWords_spec key t
  rw [follows i hi (by omega), byte_add]
  split
  · rw [byte_add]
    exact congrArg _ (congrArg₂ _ (byte_subRot t _ ⟨k, hk⟩) (byte_constant _ ⟨k, hk⟩))
  · rfl

/-- Settles O53: KEXP stores the words of the recurrence, byte by byte. -/
theorem kexpFollowsTheRecurrence : Obligations.KexpFollowsTheRecurrence := by
  intro s t valid complete
  refine ⟨fun i k => (wordAt (keyWords s.key t) i).byte k, rcon, kexp s.key t, rfl, fun j first last => rcon_succ j last first,
    fun j => ?_, fun i k hi below hk => byte_wordAt_keyWords s.key t hi below hk, fun n => tabulate_getElem_fin ..,
    completesWith_of_succeed ?_ rfl rfl⟩
  · have column : j.val / 4 < 4 := by omega
    have row : j.val % 4 < 4 := by omega
    exact (congrArg (Quad.byte · (j.val % 4)) (wordAt_keyWords_initial s.key t ⟨_, column⟩)).trans
      ((byte_keyWord s.key _ ⟨_, row⟩).trans (getElem_eq_cell s.key j.isLt _ _ row (by simp; omega)).symm)
  · rw [exec, execKexp, withValidSbox_written valid complete]

end Sys2Proof.Machine
end

section
/-! PROOF. The cipher and the inverse cipher of AES-128 (43_aes.md R211, R213, R214, R222): each leaves the block that its
sequence of round commands leaves, and the inverse cipher undoes the cipher. A sequence of commands is specified by what it
does to the block, and the specifications compose. -/

namespace Sys2Proof.Machine

/-! ### The commands ENC and DEC (43_aes.md R213, R214) -/

theorem exec_enc {s : State} {t : Table} {keys : Vector Byte 176} (valid : s.sboxValid = true) (ready : s.keyReady = true)
    (complete : s.sbox = written t) (stored : s.rk = written keys) :
    exec .enc s = putBlock .enc (cipher s.blk keys t) s := by
  rw [exec, execEnc, valid, ready, Bool.and_self, if_pos rfl, complete, withTable_written, stored, withTable_written]

theorem exec_dec {s : State} {it : Table} {keys : Vector Byte 176} (valid : s.isboxValid = true) (ready : s.keyReady = true)
    (complete : s.isbox = written it) (stored : s.rk = written keys) :
    exec .dec s = putBlock .dec (invCipher s.blk keys it) s := by
  rw [exec, execDec, valid, ready, Bool.and_self, if_pos rfl, complete, withTable_written, stored, withTable_written]

/-! ### Sequences of round commands (43_aes.md R222) -/

/-- The state u is s with the block b, the command-status fields aside. -/
def HoldsBlock (s : State) (b : Block) (u : State) : Prop := u = u.withStatusOf { s with blk := b }

/-- From every state that is s with the block b, the commands run to one that is s with the block b'. -/
def Transforms (s : State) (is : List Instr) (b b' : Block) : Prop :=
  ∀ u, HoldsBlock s b u → ∃ v, runCommands is u = .next v ∧ HoldsBlock s b' v

theorem runCommands_append {is : List Instr} {u v : State} (h : runCommands is u = .next v) (js : List Instr) :
    runCommands (is ++ js) u = runCommands js v := by
  induction is generalizing u with
  | nil => exact congrArg _ ((next_inj u v).mp h)
  | cons i is ih =>
    rw [List.cons_append, runCommands]
    rw [runCommands] at h
    split at h
    next => exact ih h
    · cases h
    · cases h

theorem Transforms.append {s : State} {is js : List Instr} {b b' b'' : Block} (first : Transforms s is b b')
    (second : Transforms s js b' b'') : Transforms s (is ++ js) b b'' := fun u hu =>
  have ⟨v, run, hv⟩ := first u hu
  have ⟨w, run', hw⟩ := second v hv
  ⟨w, (runCommands_append run js).trans run', hw⟩

/-- A command that answers the block b' wherever the block is b. -/
theorem Transforms.command {s : State} {i : Instr} {b b' : Block}
    (run : ∀ u, HoldsBlock s b u → exec i u = putBlock i b' u) : Transforms s [i] b b' := fun u hu => by
  have accepted : HoldsBlock s b (u.accept (encode i)) := congrArg (State.accept (encode i)) hu
  refine ⟨((u.accept (encode i)).withBlk b').complete .noError (encode i), ?_,
    congrArg (fun v => ((State.accept (encode i) v).withBlk b').complete .noError (encode i)) hu⟩
  rw [runCommands, run _ accepted, putBlock, succeed]
  rfl

/-- A loop of rounds composes the rounds (R211). -/
theorem Transforms.rounds {s : State} {commands : Byte → List Instr} {round : Block → Nat → Block} {rs : List Byte}
    (each : ∀ r ∈ rs, ∀ b, Transforms s (commands r) b (round b r.toNat)) (b : Block) :
    Transforms s (rs.flatMap commands) b ((rs.map BitVec.toNat).foldl round b) := by
  induction rs generalizing b with
  | nil => exact fun u hu => ⟨u, rfl, hu⟩
  | cons r rs ih =>
    exact (each r List.mem_cons_self b).append (ih (fun q hq => each q (List.mem_cons_of_mem _ hq)) _)

section
variable {s u : State} {b : Block} (h : HoldsBlock s b u)
include h

theorem HoldsBlock.blk : u.blk = b := congrArg State.blk h
theorem HoldsBlock.sboxValid : u.sboxValid = s.sboxValid := (congrArg State.sboxValid h).trans rfl
theorem HoldsBlock.isboxValid : u.isboxValid = s.isboxValid := (congrArg State.isboxValid h).trans rfl
theorem HoldsBlock.keyReady : u.keyReady = s.keyReady := (congrArg State.keyReady h).trans rfl
theorem HoldsBlock.sbox : u.sbox = s.sbox := (congrArg State.sbox h).trans rfl
theorem HoldsBlock.isbox : u.isbox = s.isbox := (congrArg State.isbox h).trans rfl
theorem HoldsBlock.rk : u.rk = s.rk := (congrArg State.rk h).trans rfl

end

theorem transforms_shr (s : State) (b : Block) : Transforms s [.shr] b (shiftRows b) :=
  .command fun _ h => by rw [exec, execShr, h.blk]

theorem transforms_ishr (s : State) (b : Block) : Transforms s [.ishr] b (invShiftRows b) :=
  .command fun _ h => by rw [exec, execIshr, h.blk]

theorem transforms_mixc (s : State) (b : Block) : Transforms s [.mixc] b (mixColumns b) :=
  .command fun _ h => by rw [exec, execMixc, h.blk]

theorem transforms_imixc (s : State) (b : Block) : Transforms s [.imixc] b (invMixColumns b) :=
  .command fun _ h => by rw [exec, execImixc, h.blk]

theorem transforms_subb {s : State} {t : Table} (valid : s.sboxValid = true) (complete : s.sbox = written t) (b : Block) :
    Transforms s [.subb] b (subBytes t b) :=
  .command fun _ h => by rw [exec_subb (h.sboxValid.trans valid) (h.sbox.trans complete), h.blk]

theorem transforms_isubb {s : State} {t : Table} (valid : s.isboxValid = true) (complete : s.isbox = written t) (b : Block) :
    Transforms s [.isubb] b (subBytes t b) :=
  .command fun _ h => by rw [exec_isubb (h.isboxValid.trans valid) (h.isbox.trans complete), h.blk]

theorem transforms_ark {s : State} {keys : Vector Byte 176} (ready : s.keyReady = true) (stored : s.rk = written keys)
    {r : Byte} (inRange : r.toNat ≤ 10) (b : Block) : Transforms s [.ark r] b (addRoundKey b (roundKey keys r.toNat)) :=
  .command fun _ h => by rw [exec_ark inRange (h.keyReady.trans ready) (h.rk.trans stored), h.blk]

/-- The round commands that do the work of ENC (R222). -/
def encCommands : List Instr :=
  [Instr.ark 0] ++
    ([1, 2, 3, 4, 5, 6, 7, 8, 9] : List Byte).flatMap (fun r => [Instr.subb, Instr.shr, Instr.mixc, Instr.ark r]) ++
    [Instr.subb, Instr.shr, Instr.ark 10]

/-- The round commands that do the work of DEC (R222). -/
def decCommands : List Instr :=
  [Instr.ark 10] ++
    ([9, 8, 7, 6, 5, 4, 3, 2, 1] : List Byte).flatMap (fun r => [Instr.ishr, Instr.isubb, Instr.ark r, Instr.imixc]) ++
    [Instr.ishr, Instr.isubb, Instr.ark 0]

theorem transforms_encCommands {s : State} {t : Table} {keys : Vector Byte 176} (valid : s.sboxValid = true)
    (ready : s.keyReady = true) (complete : s.sbox = written t) (stored : s.rk = written keys) (b : Block) :
    Transforms s encCommands b (cipher b keys t) := by
  have sub := transforms_subb valid complete
  have ark (r : Byte) (inRange : r.toNat ≤ 10) := transforms_ark ready stored inRange
  have inRange : ∀ r ∈ ([1, 2, 3, 4, 5, 6, 7, 8, 9] : List Byte), r.toNat ≤ 10 := by simp
  have start := ark 0 (by decide) b
  have rounds := Transforms.rounds (round := cipherRound keys t) fun r hr b =>
    (sub b).append ((transforms_shr s _).append ((transforms_mixc s _).append (ark r (inRange r hr) _)))
  have final (b : Block) := (sub b).append ((transforms_shr s _).append (ark 10 (by decide) _))
  exact (start.append (rounds _)).append (final _)

theorem transforms_decCommands {s : State} {it : Table} {keys : Vector Byte 176} (valid : s.isboxValid = true)
    (ready : s.keyReady = true) (complete : s.isbox = written it) (stored : s.rk = written keys) (b : Block) :
    Transforms s decCommands b (invCipher b keys it) := by
  have sub := transforms_isubb valid complete
  have ark (r : Byte) (inRange : r.toNat ≤ 10) := transforms_ark ready stored inRange
  have inRange : ∀ r ∈ ([9, 8, 7, 6, 5, 4, 3, 2, 1] : List Byte), r.toNat ≤ 10 := by simp
  have start := ark 10 (by decide) b
  have rounds := Transforms.rounds (round := invCipherRound keys it) fun r hr b =>
    (transforms_ishr s b).append ((sub _).append ((ark r (inRange r hr) _).append (transforms_imixc s _)))
  have final (b : Block) := (transforms_ishr s b).append ((sub _).append (ark 0 (by decide) _))
  exact (start.append (rounds _)).append (final _)

/-- Settles O58: run from s itself, the sequences leave the blocks of the two ciphers. -/
theorem ciphersAreTheirRoundCommands : Obligations.CiphersAreTheirRoundCommands := fun s t =>
  ⟨fun keys valid ready complete stored =>
    ⟨cipher s.blk keys t, completesWith_putBlock (exec_enc valid ready complete stored),
      transforms_encCommands valid ready complete stored s.blk s rfl⟩,
    fun keys valid ready complete stored =>
      ⟨invCipher s.blk keys t, completesWith_putBlock (exec_dec valid ready complete stored),
        transforms_decCommands valid ready complete stored s.blk s rfl⟩,
    fun valid complete =>
      have sub := transforms_subb valid complete
      have ⟨v, run, hv⟩ := (sub s.blk).append (transforms_shr s _) s rfl
      have ⟨w, run', hw⟩ := (transforms_shr s s.blk).append (sub _) s rfl
      ⟨v, w, run, run', by rw [hv.blk, hw.blk, shiftRows_subBytes]⟩⟩

/-! ### The inverse cipher undoes the cipher (43_aes.md R211) -/

section
variable {t it : Table} (inverse : ∀ x, it.look (t.look x) = x) (keys : Vector Byte 176)
include inverse

/-- The steps of the inverse cipher undo the substitution and the rotation of the cipher. -/
theorem subBytes_invShiftRows (s : Block) : subBytes it (invShiftRows (shiftRows (subBytes t s))) = s := by
  rw [invShiftRows_shiftRows, subBytes_subBytes inverse]

/-- A round of the inverse cipher undoes that round of the cipher: between two rounds both hold the block after ShiftRows. -/
theorem invCipherRound_cipherRound (s : Block) (r : Nat) :
    invCipherRound keys it (shiftRows (subBytes t (cipherRound keys t s r))) r = shiftRows (subBytes t s) := by
  rw [invCipherRound, subBytes_invShiftRows inverse, cipherRound, addRoundKey_addRoundKey, invMixColumns_mixColumns]

theorem invCipherRounds_cipherRounds (rs : List Nat) (s : Block) :
    rs.reverse.foldl (invCipherRound keys it) (shiftRows (subBytes t (rs.foldl (cipherRound keys t) s))) =
      shiftRows (subBytes t s) := by
  induction rs generalizing s with
  | nil => rfl
  | cons r rs ih =>
    simp only [List.reverse_cons, List.foldl_append, List.foldl_cons, List.foldl_nil, ih]
    exact invCipherRound_cipherRound inverse keys s r

theorem invCipher_cipher (p : Block) : invCipher (cipher p keys t) keys it = p := by
  rw [invCipher, cipher, addRoundKey_addRoundKey]
  have rounds := invCipherRounds_cipherRounds inverse keys [1, 2, 3, 4, 5, 6, 7, 8, 9] (addRoundKey p (roundKey keys 0))
  rw [show [1, 2, 3, 4, 5, 6, 7, 8, 9].reverse = [9, 8, 7, 6, 5, 4, 3, 2, 1] from rfl] at rounds
  rw [rounds, subBytes_invShiftRows inverse, addRoundKey_addRoundKey]

end

/-- Settles O59: in a state of the invariant the tables are written in full, and ISBOX holds the inverse of SBOX. -/
theorem decUndoesEnc : Obligations.DecUndoesEnc := by
  intro s h valid ready
  obtain ⟨sboxValid, -, isboxWritten⟩ := h.isbox_written valid
  obtain ⟨-, stored⟩ := h.key_fresh ready
  have sbox := (written_entriesOf s.sbox (h.sbox_written sboxValid)).symm
  have isbox := (written_entriesOf s.isbox isboxWritten).symm
  refine ⟨_, _, exec_enc sboxValid ready sbox stored, exec_dec valid ready isbox stored, ?_, rfl⟩
  rw [complete_blk, withBlk_blk, invCipher_cipher (h.isbox_inverse valid)]
  rfl

end Sys2Proof.Machine
end

section
/-! PROOF. How a command ends (60_exceptions.md R240 to R245): one lemma says, for all commands at once, what the checks of R244
make of the state, and the statements about error codes are read from it. -/

namespace Sys2Proof.Machine

/-! ### The codes of R242 -/

theorem expectedCode_of_ready {i : Instr} {s : State} (wf : WellFormed i = true) (ready : flagsReady i s = true)
    (noTableCheck : i ∉ [Instr.sbuild, .sverify]) : expectedCode i s = .noError := by
  simp_all [expectedCode]

theorem expectedCode_of_malformed {i : Instr} (malformed : WellFormed i = false) (s : State) :
    expectedCode i s = .badOperand := if_pos malformed

theorem expectedCode_of_not_ready {i : Instr} {s : State} (wf : WellFormed i = true) (notReady : flagsReady i s = false) :
    expectedCode i s = .notReady := by
  simp [expectedCode, wf, notReady]

theorem expectedCode_sbuild (s : State) :
    expectedCode .sbuild s = if s.matOk then .noError else .nonInvertibleMatrix := by
  cases h : s.matOk <;> simp [expectedCode, WellFormed, flagsReady, h]

/-- The code of the table check at the end of SBUILD and SVERIFY (R146, R148). -/
def tableCode (t : Table) : ErrCode := if bijective t then .noError else .nonBijectiveSbox

theorem expectedCode_sverify (s : State) : expectedCode .sverify s = tableCode (entriesOf s.sbox) := by
  cases h : bijective (entriesOf s.sbox) <;> simp [expectedCode, tableCode, WellFormed, flagsReady, h]

theorem finishCheck_eq (t : Table) (i : Instr) (s : State) :
    finishCheck t i s = .next ((s.checkTable t).complete (tableCode t) (encode i)) := by
  rw [finishCheck, tableCode]
  split <;> rfl

/-- A code that the checks before a command's work give (R244): neither success nor the outcome of a table check. -/
structure EarlyCode (k : ErrCode) : Prop where
  error : k ≠ .noError
  notTableCheck : k ≠ .nonBijectiveSbox

theorem not_earlyCode_noError : ¬EarlyCode .noError := fun early => early.error rfl

theorem not_earlyCode_tableCode (t : Table) : ¬EarlyCode (tableCode t) := fun ⟨error, notTableCheck⟩ => by
  unfold tableCode at error notTableCheck
  split at notTableCheck
  next bij => exact error (if_pos bij)
  next => exact notTableCheck rfl

/-! ### Every outcome of a command -/

/-- Everything a command can make of the state s. -/
inductive CommandOutcome (s : State) : Instr → Result → Prop where
  /-- A check before the command's work fails (R244, R245). -/
  | checkFailed {i : Instr} (early : EarlyCode (expectedCode i s)) :
    CommandOutcome s i (.next (s.complete (expectedCode i s) (encode i)))
  /-- The command does its work, which leaves the error state alone. -/
  | succeeded {i : Instr} {e : State} (code : expectedCode i s = .noError) (sticky : e.esticky = s.esticky)
    (info : e.errInfo = s.errInfo) : CommandOutcome s i (.next (e.complete .noError (encode i)))
  /-- SBUILD stores a table and checks it (R146). -/
  | built (ok : s.matOk = true) : CommandOutcome s .sbuild
    (.next ((State.checkTable (sboxOf s.mrow s.const)
      { s with sbox := written (sboxOf s.mrow s.const), sboxValid := true, keyReady := false }).complete
        (tableCode (sboxOf s.mrow s.const)) (encode .sbuild)))
  /-- SVERIFY checks the table it finds (R148). -/
  | verified (complete : allWritten s.sbox = true) : CommandOutcome s .sverify
    (.next ((State.checkTable (entriesOf s.sbox) { s with sboxValid := true }).complete (tableCode (entriesOf s.sbox))
      (encode .sverify)))
  /-- The command passes its checks and finds an unwritten entry, which in the invariant SVERIFY alone can (R149). -/
  | faulted {i : Instr} (passed : ¬EarlyCode (expectedCode i s))
    (unreached : Inv s → i = .sverify ∧ allWritten s.sbox = false) : CommandOutcome s i (.fault .unwrittenTableEntry)

namespace CommandOutcome

theorem raised {i : Instr} {s : State} {k : ErrCode} (code : expectedCode i s = k) (early : EarlyCode k) :
    CommandOutcome s i (raiseError k i s) := by
  subst code
  exact .checkFailed early

/-- The operand check of MSEL and ARK (R241). -/
theorem whenWellFormed {i : Instr} {s : State} {r : Result} (pass : WellFormed i = true → CommandOutcome s i r) :
    CommandOutcome s i (if WellFormed i then r else raiseError .badOperand i s) := by
  split
  next wf => exact pass wf
  next malformed =>
    exact .raised (expectedCode_of_malformed (Bool.eq_false_of_not_eq_true malformed) s) ⟨nofun, nofun⟩

/-- The readiness check of the commands that read a table (R242). -/
theorem whenReady {i : Instr} {s : State} {r : Result} (wf : WellFormed i = true)
    (noTableCheck : i ∉ [Instr.sbuild, .sverify])
    (pass : flagsReady i s = true → expectedCode i s = .noError → CommandOutcome s i r) :
    CommandOutcome s i (if flagsReady i s then r else raiseError .notReady i s) := by
  split
  next ready => exact pass ready (expectedCode_of_ready wf ready noTableCheck)
  next notReady =>
    exact .raised (expectedCode_of_not_ready wf (Bool.eq_false_of_not_eq_true notReady)) ⟨nofun, nofun⟩

/-- Work on a table that the invariant says is written in full. -/
theorem onTable {i : Instr} {s : State} {n : Nat} {tbl : Vector (Option Byte) n} {run : Vector Byte n → Result}
    (code : expectedCode i s = .noError) (complete : Inv s → allWritten tbl = true)
    (work : CommandOutcome s i (run (entriesOf tbl))) : CommandOutcome s i (withTable tbl run) := by
  cases h : allWritten tbl with
  | false =>
    rw [withTable_of_unwritten _ _ h]
    exact .faulted (code ▸ not_earlyCode_noError) fun inv => absurd (complete inv) (by simp [h])
  | true =>
    rw [withTable_of_allWritten _ _ h]
    exact work

/-- A command that needs SBOX_VALID alone, works on the S-box and succeeds. -/
theorem onValidSbox {i : Instr} {s : State} {e : Table → State} (wf : WellFormed i = true)
    (noTableCheck : i ∉ [Instr.sbuild, .sverify]) (flags : flagsReady i s = s.sboxValid)
    (sticky : ∀ t, (e t).esticky = s.esticky)
    (info : ∀ t, (e t).errInfo = s.errInfo) : CommandOutcome s i (withValidSbox i s fun t => succeed i (e t)) := by
  rw [withValidSbox, ← flags]
  exact whenReady wf noTableCheck fun ready code =>
    onTable code (·.sbox_written (flags ▸ ready)) (.succeeded code (sticky _) (info _))

end CommandOutcome

theorem Inv.rk_written {s : State} (h : Inv s) (ready : s.keyReady = true) : allWritten s.rk = true := by
  obtain ⟨-, stored⟩ := h.key_fresh ready
  rw [stored, allWritten_written]

theorem Inv.isbox_complete {s : State} (h : Inv s) (valid : s.isboxValid = true) : allWritten s.isbox = true :=
  have ⟨_, _, complete⟩ := h.isbox_written valid
  complete

/-- Every command has one of these outcomes. -/
theorem exec_outcome (i : Instr) (s : State) : CommandOutcome s i (exec i s) := by
  cases i with
  | nop | gfmul | gfinv | affine | mrank | shr | ishr | mixc | imixc =>
    exact .succeeded (expectedCode_of_ready rfl rfl (by simp)) rfl rfl
  | msel v => exact .whenWellFormed fun wf => .succeeded (expectedCode_of_ready wf rfl (by simp)) rfl rfl
  | sbuild =>
    rw [exec, execSbuild, finishCheck_eq]
    split
    next ok => exact .built ok
    next singular => exact .raised ((expectedCode_sbuild s).trans (if_neg singular)) ⟨nofun, nofun⟩
  | sverify =>
    rw [exec, execSverify]
    cases complete : allWritten s.sbox with
    | true =>
      rw [withTable_of_allWritten _ _ complete, finishCheck_eq]
      exact .verified complete
    | false =>
      rw [withTable_of_unwritten _ _ complete]
      exact .faulted (expectedCode_sverify s ▸ not_earlyCode_tableCode _) fun _ => ⟨rfl, complete⟩
  | wht | nl | lap | ddtrow | du | kexp | subb =>
    exact .onValidSbox rfl (by simp) rfl (by simp) (by simp)
  | enc =>
    refine .whenReady rfl (by simp) fun ready code => ?_
    obtain ⟨valid, keyReady⟩ := Bool.and_eq_true_iff.mp ready
    exact .onTable code (·.sbox_written valid) (.onTable code (·.rk_written keyReady) (.succeeded code rfl rfl))
  | dec =>
    refine .whenReady rfl (by simp) fun ready code => ?_
    obtain ⟨valid, keyReady⟩ := Bool.and_eq_true_iff.mp ready
    exact .onTable code (·.isbox_complete valid) (.onTable code (·.rk_written keyReady) (.succeeded code rfl rfl))
  | isubb =>
    exact .whenReady rfl (by simp) fun valid code =>
      .onTable code (·.isbox_complete valid) (.succeeded code rfl rfl)
  | ark r =>
    exact .whenWellFormed fun wf => .whenReady wf (by simp) fun keyReady code =>
      .onTable code (·.rk_written keyReady) (.succeeded code rfl rfl)

/-! ### What every outcome has in common -/

/-- The command-status fields after a command, whatever its code (R50, R280). -/
theorem exec_completed {i : Instr} {s t : State} (hn : exec i s = .next t) : Completed t.errCode (encode i) s t := by
  have out := hn ▸ exec_outcome i s
  cases out with
  | succeeded _ sticky info => exact completed_complete _ _ _ _ sticky info
  | checkFailed | built | verified => exact completed_complete _ _ _ _ rfl rfl

theorem exec_of_earlyCode {i : Instr} {s : State} (early : EarlyCode (expectedCode i s)) :
    exec i s = .next (s.complete (expectedCode i s) (encode i)) := by
  have out := exec_outcome i s
  generalize exec i s = r at out ⊢
  cases out with
  | checkFailed => rfl
  | succeeded code => exact absurd code early.error
  | built ok =>
    rw [expectedCode_sbuild, if_pos ok] at early
    exact absurd early not_earlyCode_noError
  | verified => exact absurd (expectedCode_sverify s ▸ early) (not_earlyCode_tableCode _)
  | faulted passed => exact absurd early passed

theorem completesWith_of_earlyCode {i : Instr} {s : State} {k : ErrCode} (code : expectedCode i s = k) (early : EarlyCode k) :
    CompletesWith i s k s := by
  subst code
  exact completesWith_of_complete (exec_of_earlyCode early) rfl rfl

/-- Settles O9, in the order of the checks. -/
theorem failedChecksEndWithTheirCode : Obligations.FailedChecksEndWithTheirCode := fun i s =>
  ⟨fun malformed => completesWith_of_earlyCode (expectedCode_of_malformed malformed s) ⟨nofun, nofun⟩,
    fun wf notReady => completesWith_of_earlyCode (expectedCode_of_not_ready wf notReady) ⟨nofun, nofun⟩,
    fun singular => completesWith_of_earlyCode ((expectedCode_sbuild s).trans (by rw [singular]; rfl)) ⟨nofun, nofun⟩⟩

/-- Settles O8, outcome by outcome: in the invariant the table SBUILD builds is bijective, and no table is incomplete but the
one SVERIFY may find. -/
theorem everyCommandCompletesWithItsCode : Obligations.EveryCommandCompletesWithItsCode := by
  intro i s inv complete
  have out := exec_outcome i s
  generalize exec i s = r at out ⊢
  cases out with
  | checkFailed => exact ⟨_, rfl, completed_complete _ _ _ _ rfl rfl⟩
  | succeeded code sticky info => exact ⟨_, rfl, code ▸ completed_complete _ _ _ _ sticky info⟩
  | built ok =>
    have bij := bijective_sboxOf (inv.matOk_rank ok) s.const
    have code : expectedCode .sbuild s = tableCode (sboxOf s.mrow s.const) := by
      rw [expectedCode_sbuild, if_pos ok, tableCode, if_pos bij]
    exact ⟨_, rfl, code ▸ completed_complete _ _ _ _ rfl rfl⟩
  | verified => exact ⟨_, rfl, expectedCode_sverify s ▸ completed_complete _ _ _ _ rfl rfl⟩
  | faulted _ unreached =>
    obtain ⟨rfl, incomplete⟩ := unreached inv
    exact absurd (complete rfl) (by simp [incomplete])

end Sys2Proof.Machine
end

section
/-! PROOF. What errors change, how long they stay, and the interrupt line (60_exceptions.md R245, R247, R250). -/

namespace Sys2Proof.Machine

/-- The engine performs the command of the word, or completes a word that is no command (R280). -/
theorem runWord_next {w : Word} {s t : State} (hn : runWord w s = .next t) :
    (∃ i, encode i = w ∧ exec i s = .next t) ∨ ∃ k, t = s.complete k w := by
  rw [runWord] at hn
  cases hd : decode w with
  | ok i => exact .inl ⟨i, (decode_eq_ok_iff w i).mp hd, by rwa [hd] at hn⟩
  | error e => exact .inr ⟨decodeErrorCode e, by rw [hd] at hn; exact ((next_inj _ t).mp hn).symm⟩

/-- The command-status fields after a word, command or not (R50, R280). -/
theorem runWord_completed {w : Word} {s t : State} (hn : runWord w s = .next t) : Completed t.errCode w s t := by
  obtain ⟨i, rfl, he⟩ | ⟨k, rfl⟩ := runWord_next hn
  · exact exec_completed he
  · exact completed_complete _ _ _ _ rfl rfl

theorem withStatusOf_of_earlyCode {i : Instr} {s t : State} (hn : exec i s = .next t) (early : EarlyCode t.errCode) :
    t = t.withStatusOf s := by
  have out := hn ▸ exec_outcome i s
  cases out with
  | checkFailed => exact complete_withStatusOf ..
  | succeeded => exact absurd early not_earlyCode_noError
  | built | verified => exact absurd early (not_earlyCode_tableCode _)

/-- Settles O10, outcome by outcome. -/
theorem errorsChangeOnlyWhatTheRuleSays : Obligations.ErrorsChangeOnlyWhatTheRuleSays := by
  refine ⟨fun w s t hn error notTableCheck => ?_, fun i s t hn code => ?_⟩
  · obtain ⟨i, -, he⟩ | ⟨k, rfl⟩ := runWord_next hn
    · exact withStatusOf_of_earlyCode he ⟨error, notTableCheck⟩
    · exact complete_withStatusOf ..
  · have out := hn ▸ exec_outcome i s
    cases out with
    | checkFailed early => exact absurd code early.notTableCheck
    | succeeded => cases code
    | built ok => exact .inr ⟨rfl, ok, complete_withStatusOf ..⟩
    | verified complete => exact .inl ⟨rfl, complete, complete_withStatusOf ..⟩

/-- Settles O31: acceptance and CTRL act as R70 and R25 say, and a word completes with its code. -/
theorem errorsStayUntilCleared : Obligations.ErrorsStayUntilCleared := by
  refine ⟨fun s v idle => ?_, fun s => ?_, fun w s t hn => ?_⟩
  · obtain ⟨accepts, -⟩ := acceptanceOfACommand
    rw [accepts s v idle]
    exact ⟨rfl, rfl, rfl, rfl, rfl, rfl⟩
  · obtain ⟨-, clearErrors, -⟩ := controlFieldsAct s 4 0
    obtain ⟨-, clearDone, -⟩ := controlFieldsAct s 2 0
    exact ⟨by simpa using clearErrors rfl, by simpa using clearDone rfl⟩
  · obtain ⟨latch, busy, -, -, -, sticky, info⟩ := runWord_completed hn
    exact ⟨latch, busy, fun before => sticky.mpr (.inl before),
      fun error => ⟨by rw [info, if_neg error], sticky.mpr (.inr error)⟩, fun success => by rw [info, if_pos success]⟩

/-- Settles O30: a completion with an error leaves both DONE and ESTICKY 1. -/
theorem interruptLine : Obligations.InterruptLine := by
  refine ⟨fun s => by simp [irq], rfl, fun i s t hn error => ?_,
    fun s off => ⟨refuseWrite_esticky s off, refuseWrite_done s off⟩⟩
  obtain ⟨-, -, done, -, -, sticky, -⟩ := exec_completed hn
  exact ⟨done, sticky.mpr (.inr error)⟩

end Sys2Proof.Machine
end

section
/-! PROOF. Reset (70_reset_and_hazards.md R270, R271): both reset events restore the block, and what the host reads after one. -/

namespace Sys2Proof.Machine

/-- Settles O16: SRST is the field of CTRL that O17 speaks of, and a turn of the reset input does the same. -/
theorem bothResetsRestoreTheResetState : Obligations.BothResetsRestoreTheResetState := by
  refine ⟨fun s v srst => ?_, fun s ts schedule => ?_, fun s draw => by simp only [readWord, locate_id, idWord]⟩
  · obtain ⟨softReset, -⟩ := controlFieldsAct s v 0
    exact softReset srst
  · rw [step, nextTurn_cons s _ _ schedule, takeTurn, State.resetBlock, popTurn_turns, schedule]
    rfl

/-- The words of an array of zeros, those past its end included. -/
theorem wordOf_entry_replicate_zero (n k : Nat) : wordOf (entry (Vector.replicate n (0 : Byte))) k = 0 := by
  have zero (i : Nat) : entry (Vector.replicate n (0 : Byte)) i = 0 := by
    by_cases h : i < n
    · rw [entry_eq _ _ h, Vector.getElem_replicate]
    · exact entry_out _ _ (Nat.le_of_not_lt h)
  simp only [wordOf, zero]
  rfl

/-- The registers after reset, those from CTRL to the last BALW (R271). -/
theorem readWord_reset_of_register {off : Offset} (draw : Word) (low : 4 ≤ off.toNat) (high : off.toNat < 0x400) :
    readWord off draw State.reset = 0 := by
  have idle (v w : Word) : settled State.reset v w = w := settled_idle _ _ _ rfl
  cases ht : locate off with
  | id | sbox k | isbox k | rk k | wspec k | ddtr k => have := standsAt_of_locate ht; omega
  | mat k | key k | blk k => simp only [readWord, ht, idle]; exact wordOf_entry_replicate_zero ..
  | balw k => simp only [readWord, ht, idle]; simp [State.reset]
  | ctrl | cmd | reserved => simp only [readWord, ht]
  | _ => simp only [readWord, ht, idle]; rfl

/-- Settles O15, by what stands at the offset. -/
theorem resetLeavesTheStatedValues : Obligations.ResetLeavesTheStatedValues := by
  refine ⟨fun off draw range => ?_, fun off draw => readWord_reset_of_register draw, rfl, rfl, fun i => ?_, fun i => ?_⟩
  · have ht : locate off = .id := (locate_eq_iff _ _).mpr (by omega)
    simp only [readWord, ht, idWord]
  all_goals simp [State.reset]

end Sys2Proof.Machine
end

section
/-! PROOF. The engine's turn (70_reset_and_hazards.md R280, R281): it performs the pending word, and under the model's schedule
it comes soon. -/

namespace Sys2Proof.Machine

/-! ### A step of the engine (R280) -/

theorem engineTurn_of_pending {s : State} {w : Word} (pending : s.pcmd = some w) : engineTurn s = runWord w s := by
  simp only [engineTurn, pending]

theorem step_of_engine_turn {s : State} (turn : nextTurn s = .engine) : step s = engineTurn s.popTurn := by
  rw [step, turn, takeTurn]

theorem step_of_pending {s : State} {w : Word} (turn : nextTurn s = .engine) (pending : s.pcmd = some w) :
    step s = runWord w s.popTurn :=
  (step_of_engine_turn turn).trans (engineTurn_of_pending pending)

theorem runWord_of_decode_ok {w : Word} {i : Instr} (h : decode w = .ok i) (s : State) : runWord w s = exec i s := by
  rw [runWord, h]

/-- The word placed is the word given, and the engine's turn that comes with it leaves the acceptance alone. -/
theorem step_withFetchWord (s : State) (w : Word) : step (s.withFetchWord 32 w.toNat) = runWord w (s.accept w) := by
  have placed : s.withFetchWord 32 w.toNat = s.offerCommand w := by
    rw [State.withFetchWord, Nat.mod_eq_of_lt w.isLt, BitVec.ofNat_toNat, BitVec.setWidth_eq]
  rw [placed]
  exact step_of_pending (nextTurn_cons _ _ _ rfl) rfl

/-- Settles O6, by what the decoder makes of the pending word. -/
theorem stepRunsTheDecodedCommand : Obligations.StepRunsTheDecodedCommand := by
  refine ⟨fun s w => step_of_pending, fun s w i turn pending hd => ?_, fun s w e turn pending hd => ?_, step_withFetchWord,
    fun s w i hd => ?_, fun s turn empty => ?_⟩
  · rw [step_of_pending turn pending, runWord_of_decode_ok hd]
  · obtain ⟨t, run, completed, frame⟩ := wordEndsWith_of_decode_error hd s.popTurn
    exact ⟨t, (step_of_pending turn pending).trans run, frame, by cases e <;> exact completed⟩
  · rw [step_withFetchWord, runWord_of_decode_ok hd]
  · rw [step_of_engine_turn turn, engineTurn, popTurn_pcmd, empty]

/-! ### What a turn of the host leaves of the schedule -/

theorem writeCtrl_turns (v : Word) (s : State) : (writeCtrl v s).turns = s.turns := by
  obtain e | e | e | e | e := writeCtrl_cases v s <;> simp only [e, resetBlock_turns, clearDone_turns, clearErrors_turns]

theorem hostWrite_turns (off : Offset) (v : Word) (s : State) : (hostWrite off v s).turns = s.turns := by
  have effect := hostWrite_effect off v s
  generalize hostWrite off v s = t at effect
  cases effect with
  | control => exact writeCtrl_turns v s
  | _ => rfl

theorem hostTurn_turns {s t : State} (hn : hostTurn s = .next t) : t.turns = s.turns := by
  obtain rfl | ⟨off, v, rfl⟩ | ⟨off, n, rfl⟩ | rfl | ⟨p, rfl⟩ | rfl := hostTurn_cases s t hn
  case inr.inl => exact hostWrite_turns off v s
  all_goals rfl

/-! ### A pending command under the model's schedule (R281) -/

/-- A turn of the host while a command is pending is a scheduled one: the default turn would be the engine's. -/
theorem turns_of_host_turn {s : State} {w : Word} (pending : s.pcmd = some w) (turn : nextTurn s = .host) :
    s.turns = .host :: s.turns.tail := by
  cases schedule : s.turns with
  | nil =>
    rw [nextTurn_pending s schedule (by simp [pending])] at turn
    cases turn
  | cons first rest =>
    rw [← turn, nextTurn_cons s first rest schedule]
    rfl

/-- A step with a command pending empties the latch, or uses up a scheduled turn of the host. -/
theorem step_of_pending_cases {s t : State} {w : Word} (pending : s.pcmd = some w) (hn : step s = .next t) :
    t.pcmd = none ∨ s.turns = .host :: t.turns := by
  obtain ⟨turn, hh⟩ | ⟨turn, he⟩ | ⟨-, hr⟩ := step_cases s _ hn
  · right
    rw [hostTurn_turns hh, popTurn_turns]
    exact turns_of_host_turn pending turn
  · left
    rw [engineTurn_of_pending (s := s.popTurn) pending] at he
    exact (runWord_completed he).latch
  · left
    rw [(next_inj _ _).mp hr]
    rfl

/-- The run has emptied the latch, or has ended before. -/
def LatchLeft (r : Result) : Prop :=
  (∃ t, r = .next t ∧ t.pcmd = none) ∨ (∃ f, r = .fault f) ∨ ∃ x, r = .refused x

theorem runFor_succ_of_next {s t : State} (hn : step s = .next t) (n : Nat) : runFor (n + 1) s = runFor n t := by
  rw [runFor, hn]

theorem latchLeft_runFor_one {s : State} (emptied : ∀ t, step s = .next t → t.pcmd = none) : LatchLeft (runFor 1 s) := by
  rw [runFor]
  cases hn : step s with
  | next t => exact .inl ⟨t, rfl, emptied t hn⟩
  | fault f => exact .inr (.inl ⟨f, rfl⟩)
  | refused x => exact .inr (.inr ⟨x, rfl⟩)

/-- Settles O32, by recursion on the schedule: a step that leaves a command pending has used up one of its turns. -/
theorem pendingCommandLeavesTheLatch : Obligations.PendingCommandLeavesTheLatch := by
  intro s w pending
  by_cases emptied : ∀ t, step s = .next t → t.pcmd = none
  · exact ⟨1, by omega, latchLeft_runFor_one emptied⟩
  · push Not at emptied
    obtain ⟨t, hn, still⟩ := emptied
    obtain ⟨v, pending'⟩ := Option.ne_none_iff_exists'.mp still
    have schedule : s.turns = .host :: t.turns := (step_of_pending_cases pending hn).resolve_left still
    have shorter : s.turns.length = t.turns.length + 1 := by rw [schedule, List.length_cons]
    obtain ⟨n, bound, left⟩ := pendingCommandLeavesTheLatch t v pending'
    exact ⟨n + 1, by omega, by rwa [runFor_succ_of_next hn]⟩
termination_by s => s.turns.length

end Sys2Proof.Machine
end
